-- ==== Sys2Proof/Word.lean ====
section
/-! DEFINITION. The machine's words: the byte every register and memory cell holds, the address the block passes to
VRAM, the colour index of a pixel, and the host-operation word (spec/00_scope.md R9, spec/30_encoding.md R57). -/

namespace Sys2Proof

/-- A byte: "All register values are 8-bit unsigned (0..255)" (R9). -/
abbrev Byte := BitVec 8

/-- An address: "Addresses are 16-bit unsigned" (R9). -/
abbrev Addr := BitVec 16

/-- A colour index, or a shade: two bits (R62, R68). -/
abbrev Colour := BitVec 2

/-- A host-operation word: 26 bits, bit 25 most significant (R57). -/
abbrev HostWord := BitVec 26

end Sys2Proof
end

