-- ==== Sys2Proof/Config.lean ====
section
/-! DEFINITION. What the spec leaves open or hands to the implementer: free values, and the parameters of
spec/93_implementation_defined.md that the state after reset takes. The numeric parameters of spec/00_scope.md R7 that
the meanings use stand in Machine/Params.lean. -/

namespace Sys2Proof

/-- The byte the frame buffer holds at index `i` at power-on. FREE VALUE: "unspecified: any byte values" (R39, I4).
It has no body, so nothing can be proved of it. Log entry 3. -/
opaque Config.fbPowerOn : Nat → Byte

/-- The parameter POWER_ON_REGS: the power-on value of LCDC, SCY, SCX, LYC, BGP, OBP0, OBP1, WY and WX
(R39, I6: "value all 0"). -/
def Config.powerOnReg : Byte := 0x00

/-- What a byte of VRAM or OAM that the host has not written reads as. DESIGN CHOICE, unsafe: the spec gives memory no
power-on contents. Log entry 2. -/
def Config.unlistedByte : Byte := 0x00

end Sys2Proof
end

