-- ==== Sys2Proof/Syntax.lean ====
section
/-! DEFINITION. The host operations as syntax: one constructor for each of the 23 rows of spec/opcode_table.json, the
eleven register names, the pseudo-instructions of R69, and the reasons a word is no operation (R60). -/

namespace Sys2Proof

/-- The eleven host-addressable registers (R15, R59). -/
inductive Reg where
  | lcdc | stat | scy | scx | ly | lyc | bgp | obp0 | obp1 | wy | wx
deriving DecidableEq, Repr

/-- The host operations. The operand of a write is the byte written; the operand of a Tick is a count of M-cycles,
whose range in one word is 0..255 (R58, `Instr.wellFormed`). -/
inductive Instr where
  /-- `RD LCDC` (R72). -/
  | rdLcdc
  /-- `WR LCDC, v` (R73). -/
  | wrLcdc (v : Byte)
  /-- `RD STAT` (R76). -/
  | rdStat
  /-- `WR STAT, v` (R77). -/
  | wrStat (v : Byte)
  /-- `RD SCY` (R78). -/
  | rdScy
  /-- `WR SCY, v` (R79). -/
  | wrScy (v : Byte)
  /-- `RD SCX` (R80). -/
  | rdScx
  /-- `WR SCX, v` (R81). -/
  | wrScx (v : Byte)
  /-- `RD LY` (R82). -/
  | rdLy
  /-- `WR LY, v` (R83). -/
  | wrLy (v : Byte)
  /-- `RD LYC` (R84). -/
  | rdLyc
  /-- `WR LYC, v` (R85). -/
  | wrLyc (v : Byte)
  /-- `RD BGP` (R86). -/
  | rdBgp
  /-- `WR BGP, v` (R87). -/
  | wrBgp (v : Byte)
  /-- `RD OBP0` (R88). -/
  | rdObp0
  /-- `WR OBP0, v` (R89). -/
  | wrObp0 (v : Byte)
  /-- `RD OBP1` (R90). -/
  | rdObp1
  /-- `WR OBP1, v` (R91). -/
  | wrObp1 (v : Byte)
  /-- `RD WY` (R92). -/
  | rdWy
  /-- `WR WY, v` (R93). -/
  | wrWy (v : Byte)
  /-- `RD WX` (R94). -/
  | rdWx
  /-- `WR WX, v` (R95). -/
  | wrWx (v : Byte)
  /-- `TICK m` (R97). -/
  | tick (m : Nat)
deriving DecidableEq, Repr

/-- The pseudo-instructions (R69). -/
inductive Pseudo where
  /-- `TICK m` with a count of any size. -/
  | tick (m : Nat)
  /-- `DOTS n`, `n` a multiple of 4. -/
  | dots (n : Nat)
  /-- `LINE`: one scanline. -/
  | line
  /-- `FRAME`: one frame. -/
  | frame
deriving DecidableEq, Repr

/-- Why a host-operation word has no meaning (R60). -/
inductive DecodeError where
  /-- `op = 0b11`. -/
  | reservedOp
  /-- A read or a write whose address is none of the eleven of R59. -/
  | unknownAddress (a : Addr)
  /-- A read with `data ≠ 0`. -/
  | readData (d : Byte)
  /-- A Tick with `addr ≠ 0`. -/
  | tickAddress (a : Addr)
deriving DecidableEq, Repr

end Sys2Proof
end

