-- ==== Sys2Proof/WellFormed.lean ====
section
/-! DEFINITION. Which operation terms fit one host-operation word (R58, R69). The bytes of the writes are 8 bits wide
by their type; the count of a Tick is the one operand whose range is checked. -/

namespace Sys2Proof

/-- Whether the operation fits one word: "`TICK <m>` with `0 ≤ m ≤ 255`" (R69). -/
def Instr.wellFormed : Instr → Bool
  | .rdLcdc => true
  | .wrLcdc _ => true
  | .rdStat => true
  | .wrStat _ => true
  | .rdScy => true
  | .wrScy _ => true
  | .rdScx => true
  | .wrScx _ => true
  | .rdLy => true
  | .wrLy _ => true
  | .rdLyc => true
  | .wrLyc _ => true
  | .rdBgp => true
  | .wrBgp _ => true
  | .rdObp0 => true
  | .wrObp0 _ => true
  | .rdObp1 => true
  | .wrObp1 _ => true
  | .rdWy => true
  | .wrWy _ => true
  | .rdWx => true
  | .wrWx _ => true
  | .tick m => decide (m ≤ 255)

end Sys2Proof
end

