-- ==== Sys2Proof/Decode.lean ====
section
/-! DEFINITION. Decoding and encoding of the host-operation word (spec/30_encoding.md R57 to R61, R70): the register
address map, the total decoder, the encoder written from the same tables, the opcode table's rows, and the
pseudo-instructions' expansions (R69). -/

namespace Sys2Proof

/-- The address of a register (R59). -/
def Reg.addr : Reg → Addr
  | .lcdc => 0xFF40#16
  | .stat => 0xFF41#16
  | .scy => 0xFF42#16
  | .scx => 0xFF43#16
  | .ly => 0xFF44#16
  | .lyc => 0xFF45#16
  | .bgp => 0xFF47#16
  | .obp0 => 0xFF48#16
  | .obp1 => 0xFF49#16
  | .wy => 0xFF4A#16
  | .wx => 0xFF4B#16

/-- The register at an address, if it is one of the eleven of R59. 0xFF46 is none of them (R60). -/
def Reg.ofAddr (a : Addr) : Option Reg :=
  match a.toNat with
  | 0xFF40 => some .lcdc
  | 0xFF41 => some .stat
  | 0xFF42 => some .scy
  | 0xFF43 => some .scx
  | 0xFF44 => some .ly
  | 0xFF45 => some .lyc
  | 0xFF47 => some .bgp
  | 0xFF48 => some .obp0
  | 0xFF49 => some .obp1
  | 0xFF4A => some .wy
  | 0xFF4B => some .wx
  | _ => none

/-- The read operation of a register (R59, column "read"). -/
def Instr.rd : Reg → Instr
  | .lcdc => .rdLcdc
  | .stat => .rdStat
  | .scy => .rdScy
  | .scx => .rdScx
  | .ly => .rdLy
  | .lyc => .rdLyc
  | .bgp => .rdBgp
  | .obp0 => .rdObp0
  | .obp1 => .rdObp1
  | .wy => .rdWy
  | .wx => .rdWx

/-- The write operation of a register (R59, column "write"). -/
def Instr.wr (r : Reg) (v : Byte) : Instr :=
  match r with
  | .lcdc => .wrLcdc v
  | .stat => .wrStat v
  | .scy => .wrScy v
  | .scx => .wrScx v
  | .ly => .wrLy v
  | .lyc => .wrLyc v
  | .bgp => .wrBgp v
  | .obp0 => .wrObp0 v
  | .obp1 => .wrObp1 v
  | .wy => .wrWy v
  | .wx => .wrWx v

/-- The field `op`, bits 25:24 (R57). -/
def HostWord.op (w : HostWord) : BitVec 2 := w.extractLsb' 24 2

/-- The field `addr`, bits 23:8 (R57). -/
def HostWord.addr (w : HostWord) : Addr := w.extractLsb' 8 16

/-- The field `data`, bits 7:0 (R57). -/
def HostWord.data (w : HostWord) : Byte := w.extractLsb' 0 8

/-- A word from its three fields (R57). -/
def HostWord.ofFields (op : BitVec 2) (addr : Addr) (data : Byte) : HostWord := op ++ addr ++ data

/-- Decoding a word (R70). Total; a word with no meaning is refused by name (R60). -/
def decode (w : HostWord) : Except DecodeError Instr :=
  match (HostWord.op w).toNat with
  | 0 =>
    match Reg.ofAddr (HostWord.addr w) with
    | some r => if HostWord.data w = 0 then .ok (.rd r) else .error (.readData (HostWord.data w))
    | none => .error (.unknownAddress (HostWord.addr w))
  | 1 =>
    match Reg.ofAddr (HostWord.addr w) with
    | some r => .ok (.wr r (HostWord.data w))
    | none => .error (.unknownAddress (HostWord.addr w))
  | 2 =>
    if HostWord.addr w = 0 then .ok (.tick (HostWord.data w).toNat)
    else .error (.tickAddress (HostWord.addr w))
  | _ => .error .reservedOp

/-- The word of a register read: `op=0b00, data=0` (R69). -/
def encodeRd (r : Reg) : HostWord := HostWord.ofFields 0b00#2 r.addr 0

/-- The word of a register write: `op=0b01, data=imm8` (R69). -/
def encodeWr (r : Reg) (v : Byte) : HostWord := HostWord.ofFields 0b01#2 r.addr v

/-- The word of a well-formed operation (R69). -/
def encode : Instr → HostWord
  | .rdLcdc => encodeRd .lcdc
  | .wrLcdc v => encodeWr .lcdc v
  | .rdStat => encodeRd .stat
  | .wrStat v => encodeWr .stat v
  | .rdScy => encodeRd .scy
  | .wrScy v => encodeWr .scy v
  | .rdScx => encodeRd .scx
  | .wrScx v => encodeWr .scx v
  | .rdLy => encodeRd .ly
  | .wrLy v => encodeWr .ly v
  | .rdLyc => encodeRd .lyc
  | .wrLyc v => encodeWr .lyc v
  | .rdBgp => encodeRd .bgp
  | .wrBgp v => encodeWr .bgp v
  | .rdObp0 => encodeRd .obp0
  | .wrObp0 v => encodeWr .obp0 v
  | .rdObp1 => encodeRd .obp1
  | .wrObp1 v => encodeWr .obp1 v
  | .rdWy => encodeRd .wy
  | .wrWy v => encodeWr .wy v
  | .rdWx => encodeRd .wx
  | .wrWx v => encodeWr .wx v
  | .tick m => HostWord.ofFields 0b10#2 0 (BitVec.ofNat 8 m)

/-- The mask of an operation's row in the opcode table: "0x3FFFFFF for reads (so `data = 0` is part of the match) and
0x3FFFF00 for writes and Tick" (R70). -/
def Instr.rowMask : Instr → HostWord
  | .rdLcdc | .rdStat | .rdScy | .rdScx | .rdLy | .rdLyc | .rdBgp | .rdObp0 | .rdObp1 | .rdWy | .rdWx => 0x3FFFFFF#26
  | .wrLcdc _ | .wrStat _ | .wrScy _ | .wrScx _ | .wrLy _ | .wrLyc _ | .wrBgp _ | .wrObp0 _ | .wrObp1 _ | .wrWy _
  | .wrWx _ | .tick _ => 0x3FFFF00#26

/-- The match value of an operation's row in the opcode table (spec/opcode_table.json, column "match"; R70). -/
def Instr.rowMatch : Instr → HostWord
  | .rdLcdc => 0x0FF4000#26
  | .wrLcdc _ => 0x1FF4000#26
  | .rdStat => 0x0FF4100#26
  | .wrStat _ => 0x1FF4100#26
  | .rdScy => 0x0FF4200#26
  | .wrScy _ => 0x1FF4200#26
  | .rdScx => 0x0FF4300#26
  | .wrScx _ => 0x1FF4300#26
  | .rdLy => 0x0FF4400#26
  | .wrLy _ => 0x1FF4400#26
  | .rdLyc => 0x0FF4500#26
  | .wrLyc _ => 0x1FF4500#26
  | .rdBgp => 0x0FF4700#26
  | .wrBgp _ => 0x1FF4700#26
  | .rdObp0 => 0x0FF4800#26
  | .wrObp0 _ => 0x1FF4800#26
  | .rdObp1 => 0x0FF4900#26
  | .wrObp1 _ => 0x1FF4900#26
  | .rdWy => 0x0FF4A00#26
  | .wrWy _ => 0x1FF4A00#26
  | .rdWx => 0x0FF4B00#26
  | .wrWx _ => 0x1FF4B00#26
  | .tick _ => 0x2000000#26

/-- The instruction the decoder reads from a table word of `nbits` bits with value `w`: the host word is one number of
26 bits, so a value with a bit above bit 25 is no host word (R61). -/
def decodeTableWord (nbits w : Nat) : Option Instr :=
  let v := w % 2 ^ nbits
  if v < 2 ^ 26 then
    match decode (BitVec.ofNat 26 v) with
    | .ok i => some i
    | .error _ => none
  else none

/-- `TICK m` of any count: "`floor(m/255)` words `TICK 255` followed by `TICK (m mod 255)` if that is non-zero", and one
word `TICK m` where the count fits it (R69). -/
def Pseudo.expandTick (m : Nat) : List Instr :=
  if m ≤ 255 then [.tick m]
  else List.replicate (m / 255) (.tick 255) ++ (if m % 255 = 0 then [] else [.tick (m % 255)])

/-- The expansion of a pseudo-instruction, if its operand is legal (R69). -/
def Pseudo.expand : Pseudo → Option (List Instr)
  | .tick m => some (Pseudo.expandTick m)
  | .dots n => if n % 4 = 0 then some (Pseudo.expandTick (n / 4)) else none
  | .line => some (Pseudo.expandTick 114)
  | .frame => some (Pseudo.expandTick 17556)

end Sys2Proof
end

