-- ==== Sys2Proof/Machine/State.lean ====
section
/-! DEFINITION. The machine's state as plain data (spec/10_state.md R13 to R39, spec/20_memory.md R41), the reasons a
step can stop, and the state after power-on (R39). -/

namespace Sys2Proof.Machine

/-- The mode of the state machine, `STAT.MODE`: "mode flag ∈ {0=HBlank,1=VBlank,2=OAMScan,3=Draw}" (R24). -/
inductive Mode where
  | hblank | vblank | oamScan | draw
deriving DecidableEq, Repr

/-- The phase of the tile fetcher: "GetTile=0, DataLow=1, DataHigh=2, Idle=3, Push=4" (R31). -/
inductive Phase where
  | getTile | dataLow | dataHigh | idle | push
deriving DecidableEq, Repr

/-- The palette selector stored with a pixel: "palette selector 0 → BG palette register, 1 → OBJ0, 2 → OBJ1" (R157). -/
inductive Palette where
  | bg | obj0 | obj1
deriving DecidableEq, Repr

/-- SpriteAttribute, one sprite selected for the line (R30). `y` and `x` are signed and already offset by −16 and −8;
`pal` is the palette selector 0 or 1; `oam` is the OAM table index; `height` is the resolved height. -/
structure SpriteAttr where
  y : Int
  x : Int
  tile : Byte
  bgPrio : Bool
  yflip : Bool
  xflip : Bool
  pal : Bool
  oam : Nat
  height : Nat
deriving DecidableEq, Repr

/-- BgPixel (R32). -/
structure BgPixel where
  color : Colour
  blank : Bool
  pal : Palette
deriving DecidableEq, Repr

/-- SpritePixel (R33): `blank` is the record `SP_BLANK`, which has "no other meaningful field" but the x it stands at
(R132). Log entry 8. -/
inductive SpritePixel where
  | blank (x : Nat)
  | pixel (color : Colour) (pal : Palette) (oam : Nat) (bgPrio : Bool) (x : Nat)
deriving DecidableEq, Repr

/-- One action of the host (spec/92_eei_decisions.md, host record): a host-operation word, the write of one byte of VRAM
(at 0x8000 + `off`) or of OAM (R69), or the write of the interrupt-flag register, by which the host clears pending bits
(R41, R164). Log entries 1 and 4. -/
inductive HostAction where
  | word (w : HostWord)
  | writeVram (off : BitVec 13) (v : Byte)
  | writeOam (off : Fin 160) (v : Byte)
  | writeInterruptFlag (v : Byte)
deriving DecidableEq, Repr

/-- A byte memory: the listed cells, addresses strictly rising, and no cell equal to what an unlisted address reads as
(`Memory.wf`). -/
abbrev Memory := List Host.Cell

/-- The frame buffer: the bytes drawn since power-on, indices strictly rising (R38; log entry 3). -/
abbrev FrameBuffer := List Host.Cell

/-- The Draw pipeline's own state: the fetcher (R31), the two pixel FIFOs (R34) and the sprite fetch (R35). -/
structure Pipeline where
  phase : Phase
  phaseDot : Nat
  inWindow : Bool
  fetchX : Nat
  mapAddr : Addr
  tileLine : BitVec 3
  tileAddr : Addr
  lo : Byte
  hi : Byte
  discard : BitVec 3
  pushX : Nat
  outputX : Nat
  run : List Colour
  bgFifo : List BgPixel
  spFifo : List SpritePixel
  spPtr : Nat
  sfetchLeft : Nat
  sfetchCur : SpriteAttr
deriving DecidableEq, Repr

/-- The machine's state. The groups, in order: the host-visible registers (R15 to R24), the mode machine and the
scanner (R25 to R29), the pipeline (R31 to R35), the frame buffer (R38), the memories and the interrupt-flag register
(R41), the block's outputs, and the host's actions not yet performed. -/
structure State where
  lcdc : Byte
  statLycInt : Bool
  statOamInt : Bool
  statVblankInt : Bool
  statHblankInt : Bool
  statLycFlag : Bool
  mode : Mode
  scy : Byte
  scx : Byte
  ly : Byte
  lyc : Byte
  bgp : Byte
  obp0 : Byte
  obp1 : Byte
  wy : Byte
  wx : Byte
  engineOn : Bool
  lineDot : Nat
  drawDots : Nat
  windowLine : Nat
  winLineOk : Bool
  scanY : Byte
  scanX : Byte
  sel : List SpriteAttr
  pipe : Pipeline
  fb : FrameBuffer
  vram : Memory
  oam : Memory
  iflag : Byte
  returned : Option Byte
  presented : List FrameBuffer
  pending : List HostAction
deriving DecidableEq, Repr

/-- Why the machine stops. None is an exception of the hardware (R161), and the rules reach none of them. -/
inductive Fault where
  /-- Raised at the end of a line's last dot while the mode is Draw (R107). Safe: the hardware would go on. -/
  | drawOverrun
  /-- Raised by a read of VRAM at an address outside 0x8000..0x9FFF (R43). Safe. Log entry 9. -/
  | vramAddress (a : Addr)
  /-- Raised by a read of OAM at an offset above 159 (R44). Safe. Log entry 9. -/
  | oamOffset (o : Nat)
  /-- Raised by a frame-buffer write at an index above 23039 (R159). Safe. Log entry 9. -/
  | frameIndex (i : Nat)
  /-- Raised by the mixer where the sprite FIFO is empty beside a background pixel, and by the sprite overlay where a
  column's place is neither in the sprite FIFO nor next after it (R36, R146, R152). Safe. Log entry 9. -/
  | fifoMisaligned
deriving DecidableEq, Repr

/-- Why the model gives an action no meaning. -/
inductive Refusal where
  /-- Raised by an arm of `exec` whose instruction is not modelled. Safe. No arm of this model raises it. -/
  | notModelled (mnemonic : String)
  /-- Raised by a host-operation word that has no meaning: "the model must `refuse` them" (R60). Safe. -/
  | reservedWord (e : DecodeError)
deriving DecidableEq, Repr

/-- `st.sfetch_cur` before any sprite fetch. DESIGN CHOICE: R39 gives none. Log entry 7. -/
def SpriteAttr.none : SpriteAttr :=
  { y := 0, x := 0, tile := 0, bgPrio := false, yflip := false, xflip := false, pal := false, oam := 0, height := 8 }

/-- The pipeline at power-on: "phase GetTile, every counter and byte 0, `in_window` 0, `run` empty", both FIFOs empty,
no sprite fetch (R39). -/
def Pipeline.reset : Pipeline :=
  { phase := .getTile, phaseDot := 0, inWindow := false, fetchX := 0, mapAddr := 0, tileLine := 0, tileAddr := 0,
    lo := 0, hi := 0, discard := 0, pushX := 0, outputX := 0, run := [], bgFifo := [], spFifo := [], spPtr := 0,
    sfetchLeft := 0, sfetchCur := SpriteAttr.none }

/-- The state after power-on (R39, R173): every register 0, the engine off, every counter 0, every list empty, nothing
of the frame buffer drawn, nothing of the memories listed. Log entries 1 to 7. -/
def State.reset : State :=
  { lcdc := Config.powerOnReg
    statLycInt := false, statOamInt := false, statVblankInt := false, statHblankInt := false
    statLycFlag := false, mode := .hblank
    scy := Config.powerOnReg, scx := Config.powerOnReg, ly := 0, lyc := Config.powerOnReg
    bgp := Config.powerOnReg, obp0 := Config.powerOnReg, obp1 := Config.powerOnReg
    wy := Config.powerOnReg, wx := Config.powerOnReg
    engineOn := false, lineDot := 0, drawDots := 0, windowLine := 0, winLineOk := false
    scanY := 0, scanX := 0, sel := []
    pipe := Pipeline.reset
    fb := [], vram := [], oam := [], iflag := 0
    returned := none, presented := [], pending := [] }

end Sys2Proof.Machine
end

