-- ==== Sys2Proof/Machine/Params.lean ====
section
/-! DEFINITION. The implementation parameters of spec/00_scope.md R7, under the spec's names. -/

namespace Sys2Proof.Machine

/-- `SCREEN_W`: 160 pixels (R7). -/
@[simp] abbrev screenW : Nat := 160

/-- `SCREEN_H`: 144 lines (R7). -/
@[simp] abbrev screenH : Nat := 144

/-- `LINES_PER_FRAME`: LY 0..153 (R7). -/
@[simp] abbrev linesPerFrame : Nat := 154

/-- `DOTS_PER_LINE` (R7). -/
@[simp] abbrev dotsPerLine : Nat := 456

/-- `OAM_SCAN_DOTS` (R7). -/
@[simp] abbrev oamScanDots : Nat := 80

/-- `DRAW_MIN_DOTS` (R7). -/
@[simp] abbrev drawMinDots : Nat := 172

/-- `DOTS_PER_MCYCLE` (R7). -/
@[simp] abbrev dotsPerMcycle : Nat := 4

/-- `OAM_ENTRIES`: 40 entries of 4 bytes (R7). -/
@[simp] abbrev oamEntries : Nat := 40

/-- `MAX_SPRITES_PER_LINE` (R7). -/
@[simp] abbrev maxSpritesPerLine : Nat := 10

/-- `FETCH_PHASE_DOTS`: the dots of GetTile, DataLow, DataHigh and Idle (R7). -/
@[simp] abbrev fetchPhaseDots : Nat := 2

/-- `SPRITE_FETCH_DOTS` (R7). -/
@[simp] abbrev spriteFetchDots : Nat := 6

/-- `TILE_DATA_BASE_UNSIGNED` (R7). -/
@[simp] abbrev tileDataBaseUnsigned : Nat := 0x8000

/-- `TILE_DATA_BASE_SIGNED`, with bias 128 (R7). -/
@[simp] abbrev tileDataBaseSigned : Nat := 0x8800

/-- `TILE_MAP_BASES`: 0x9800 for select bit 0, 0x9C00 for select bit 1 (R7, R64). -/
def tileMapBase (select : Bool) : Nat := if select then 0x9C00 else 0x9800

/-- `SAMPLE_TABLE`: shade 0 → 0xFF, 1 → 0x7F, 2 → 0x3F, 3 → 0x00 (R7, R158). -/
def sampleTable (shade : Colour) : Byte :=
  match shade.toNat with
  | 0 => 0xFF
  | 1 => 0x7F
  | 2 => 0x3F
  | _ => 0x00

end Sys2Proof.Machine
end

