-- ==== Sys2Proof/Machine/Ops.lean ====
section
/-! DEFINITION. The shared operations: the byte memories and the frame buffer in their canonical form, the block's reads
of VRAM and OAM (R11, R43, R44, R47), the frame-buffer write (R159), the interrupt request (R163), the frame hand-off
(R55), the FIFO operations (R151), and the value an operation returns to the host (spec/40_registers.md).

The block takes no exception and returns from none (R161, R166, R167); `requestInterrupt` is all that happens in the
block where a processor would take one. -/

namespace Sys2Proof.Machine

/-- The byte listed at an address, if any. -/
def Memory.get? : Memory → Nat → Option Byte
  | [], _ => none
  | (a, b) :: m, k => if a = k then some b else Memory.get? m k

/-- The list with the byte at `k` set, addresses kept rising. -/
def Memory.put : Memory → Nat → Byte → Memory
  | [], k, v => [(k, v)]
  | (a, b) :: m, k, v =>
    if k < a then (k, v) :: (a, b) :: m
    else if a = k then (k, v) :: m
    else (a, b) :: Memory.put m k v

/-- The list without the address `k`. -/
def Memory.erase (m : Memory) (k : Nat) : Memory := m.filter fun c => c.1 != k

/-- Reading one byte of a memory. An unlisted address reads as `Config.unlistedByte`. -/
def Memory.read (m : Memory) (k : Nat) : Byte := (Memory.get? m k).getD Config.unlistedByte

/-- Writing one byte of a memory, in the canonical form. -/
def Memory.write (m : Memory) (k : Nat) (v : Byte) : Memory :=
  if v = Config.unlistedByte then Memory.erase m k else Memory.put m k v

/-- The canonical form of a memory whose addresses are `lo` to `hi`: addresses strictly rising and in range, and no cell
equal to what an unlisted address reads as. -/
abbrev Memory.wf (lo hi : Nat) (m : Memory) : Prop :=
  (m.map Prod.fst).Pairwise (· < ·) ∧ ∀ c ∈ m, lo ≤ c.1 ∧ c.1 ≤ hi ∧ c.2 ≠ Config.unlistedByte

/-- Reading one byte of the frame buffer: a byte not drawn since power-on is the free value of its index (R39, I4). -/
def FrameBuffer.read (f : FrameBuffer) (i : Nat) : Byte := (Memory.get? f i).getD (Config.fbPowerOn i)

/-- Writing one byte of the frame buffer. -/
def FrameBuffer.write (f : FrameBuffer) (i : Nat) (v : Byte) : FrameBuffer := Memory.put f i v

/-- The canonical form of the frame buffer: indices strictly rising and in 0..23039. -/
abbrev FrameBuffer.wf (f : FrameBuffer) : Prop :=
  (f.map Prod.fst).Pairwise (· < ·) ∧ ∀ c ∈ f, c.1 < screenW * screenH

/-- `ReadVram(addr)`: "For `0x8000 ≤ addr ≤ 0x9FFF`"; no side effect (R11, R47). Outside it, the fault of R43. -/
def readVram (s : State) (a : Addr) : Except Fault Byte :=
  if 0x8000 ≤ a.toNat ∧ a.toNat ≤ 0x9FFF then .ok (Memory.read s.vram a.toNat) else .error (.vramAddress a)

/-- `ReadOam(off)`, `off` in 0..159; no side effect (R11, R44, R47). -/
def readOam (s : State) (o : Nat) : Except Fault Byte :=
  if o < 4 * oamEntries then .ok (Memory.read s.oam o) else .error (.oamOffset o)

/-- The host's write of one byte of VRAM, at 0x8000 + `off` (R41, R69). -/
def hostWriteVram (s : State) (off : BitVec 13) (v : Byte) : State :=
  { s with vram := Memory.write s.vram (0x8000 + off.toNat) v }

/-- The host's write of one byte of OAM (R41, R69). -/
def hostWriteOam (s : State) (off : Fin 160) (v : Byte) : State :=
  { s with oam := Memory.write s.oam off.val v }

/-- The host's write of the interrupt-flag register: the host clears pending bits, and the bits the block does not use
are the host's (R41, R164, I11). Log entry 4. -/
def hostWriteInterruptFlag (s : State) (v : Byte) : State := { s with iflag := v }

/-- `FbWrite(i, v)`, `i` in 0..23039 (R11, R159). -/
def fbWrite (s : State) (i : Nat) (v : Byte) : Except Fault State :=
  if i < screenW * screenH then .ok { s with fb := FrameBuffer.write s.fb i v } else .error (.frameIndex i)

/-- The two interrupt requests (R162). -/
inductive Interrupt where
  | vblank | stat
deriving DecidableEq, Repr

/-- The pending bit of a request in the interrupt-flag register: "VBLANK is bit 0 and STAT bit 1" (R163). -/
def Interrupt.bit : Interrupt → Byte
  | .vblank => 0x01
  | .stat => 0x02

/-- `RequestInterrupt(k)`: "sets the pending bit of `k` in the shared interrupt-flag register. Setting a bit that is
already set changes nothing" (R163). -/
def requestInterrupt (k : Interrupt) (s : State) : State := { s with iflag := s.iflag ||| k.bit }

/-- An interrupt request that its enable bit, sampled at the event, lets through (R164). -/
def requestIf (enable : Bool) (k : Interrupt) (s : State) : State := if enable then requestInterrupt k s else s

/-- `PresentFrame(st.fb)`: the display receives "the value of `st.fb` at the moment of the call (a snapshot)" (R55). -/
def presentFrame (s : State) : State := { s with presented := s.fb :: s.presented }

/-- `L.push_back(e)` (R10, R151). -/
def Fifo.pushBack {α : Type} (q : List α) (e : α) : List α := q ++ [e]

/-- A register read returns its byte to the host and changes nothing else (R71). -/
def returnByte (v : Byte) (s : State) : State := { s with returned := some v }

/-- A register write and a Tick return nothing to the host (spec/40_registers.md; log entry 5). -/
def returnNothing (s : State) : State := { s with returned := none }

end Sys2Proof.Machine
end

