-- ==== Sys2Proof/Machine/Operands.lean ====
section
/-! DEFINITION. The operand forms: the fields of LCDC (R16), the palette registers (R21, R68, R157), the fields of an OAM
entry (R65, R66), and the bits of a bitplane pair (R62). -/

namespace Sys2Proof.Machine

/-- `LCDC.ENABLE`, bit 7 (R16). -/
def State.lcdEnable (s : State) : Bool := s.lcdc.getLsbD 7

/-- `LCDC.WIN_MAP`, bit 6 (R16). -/
def State.winMap (s : State) : Bool := s.lcdc.getLsbD 6

/-- `LCDC.WIN_ENABLE`, bit 5 (R16). -/
def State.winEnable (s : State) : Bool := s.lcdc.getLsbD 5

/-- `LCDC.TILE_DATA`, bit 4 (R16). -/
def State.tileData (s : State) : Bool := s.lcdc.getLsbD 4

/-- `LCDC.BG_MAP`, bit 3 (R16). -/
def State.bgMap (s : State) : Bool := s.lcdc.getLsbD 3

/-- `LCDC.OBJ_SIZE`, bit 2 (R16). -/
def State.objSize (s : State) : Bool := s.lcdc.getLsbD 2

/-- `LCDC.OBJ_ENABLE`, bit 1 (R16). -/
def State.objEnable (s : State) : Bool := s.lcdc.getLsbD 1

/-- `LCDC.BG_WIN_ENABLE`, bit 0 (R16). -/
def State.bgWinEnable (s : State) : Bool := s.lcdc.getLsbD 0

/-- The sprite height the object-size bit selects: "16 if the global obj-size bit is set else 8" (R115). -/
def State.objHeight (s : State) : Nat := if s.objSize then 16 else 8

/-- The palette register a stored selector names: "[BGP, OBP0, OBP1][pal]" (R157). -/
def State.paletteReg (s : State) : Palette → Byte
  | .bg => s.bgp
  | .obj0 => s.obp0
  | .obj1 => s.obp1

/-- The selector stored with a sprite pixel: the sprite's palette selector plus 1 (R33, R146). -/
def Palette.ofSprite (pal : Bool) : Palette := if pal then .obj1 else .obj0

/-- The shade a palette byte gives a colour index: `P[2c+1:2c]` (R68). -/
def shadeOf (p : Byte) (c : Colour) : Colour := p.extractLsb' (2 * c.toNat) 2

/-- The colour index of bit `b` of a bitplane pair: `{hi[b], lo[b]}` (R62). -/
def planeColour (lo hi : Byte) (b : Nat) : Colour := hi.extractLsb' b 1 ++ lo.extractLsb' b 1

/-- The SpriteAttribute record of OAM entry `i` from its four bytes: `y = rawY − 16`, `x = rawX − 8`, the attribute bits
7 to 4, and the resolved height (R65, R66, R115). -/
def spriteOf (i : Nat) (ry rx tile attr : Byte) (height : Nat) : SpriteAttr :=
  { y := (ry.toNat : Int) - 16, x := (rx.toNat : Int) - 8, tile := tile
    bgPrio := attr.getLsbD 7, yflip := attr.getLsbD 6, xflip := attr.getLsbD 5, pal := attr.getLsbD 4
    oam := i, height := height }

end Sys2Proof.Machine
end

