-- ==== Sys2Proof/Machine/Flags.lean ====
section
/-! DEFINITION. The status register: the byte a read of STAT returns (R76), the fields a write sets (R77), the LYC flag
(R23, R99) and the mode (R24). -/

namespace Sys2Proof.Machine

/-- The mode's number: "0 = HBlank, 1 = VBlank, 2 = OAM scan, 3 = Draw" (R17). -/
def Mode.bits : Mode → BitVec 2
  | .hblank => 0
  | .vblank => 1
  | .oamScan => 2
  | .draw => 3

/-- The STAT byte: `{1, LYC_INT, OAM_INT, VBLANK_INT, HBLANK_INT, LYC_FLAG, MODE[1:0]}` (R76). -/
def State.statByte (s : State) : Byte :=
  BitVec.ofBool true ++ BitVec.ofBool s.statLycInt ++ BitVec.ofBool s.statOamInt ++ BitVec.ofBool s.statVblankInt ++
    BitVec.ofBool s.statHblankInt ++ BitVec.ofBool s.statLycFlag ++ s.mode.bits

/-- The write of STAT: bits 6 to 3 are stored, `v[7]` and `v[2:0]` are discarded (R77). -/
def setStatEnables (v : Byte) (s : State) : State :=
  { s with statLycInt := v.getLsbD 6, statOamInt := v.getLsbD 5, statVblankInt := v.getLsbD 4,
           statHblankInt := v.getLsbD 3 }

/-- The line-start compare sets the LYC flag to whether `LY = LYC` (R23, R99). -/
def setLycFlag (s : State) : State := { s with statLycFlag := decide (s.ly = s.lyc) }

/-- A mode transition (R24). -/
def setMode (m : Mode) (s : State) : State := { s with mode := m }

end Sys2Proof.Machine
end

