-- ==== Sys2Proof/Machine/SpriteFetcher.lean ====
section
/-! DEFINITION. The sprite fetcher (spec/44_sprite_fetcher.md R139 to R147): the trigger check of the drain loop, and
the fetch's completion with its overlay into the sprite FIFO. -/

namespace Sys2Proof.Machine

/-- The trigger x of a selected sprite: `max(x, 0)` (R140). -/
def SpriteAttr.triggerX (a : SpriteAttr) : Int := max a.x 0

/-- The screen x a sprite FIFO slot stands for (R33). -/
def SpritePixel.x : SpritePixel → Nat
  | .blank x => x
  | .pixel _ _ _ _ x => x

/-- `SpriteCheck()`, its loop with the count of selected sprites not yet considered as fuel: a sprite whose trigger x is
the next pixel to drain starts a fetch, or is passed over while the object-enable bit is 0 (R141). -/
def spriteCheckLoop : Nat → State → Bool × State
  | 0, s => (false, s)
  | n + 1, s =>
    match s.sel[s.pipe.spPtr]? with
    | none => (false, s)
    | some a =>
      if a.triggerX = (s.pipe.pushX : Int) then
        if s.objEnable then
          (true, { s with pipe.spPtr := s.pipe.spPtr + 1, pipe.sfetchCur := a, pipe.sfetchLeft := spriteFetchDots })
        else spriteCheckLoop n { s with pipe.spPtr := s.pipe.spPtr + 1 }
      else (false, s)

/-- `SpriteCheck()` (R141): whether a sprite fetch starts at the next pixel to drain. -/
def spriteCheck (s : State) : Bool × State := spriteCheckLoop (s.sel.length - s.pipe.spPtr) s

/-- The line of the sprite that LY needs, counted from the bottom if the sprite is flipped vertically (R143). -/
def SpriteAttr.line (a : SpriteAttr) (ly : Byte) : Int :=
  let line := (ly.toNat : Int) - a.y
  if a.yflip then (a.height : Int) - 1 - line else line

/-- The tile that holds a line of the sprite: a 16-line sprite uses `tile & 0xFE` and `tile | 1` (R67, R143). -/
def SpriteAttr.tileFor (a : SpriteAttr) (line : Int) : Byte :=
  if a.height = 16 then (if line < 8 then a.tile &&& 0xFE else a.tile ||| 1) else a.tile

/-- The address of the low bitplane byte of the sprite's line: `0x8000 + 16*t + 2*(line & 7)` (R144). -/
def SpriteAttr.rowAddr (a : SpriteAttr) (ly : Byte) : Addr :=
  let line := a.line ly
  BitVec.ofNat 16 (tileDataBaseUnsigned + 16 * (a.tileFor line).toNat + 2 * (line % 8).toNat)

/-- The colour index of column `c` of the sprite: the bit order is reversed if the sprite is flipped horizontally
(R145). -/
def SpriteAttr.columnColour (a : SpriteAttr) (lo hi : Byte) (c : Nat) : Colour :=
  planeColour lo hi (if a.xflip then c else 7 - c)

/-- Whether a new sprite pixel of OAM index `oam` replaces the slot's content: the slot is blank, or the new index is
strictly lower (R146). -/
def SpritePixel.yieldsTo (old : SpritePixel) (oam : Nat) : Bool :=
  match old with
  | .blank _ => true
  | .pixel _ _ o _ _ => decide (oam < o)

/-- The overlay of one column of the sprite into the sprite FIFO (R146, R147): a column off the screen is skipped, a
covered place is merged, the next place is appended. -/
def overlayColumn (a : SpriteAttr) (lo hi : Byte) (c : Nat) (s : State) : Except Fault State :=
  let tx := a.x + (c : Int)
  if tx < 0 ∨ (screenW : Int) ≤ tx then .ok s
  else
    let new := SpritePixel.pixel (a.columnColour lo hi c) (Palette.ofSprite a.pal) a.oam a.bgPrio tx.toNat
    if tx.toNat < s.pipe.outputX then .error .fifoMisaligned
    else
      let k := tx.toNat - s.pipe.outputX
      match s.pipe.spFifo[k]? with
      | some old =>
        if old.yieldsTo a.oam then .ok { s with pipe.spFifo := s.pipe.spFifo.set k new } else .ok s
      | none =>
        if k = s.pipe.spFifo.length then .ok { s with pipe.spFifo := Fifo.pushBack s.pipe.spFifo new }
        else .error .fifoMisaligned

/-- The overlay of the columns of a list, in order (R146). -/
def overlayColumns (a : SpriteAttr) (lo hi : Byte) : List Nat → State → Except Fault State
  | [], s => .ok s
  | c :: cs, s => do
    let t ← overlayColumn a lo hi c s
    overlayColumns a lo hi cs t

/-- `SpriteFetchComplete()`: the two reads and the overlay of the eight columns (R143 to R146). -/
def spriteFetchComplete (s : State) : Except Fault State := do
  let a := s.pipe.sfetchCur
  let addr := a.rowAddr s.ly
  let lo ← readVram s addr
  let hi ← readVram s (addr + 1)
  overlayColumns a lo hi (List.range 8) s

end Sys2Proof.Machine
end

