-- ==== Sys2Proof/Machine/Fetcher.lean ====
section
/-! DEFINITION. The background and window tile fetcher (spec/43_bg_window_fetcher.md R120 to R134). -/

namespace Sys2Proof.Machine

/-- `FetcherReset()` with the first-tile discard given: `SCX & 7` at Draw entry, 0 at LCD disable (R120). -/
def fetcherReset (discard : BitVec 3) (s : State) : State :=
  { s with drawDots := 0, pipe := { Pipeline.reset with discard := discard, sfetchCur := s.pipe.sfetchCur } }

/-- Where a tile is looked up: the map's base, row and column, and the line in the tile. -/
structure TileCoords where
  base : Nat
  row : Nat
  col : Nat
  line : BitVec 3
deriving DecidableEq, Repr

/-- `WindowCoords()` (R124): the column is `((fetch_x − (WX − 7)) >> 3) & 31` over the integers, floor shift. -/
def windowCoords (s : State) (fetchX : Nat) : TileCoords :=
  { base := tileMapBase s.winMap
    col := ((((fetchX : Int) - ((s.wx.toNat : Int) - 7)) / 8) % 32).toNat
    row := (s.windowLine / 8) % 32
    line := BitVec.ofNat 3 s.windowLine }

/-- `BgCoords()` (R125): the column is `((SCX + fetch_x) >> 3) & 31`, the row that of `(SCY + LY) & 255`. -/
def bgCoords (s : State) (fetchX : Nat) : TileCoords :=
  let v := s.scy + s.ly
  { base := tileMapBase s.bgMap
    col := ((s.scx.toNat + fetchX) / 8) % 32
    row := v.toNat / 8
    line := v.extractLsb' 0 3 }

/-- The tile-map address: "base + row*32 + column" (R64, R123). -/
def TileCoords.mapAddr (t : TileCoords) : Addr := BitVec.ofNat 16 (t.base + t.row * 32 + t.col)

/-- The coordinates `GetTileAction()` uses for a tile that starts at screen x `fetchX` (R123). -/
def tileCoords (s : State) (fetchX : Nat) : TileCoords :=
  if s.pipe.inWindow then windowCoords s fetchX else bgCoords s fetchX

/-- `GetTileAction()` (R123). -/
def getTileAction (s : State) : State :=
  let t := tileCoords s s.pipe.pushX
  { s with pipe.fetchX := s.pipe.pushX, pipe.mapAddr := t.mapAddr, pipe.tileLine := t.line }

/-- The address of a background or window tile's data: "unsigned 0x8000-relative, or signed 0x8800-relative with bias
128" (R63, R126). -/
def tileBase (unsignedMode : Bool) (t : Byte) : Nat :=
  if unsignedMode then tileDataBaseUnsigned + 16 * t.toNat else tileDataBaseSigned + 16 * (t + 128).toNat

/-- `DataLowAction()`: the tile index, the tile data address and the low bitplane byte (R126). -/
def dataLowAction (s : State) : Except Fault State := do
  let t ← readVram s s.pipe.mapAddr
  let a : Addr := BitVec.ofNat 16 (tileBase s.tileData t + 2 * s.pipe.tileLine.toNat)
  let lo ← readVram s a
  return { s with pipe.tileAddr := a, pipe.lo := lo }

/-- `DataHighAction()`: the high bitplane byte (R127). -/
def dataHighAction (s : State) : Except Fault State := do
  let hi ← readVram s (s.pipe.tileAddr + 1)
  return { s with pipe.hi := hi }

/-- The eight colour indices of a tile line, leftmost first: "decode 8 pixels MSB-first" (R62, R129). -/
def tileRow (lo hi : Byte) : List Colour := (List.range 8).map fun j => planeColour lo hi (7 - j)

/-- The run a Push decodes: the eight pixels, less the first `st.discard` of them on the first background tile of the
line (R129, R130). -/
def decodeRun (p : Pipeline) : List Colour :=
  if p.fetchX = 0 ∧ p.inWindow = false then (tileRow p.lo p.hi).drop p.discard.toNat else tileRow p.lo p.hi

/-- `WindowTrigger()`: `in_window = 0`, the window enabled now and at line start, and `push_x >= WX − 7` as a signed
comparison (R131). -/
def windowTrigger (s : State) : Bool :=
  !s.pipe.inWindow && s.winEnable && s.winLineOk && decide ((s.wx.toNat : Int) - 7 ≤ (s.pipe.pushX : Int))

/-- The end of a Push: the run is dropped and the fetcher restarts at GetTile (R129, R134). -/
def restartFetch (s : State) : State :=
  { s with pipe.run := [], pipe.phase := .getTile, pipe.phaseDot := 0 }

/-- The window's start: the latch is set, the run discarded, and a window tile fetched from GetTile (R129, R131). -/
def enterWindow (s : State) : State := restartFetch { s with pipe.inWindow := true }

/-- `DrainOne()` for the colour `c` at the run's front and the rest of the run: one background pixel, and a blank sprite
slot where no sprite pixel stands yet (R132). -/
def drainOne (c : Colour) (rest : List Colour) (s : State) : State :=
  let p := s.pipe
  { s with pipe.run := rest
           pipe.bgFifo := Fifo.pushBack p.bgFifo { color := c, blank := false, pal := .bg }
           pipe.spFifo :=
             if p.outputX + p.spFifo.length ≤ p.pushX then Fifo.pushBack p.spFifo (.blank p.pushX) else p.spFifo
           pipe.pushX := p.pushX + 1 }

/-- The drain loop of `PushStep()`, with the run's length as fuel: before each pixel the window check, then the sprite
check; either halts the drain (R129). -/
def drainLoop : Nat → State → State
  | 0, s => restartFetch s
  | n + 1, s =>
    match s.pipe.run with
    | [] => restartFetch s
    | c :: rest =>
      if s.pipe.pushX < screenW then
        if windowTrigger s then enterWindow s
        else
          match spriteCheck s with
          | (true, t) => t
          | (false, t) => drainLoop n (drainOne c rest t)
      else restartFetch s

/-- The decode of `PushStep()`: only an empty run is decoded; a run a sprite fetch interrupted is resumed (R129). -/
def decodeIfEmpty (s : State) : State :=
  if s.pipe.run = [] then { s with pipe.run := decodeRun s.pipe } else s

/-- `PushStep()` (R129). -/
def pushStep (s : State) : State :=
  let t := decodeIfEmpty s
  drainLoop t.pipe.run.length t

/-- `FetcherStep()` (R122): each of the first four phases acts on its second dot; when Idle completes, the Push is
attempted in the same dot. -/
def fetcherStep (s : State) : Except Fault State :=
  match s.pipe.phase with
  | .push => .ok (pushStep s)
  | .getTile =>
    if s.pipe.phaseDot + 1 < fetchPhaseDots then .ok { s with pipe.phaseDot := s.pipe.phaseDot + 1 }
    else
      let t := getTileAction s
      .ok { t with pipe.phaseDot := 0, pipe.phase := .dataLow }
  | .dataLow =>
    if s.pipe.phaseDot + 1 < fetchPhaseDots then .ok { s with pipe.phaseDot := s.pipe.phaseDot + 1 }
    else do
      let t ← dataLowAction s
      return { t with pipe.phaseDot := 0, pipe.phase := .dataHigh }
  | .dataHigh =>
    if s.pipe.phaseDot + 1 < fetchPhaseDots then .ok { s with pipe.phaseDot := s.pipe.phaseDot + 1 }
    else do
      let t ← dataHighAction s
      return { t with pipe.phaseDot := 0, pipe.phase := .idle }
  | .idle =>
    if s.pipe.phaseDot + 1 < fetchPhaseDots then .ok { s with pipe.phaseDot := s.pipe.phaseDot + 1 }
    else .ok (pushStep { s with pipe.phaseDot := 0, pipe.phase := .push })

end Sys2Proof.Machine
end

