-- ==== Sys2Proof/Machine/Registers.lean ====
section
/-! DEFINITION. The register reads and writes (spec/40_registers.md R71 to R95), with LCD disable (R74) and LCD enable
(R75). Each meaning takes no dots; a read changes nothing but the byte returned to the host (R71). -/

namespace Sys2Proof.Machine

/-- `LcdDisable()` (R74). -/
def lcdDisable (s : State) : State :=
  fetcherReset 0
    { s with engineOn := false, ly := 0, mode := .hblank, lineDot := 0, drawDots := 0, windowLine := 0,
             winLineOk := false, sel := [], scanY := 0, scanX := 0 }

/-- `LcdEnable()` (R75). -/
def lcdEnable (s : State) : State := { s with engineOn := true, ly := 0, lineDot := 0 }

/-- `RD LCDC` (R72). -/
def execRdLcdc (s : State) : Host.Outcome State Fault Refusal := .next (returnByte s.lcdc s)

/-- `WR LCDC, v` (R73): the byte is stored; a change of bit 7 disables or enables the engine at once. -/
def execWrLcdc (v : Byte) (s : State) : Host.Outcome State Fault Refusal :=
  let t := returnNothing { s with lcdc := v }
  if s.lcdEnable = true ∧ v.getLsbD 7 = false then .next (lcdDisable t)
  else if s.lcdEnable = false ∧ v.getLsbD 7 = true then .next (lcdEnable t)
  else .next t

/-- `RD STAT` (R76). -/
def execRdStat (s : State) : Host.Outcome State Fault Refusal := .next (returnByte s.statByte s)

/-- `WR STAT, v` (R77). -/
def execWrStat (v : Byte) (s : State) : Host.Outcome State Fault Refusal :=
  .next (returnNothing (setStatEnables v s))

/-- `RD SCY` (R78). -/
def execRdScy (s : State) : Host.Outcome State Fault Refusal := .next (returnByte s.scy s)

/-- `WR SCY, v` (R79). -/
def execWrScy (v : Byte) (s : State) : Host.Outcome State Fault Refusal := .next (returnNothing { s with scy := v })

/-- `RD SCX` (R80). -/
def execRdScx (s : State) : Host.Outcome State Fault Refusal := .next (returnByte s.scx s)

/-- `WR SCX, v` (R81). -/
def execWrScx (v : Byte) (s : State) : Host.Outcome State Fault Refusal := .next (returnNothing { s with scx := v })

/-- `RD LY` (R82). -/
def execRdLy (s : State) : Host.Outcome State Fault Refusal := .next (returnByte s.ly s)

/-- `WR LY, v` (R83): "writes to LY are ignored". -/
def execWrLy (_v : Byte) (s : State) : Host.Outcome State Fault Refusal := .next (returnNothing s)

/-- `RD LYC` (R84). -/
def execRdLyc (s : State) : Host.Outcome State Fault Refusal := .next (returnByte s.lyc s)

/-- `WR LYC, v` (R85): the LYC flag is not recomputed. -/
def execWrLyc (v : Byte) (s : State) : Host.Outcome State Fault Refusal := .next (returnNothing { s with lyc := v })

/-- `RD BGP` (R86). -/
def execRdBgp (s : State) : Host.Outcome State Fault Refusal := .next (returnByte s.bgp s)

/-- `WR BGP, v` (R87). -/
def execWrBgp (v : Byte) (s : State) : Host.Outcome State Fault Refusal := .next (returnNothing { s with bgp := v })

/-- `RD OBP0` (R88). -/
def execRdObp0 (s : State) : Host.Outcome State Fault Refusal := .next (returnByte s.obp0 s)

/-- `WR OBP0, v` (R89). -/
def execWrObp0 (v : Byte) (s : State) : Host.Outcome State Fault Refusal := .next (returnNothing { s with obp0 := v })

/-- `RD OBP1` (R90). -/
def execRdObp1 (s : State) : Host.Outcome State Fault Refusal := .next (returnByte s.obp1 s)

/-- `WR OBP1, v` (R91). -/
def execWrObp1 (v : Byte) (s : State) : Host.Outcome State Fault Refusal := .next (returnNothing { s with obp1 := v })

/-- `RD WY` (R92). -/
def execRdWy (s : State) : Host.Outcome State Fault Refusal := .next (returnByte s.wy s)

/-- `WR WY, v` (R93). -/
def execWrWy (v : Byte) (s : State) : Host.Outcome State Fault Refusal := .next (returnNothing { s with wy := v })

/-- `RD WX` (R94). -/
def execRdWx (s : State) : Host.Outcome State Fault Refusal := .next (returnByte s.wx s)

/-- `WR WX, v` (R95). -/
def execWrWx (v : Byte) (s : State) : Host.Outcome State Fault Refusal := .next (returnNothing { s with wx := v })

end Sys2Proof.Machine
end

