-- ==== Sys2Proof/Machine/Mixer.lean ====
section
/-! DEFINITION. The pixel mixer, the palette mapping and the frame-buffer writer (spec/45_fifo_mixer.md R151 to R159). -/

namespace Sys2Proof.Machine

/-- `Mix(bg, sp)`, the priority arbiter; `none` is BLANK. `bgEnable` is `LCDC.BG_WIN_ENABLE` (R153, R154). -/
def mix (bgEnable : Bool) (bg : BgPixel) (sp : SpritePixel) : Option (Colour × Palette) :=
  let bgb := bg.blank || !bgEnable
  match sp with
  | .blank _ => if bgb then none else some (bg.color, .bg)
  | .pixel color pal _ bgPrio _ =>
    if bgb then some (color, pal)
    else if color = 0 ∨ (bgPrio = true ∧ bg.color ≠ 0) then some (bg.color, .bg)
    else some (color, pal)

/-- `Sample(color, pal)`, and `Sample(BLANK) = 0xFF` (R157, R158). -/
def sample (s : State) : Option (Colour × Palette) → Byte
  | none => 0xFF
  | some (color, pal) => sampleTable (shadeOf (s.paletteReg pal) color)

/-- `MixerDot()` (R152): one pixel pair is popped, mixed and written, and the output x advances. -/
def mixerDot (s : State) : Except Fault State :=
  match s.pipe.bgFifo with
  | [] => .ok s
  | bg :: bgs =>
    match s.pipe.spFifo with
    | [] => .error .fifoMisaligned
    | sp :: sps => do
      let t ← fbWrite s (s.ly.toNat * screenW + s.pipe.outputX) (sample s (mix s.bgWinEnable bg sp))
      return { t with pipe.bgFifo := bgs, pipe.spFifo := sps, pipe.outputX := s.pipe.outputX + 1 }

end Sys2Proof.Machine
end

