-- ==== Sys2Proof/Machine/OamScan.lean ====
section
/-! DEFINITION. The OAM line scanner (spec/42_oam_scanner.md R112 to R117). -/

namespace Sys2Proof.Machine

/-- `OamScanStart()` (R113). -/
def oamScanStart (s : State) : State := { s with sel := [], scanY := 0, scanX := 0 }

/-- Whether a sprite record covers the current line: "y <= LY and LY < y + height" (R115). -/
def SpriteAttr.covers (a : SpriteAttr) (ly : Byte) : Bool :=
  decide (a.y ≤ (ly.toNat : Int)) && decide ((ly.toNat : Int) < a.y + (a.height : Int))

/-- `Evaluate(i, ry, rx, tile, attr)`: the entry is selected "iff selected_count < 10 and real_y ≤ LY < real_y + height"
(R115). -/
def evaluateSprite (a : SpriteAttr) (s : State) : State :=
  if s.sel.length < maxSpritesPerLine ∧ a.covers s.ly = true then { s with sel := Fifo.pushBack s.sel a } else s

/-- `OamScanDot(d)`: the y and x bytes on an even dot, the tile and attribute bytes and the evaluation on an odd one
(R114). -/
def oamScanDot (d : Nat) (s : State) : Except Fault State :=
  let i := d / 2
  if d % 2 = 0 then do
    let ry ← readOam s (4 * i)
    let rx ← readOam s (4 * i + 1)
    return { s with scanY := ry, scanX := rx }
  else do
    let tile ← readOam s (4 * i + 2)
    let attr ← readOam s (4 * i + 3)
    return evaluateSprite (spriteOf i s.scanY s.scanX tile attr s.objHeight) s

/-- The order of the selected sprites: "ascending signed `x`, ties by ascending `oam`" (R117). -/
def SpriteAttr.before (a b : SpriteAttr) : Bool :=
  decide (a.x < b.x) || (decide (a.x = b.x) && decide (a.oam ≤ b.oam))

/-- A sprite put into its place in a sorted list. -/
def insertSprite (a : SpriteAttr) : List SpriteAttr → List SpriteAttr
  | [] => [a]
  | b :: l => if a.before b then a :: b :: l else b :: insertSprite a l

/-- The list sorted by `SpriteAttr.before`. -/
def sortSprites : List SpriteAttr → List SpriteAttr
  | [] => []
  | a :: l => insertSprite a (sortSprites l)

/-- `SortSelected()` (R117). -/
def sortSelected (s : State) : State := { s with sel := sortSprites s.sel }

end Sys2Proof.Machine
end

