-- ==== Sys2Proof/Machine/ModeMachine.lean ====
section
/-! DEFINITION. The dot and the mode state machine (spec/41_mode_machine.md R98 to R108; the pipeline's dot
spec/43_bg_window_fetcher.md R121). -/

namespace Sys2Proof.Machine

/-- `LineStart()`, step 1: the LYC compare and its request (R99). -/
def lycCompare (s : State) : State :=
  requestIf (decide (s.ly = s.lyc) && s.statLycInt) .stat (setLycFlag s)

/-- `LineStart()`, step 2, a visible line: the OAM scan begins, and the window latch is taken (R100). -/
def enterOamScan (s : State) : State :=
  let t := oamScanStart (requestIf s.statOamInt .stat (setMode .oamScan s))
  { t with winLineOk := s.winEnable && decide (s.wy.toNat ≤ s.ly.toNat) }

/-- `LineStart()`, step 2, line 144: VBlank begins, and the frame is handed over (R102). -/
def enterVblank (s : State) : State :=
  presentFrame (requestIf s.statVblankInt .stat (requestInterrupt .vblank (setMode .vblank s)))

/-- `LineStart()` (R99 to R102). -/
def lineStart (s : State) : State :=
  let t := lycCompare s
  if t.ly.toNat < screenH then enterOamScan t else if t.ly.toNat = screenH then enterVblank t else t

/-- `EndOamScan()` (R103). -/
def endOamScan (s : State) : State := fetcherReset (s.scx.extractLsb' 0 3) (setMode .draw (sortSelected s))

/-- The OAM-scan mode's dot: the scan, and its end on line dot 79 (R98, R103). -/
def oamDot (s : State) : Except Fault State := do
  let t ← oamScanDot s.lineDot s
  return if s.lineDot = oamScanDots - 1 then endOamScan t else t

/-- One dot of a sprite fetch that is stalling the pipeline (R121, R142). -/
def spriteStallDot (s : State) : Except Fault State :=
  let t := { s with pipe.sfetchLeft := s.pipe.sfetchLeft - 1 }
  if t.pipe.sfetchLeft = 0 then spriteFetchComplete t else .ok t

/-- `PipelineDot()` (R121): nothing once 160 pixels are out; a sprite fetch stalls the fetcher and the mixer; otherwise
the fetcher steps, and the mixer does unless a sprite fetch began in this dot. -/
def pipelineDot (s : State) : Except Fault State :=
  if s.pipe.outputX = screenW then .ok s
  else if 0 < s.pipe.sfetchLeft then spriteStallDot s
  else do
    let t ← fetcherStep s
    if 0 < t.pipe.sfetchLeft then return { t with pipe.sfetchLeft := t.pipe.sfetchLeft - 1 }
    else mixerDot t

/-- The end of Draw: 160 pixels are out and at least `DRAW_MIN_DOTS` dots have passed (R104). -/
def endDrawIfDone (s : State) : State :=
  if s.pipe.outputX = screenW ∧ drawMinDots ≤ s.drawDots then requestIf s.statHblankInt .stat (setMode .hblank s)
  else s

/-- `DrawDot()` (R104). -/
def drawDot (s : State) : Except Fault State := do
  let t ← pipelineDot s
  return endDrawIfDone { t with drawDots := t.drawDots + 1 }

/-- The mode handler of a dot (R98, R105). -/
def modeDot (s : State) : Except Fault State :=
  match s.mode with
  | .oamScan => oamDot s
  | .draw => drawDot s
  | .hblank => .ok s
  | .vblank => .ok s

/-- `EndOfLine()` (R108): the window-line counter, the next line, and the wrap from 153 to 0. -/
def endOfLine (s : State) : State :=
  let w := if s.ly.toNat < screenH ∧ s.winLineOk = true then s.windowLine + 1 else s.windowLine
  if s.ly.toNat + 1 = linesPerFrame then { s with ly := 0, windowLine := 0 }
  else { s with ly := s.ly + 1, windowLine := w }

/-- `EndOfDot()` (R106), with the fault of a Draw still running at the end of the line (R107). -/
def endOfDot (s : State) : Except Fault State :=
  if s.lineDot + 1 = dotsPerLine then
    if s.mode = .draw then .error .drawOverrun else .ok (endOfLine { s with lineDot := 0 })
  else .ok { s with lineDot := s.lineDot + 1 }

/-- The line start of a dot: it runs on line dot 0 only (R98). -/
def lineStartIfDue (s : State) : State := if s.lineDot = 0 then lineStart s else s

/-- `DotStep()` (R98): nothing while the engine is off; else the line start, the mode handler and the end of the dot. -/
def dotStep (s : State) : Except Fault State :=
  if s.engineOn then do
    let t ← modeDot (lineStartIfDue s)
    endOfDot t
  else .ok s

/-- `n` dots, stopping at the first fault (R97). -/
def runDots : Nat → State → Except Fault State
  | 0, s => .ok s
  | n + 1, s => do
    let t ← dotStep s
    runDots n t

end Sys2Proof.Machine
end

