-- ==== Sys2Proof/Machine/Tick.lean ====
section
/-! DEFINITION. The Tick operation (spec/41_mode_machine.md R97). -/

namespace Sys2Proof.Machine

/-- The outcome of a run of dots: a fault of a dot is a fault of the operation (R107). -/
def outcomeOf : Except Fault State → Host.Outcome State Fault Refusal
  | .ok t => .next t
  | .error f => .fault f

/-- `TICK m`: "repeat 4*m times: DotStep()" (R97). It returns nothing to the host. -/
def execTick (m : Nat) (s : State) : Host.Outcome State Fault Refusal :=
  outcomeOf (runDots (dotsPerMcycle * m) (returnNothing s))

end Sys2Proof.Machine
end

