-- ==== Sys2Proof/Machine/Dispatch.lean ====
section
/-! DEFINITION. One arm per host operation. -/

namespace Sys2Proof.Machine

/-- The meaning of a host operation, one arm per constructor. -/
def exec (i : Instr) (s : State) : Host.Outcome State Fault Refusal :=
  match i with
  | .rdLcdc => Sys2Proof.Machine.execRdLcdc s
  | .wrLcdc v => Sys2Proof.Machine.execWrLcdc v s
  | .rdStat => Sys2Proof.Machine.execRdStat s
  | .wrStat v => Sys2Proof.Machine.execWrStat v s
  | .rdScy => Sys2Proof.Machine.execRdScy s
  | .wrScy v => Sys2Proof.Machine.execWrScy v s
  | .rdScx => Sys2Proof.Machine.execRdScx s
  | .wrScx v => Sys2Proof.Machine.execWrScx v s
  | .rdLy => Sys2Proof.Machine.execRdLy s
  | .wrLy v => Sys2Proof.Machine.execWrLy v s
  | .rdLyc => Sys2Proof.Machine.execRdLyc s
  | .wrLyc v => Sys2Proof.Machine.execWrLyc v s
  | .rdBgp => Sys2Proof.Machine.execRdBgp s
  | .wrBgp v => Sys2Proof.Machine.execWrBgp v s
  | .rdObp0 => Sys2Proof.Machine.execRdObp0 s
  | .wrObp0 v => Sys2Proof.Machine.execWrObp0 v s
  | .rdObp1 => Sys2Proof.Machine.execRdObp1 s
  | .wrObp1 v => Sys2Proof.Machine.execWrObp1 v s
  | .rdWy => Sys2Proof.Machine.execRdWy s
  | .wrWy v => Sys2Proof.Machine.execWrWy v s
  | .rdWx => Sys2Proof.Machine.execRdWx s
  | .wrWx v => Sys2Proof.Machine.execWrWx v s
  | .tick m => Sys2Proof.Machine.execTick m s

end Sys2Proof.Machine
end

