-- ==== Sys2Proof/Machine/Step.lean ====
section
/-! DEFINITION. One step of the machine: the host's next action is taken from `pending` and performed (R6, R50, R71;
log entry 1). The block fetches no instructions (R14); its program is the host's list of actions. -/

namespace Sys2Proof.Machine

/-- One action of the host: a word is decoded and run, or refused by name (R60); VRAM, OAM and the interrupt-flag
register are the host's to write between operations (R41, R50). -/
def hostStep (a : HostAction) (s : State) : Host.Outcome State Fault Refusal :=
  match a with
  | .word w =>
    match decode w with
    | .ok i => exec i s
    | .error e => .refused (.reservedWord e)
  | .writeVram off v => .next (hostWriteVram s off v)
  | .writeOam off v => .next (hostWriteOam s off v)
  | .writeInterruptFlag v => .next (hostWriteInterruptFlag s v)

/-- One step: the host's oldest pending action. With none pending nothing happens: the block "steps only inside `Tick`"
(R6). -/
def step (s : State) : Host.Outcome State Fault Refusal :=
  match s.pending with
  | [] => .next s
  | a :: rest => hostStep a { s with pending := rest }

/-- `s` with a table word placed as the host's next action, before whatever is pending (log entry 1). -/
def State.withFetchWord (s : State) (nbits w : Nat) : State :=
  { s with pending := .word (BitVec.ofNat 26 (w % 2 ^ nbits)) :: s.pending }

end Sys2Proof.Machine
end

