-- ==== Sys2Proof/Safety.lean ====
section
/-! DEFINITION. What counts as a legal state of the machine, in the terms the statements use: the schedule's position
(R14, R109), the scanner's list (R29, R30), the pipeline in Draw with its FIFO alignment (R36) and its dot budget
(R185), and the canonical form of the memories. The functions after them say what a line shows, straight from the data
formats of spec/30_encoding.md. -/

namespace Sys2Proof.Machine

/-! ### The pipeline in Draw -/

/-- The fetcher phase's number (R31). -/
def Phase.index : Phase → Nat
  | .getTile => 0
  | .dataLow => 1
  | .dataHigh => 2
  | .idle => 3
  | .push => 4

/-- The dots of the current tile fetch already done: 0..7 before a Push is attempted (R135). -/
def Pipeline.elapsed (p : Pipeline) : Nat := 2 * p.phase.index + p.phaseDot

/-- FIFO alignment (R36): element `k` of either FIFO stands for screen x `output_x + k`; the background FIFO ends at
`push_x`, the sprite FIFO at or after it and on the screen. -/
structure FifoAligned (p : Pipeline) : Prop where
  push_le : p.pushX ≤ screenW
  bg_length : p.outputX + p.bgFifo.length = p.pushX
  bg_le_sp : p.bgFifo.length ≤ p.spFifo.length
  sp_le : p.outputX + p.spFifo.length ≤ screenW
  sp_x : p.spFifo.map SpritePixel.x = List.range' p.outputX p.spFifo.length

/-- A sprite pixel as the overlay makes it: selector 1 or 2, an OAM index below 40 (R33). -/
def SpritePixel.legal : SpritePixel → Prop
  | .blank _ => True
  | .pixel _ pal oam _ _ => pal ≠ .bg ∧ oam < oamEntries

/-- The fetcher's own state (R31, R122, R129): between two dots a run is held only in the Push phase, which only a
sprite fetch can leave unfinished; the FIFO holds no more than the fetch's progress leaves of a tile. -/
structure FetcherLegal (p : Pipeline) : Prop where
  phaseDot_lt : p.phaseDot < fetchPhaseDots
  push_phaseDot : p.phase = .push → p.phaseDot = 0
  fetch_le : p.fetchX ≤ screenW
  run_nil : p.phase ≠ .push → p.run = [] ∧ p.sfetchLeft = 0
  run_held : p.phase = .push → p.run ≠ [] ∧ p.pushX < screenW ∧ p.bgFifo.length + p.run.length ≤ 8
  fifo_le : p.phase ≠ .push → p.bgFifo.length + p.elapsed ≤ 7
  fetch_eq : p.phase = .dataLow ∨ p.phase = .dataHigh ∨ p.phase = .idle → p.fetchX = p.pushX
  map_range : p.phase = .dataLow → 0x9800 ≤ p.mapAddr.toNat ∧ p.mapAddr.toNat ≤ 0x9FFF
  tile_range : p.phase = .dataHigh → 0x8000 ≤ p.tileAddr.toNat ∧ p.tileAddr.toNat ≤ 0x97FE
  bg_pixels : ∀ q ∈ p.bgFifo, q.blank = false ∧ q.pal = .bg
  sp_pixels : ∀ q ∈ p.spFifo, q.legal

/-- A selected sprite's record is in the ranges of R30. -/
structure SpriteAttr.Legal (a : SpriteAttr) : Prop where
  y_range : -16 ≤ a.y ∧ a.y ≤ 239
  x_range : -8 ≤ a.x ∧ a.x ≤ 247
  oam_lt : a.oam < oamEntries
  height_eq : a.height = 8 ∨ a.height = 16

/-- The sprite fetch and the list it walks (R35, R140, R141): no sprite not yet considered lies left of the next pixel
to drain, and the sprite being fetched is one of the list and starts there. -/
structure SpritesLegal (s : State) : Prop where
  ptr_le : s.pipe.spPtr ≤ s.sel.length
  left_lt : s.pipe.sfetchLeft < spriteFetchDots
  sorted : s.sel.Pairwise fun a b => a.x ≤ b.x
  not_missed : ∀ a ∈ s.sel.drop s.pipe.spPtr, (s.pipe.pushX : Int) ≤ a.triggerX
  fetching : 0 < s.pipe.sfetchLeft →
    s.pipe.sfetchCur ∈ s.sel ∧ s.pipe.sfetchCur.triggerX = (s.pipe.pushX : Int)

/-- A bound on the dots of Draw that the 160 pixels still need (R184, R185): the fetches of the sprites not yet
considered and of the one in progress, the rest of the tile fetches, the first tile's discard, and the 8 dots a window
trigger can cost while it has not happened. -/
def drawBudget (s : State) : Nat :=
  let p := s.pipe
  p.sfetchLeft + spriteFetchDots * (s.sel.length - p.spPtr) +
    (if p.pushX = screenW then screenW - p.outputX
     else
       (if p.phase = .push then 168 - p.pushX - p.run.length
        else 167 - p.pushX - p.elapsed + (if p.pushX = 0 ∧ p.inWindow = false then p.discard.toNat else 0)) +
       (if p.inWindow then 0 else 8))

/-- The pipeline in Draw mode. -/
structure DrawLegal (s : State) : Prop where
  fifos : FifoAligned s.pipe
  fetcher : FetcherLegal s.pipe
  sprites : SpritesLegal s
  budget : s.pipe.outputX < screenW → s.drawDots + drawBudget s ≤ 242
  waiting : s.pipe.outputX = screenW → s.drawDots < drawMinDots

/-! ### The schedule -/

/-- The scanner's list: at most ten records, each in range (R29, R30). -/
structure SelLegal (s : State) : Prop where
  length_le : s.sel.length ≤ maxSpritesPerLine
  records : ∀ a ∈ s.sel, a.Legal

/-- What the mode says of the position in the frame (R109): between two dots, at line dot 0 the mode is still that of
the line before. -/
def ModeLegal (s : State) : Prop :=
  match s.mode with
  | .oamScan =>
    s.ly.toNat < screenH ∧ 0 < s.lineDot ∧ s.lineDot < oamScanDots ∧ (∀ a ∈ s.sel, a.covers s.ly = true) ∧
      ∀ a ∈ s.sel, a.oam < s.lineDot / 2
  | .draw =>
    s.ly.toNat < screenH ∧ s.lineDot = oamScanDots + s.drawDots ∧ (∀ a ∈ s.sel, a.covers s.ly = true) ∧ DrawLegal s
  | .hblank =>
    (s.lineDot = 0 ∧ s.ly.toNat ≤ screenH) ∨ (s.ly.toNat < screenH ∧ oamScanDots + drawMinDots ≤ s.lineDot)
  | .vblank =>
    (screenH ≤ s.ly.toNat ∧ (s.ly.toNat = screenH → 0 < s.lineDot)) ∨ (s.ly.toNat = 0 ∧ s.lineDot = 0)

/-- The engine follows `LCDC.ENABLE` (R25), and while it is off the block stands at line 0 in mode 0 (R74, R172). -/
structure EngineLegal (s : State) : Prop where
  follows : s.engineOn = s.lcdEnable
  off : s.engineOn = false → s.ly = 0 ∧ s.mode = .hblank ∧ s.lineDot = 0 ∧ s.windowLine = 0

/-- The memories are in canonical form (log entry 2 for what an unlisted address reads as). -/
structure MemoryLegal (s : State) : Prop where
  vram : Memory.wf 0x8000 0x9FFF s.vram
  oam : Memory.wf 0 159 s.oam
  fb : FrameBuffer.wf s.fb
  presented : ∀ f ∈ s.presented, FrameBuffer.wf f

/-- The invariant of the machine: every step keeps it, and no step from it faults. -/
structure Inv (s : State) : Prop where
  ly_lt : s.ly.toNat < linesPerFrame
  dot_lt : s.lineDot < dotsPerLine
  window_le : s.windowLine ≤ s.ly.toNat ∧ s.windowLine ≤ screenH
  engine : EngineLegal s
  sel : SelLegal s
  mode : ModeLegal s
  memory : MemoryLegal s

/-- The dots of one frame: 154 lines of 456 dots (R8). -/
def dotsPerFrame : Nat := linesPerFrame * dotsPerLine

/-- The position in the frame, in dots from line 0, line dot 0 (R14). -/
def framePos (s : State) : Nat := s.ly.toNat * dotsPerLine + s.lineDot

/-! ### What a line shows -/

/-- The record of OAM entry `i`, with the height the object-size bit selects (R44, R65, R66, R115). -/
def oamEntry (s : State) (i : Nat) : SpriteAttr :=
  spriteOf i (Memory.read s.oam (4 * i)) (Memory.read s.oam (4 * i + 1)) (Memory.read s.oam (4 * i + 2))
    (Memory.read s.oam (4 * i + 3)) s.objHeight

/-- The entries that cover the current line, in table order, and of them the first ten (R116, R118). -/
def qualifying (s : State) : List SpriteAttr :=
  (((List.range oamEntries).map (oamEntry s)).filter fun a => a.covers s.ly).take maxSpritesPerLine

/-- The colour index of pixel (`px`, `py`) of the tile map at `base`, `px` and `py` taken inside the 256 × 256 plane
(R62, R63, R64). -/
def mapColour (s : State) (base px py : Nat) : Colour :=
  let t := Memory.read s.vram (base + py / 8 * 32 + px / 8)
  let a := tileBase s.tileData t + 2 * (py % 8)
  planeColour (Memory.read s.vram a) (Memory.read s.vram (a + 1)) (7 - px % 8)

/-- The background's colour index at screen x of the current line (R18, R125). -/
def bgColourAt (s : State) (x : Nat) : Colour :=
  mapColour s (tileMapBase s.bgMap) ((s.scx.toNat + x) % 256) ((s.scy.toNat + s.ly.toNat) % 256)

/-- The first screen x of the window on a line where it starts: `max(WX − 7, 0)` (R22, R131). -/
def windowStart (s : State) : Nat := s.wx.toNat - 7

/-- The window's colour index at screen x of the current line, `windowStart ≤ x`: window column
`x − (WX − 7)`, or the tile-aligned column of R124 where WX < 7 (R124, R131; spec decision D19). -/
def windowColourAt (s : State) (x : Nat) : Colour :=
  mapColour s (tileMapBase s.winMap) ((x - windowStart s) % 256) (s.windowLine % 256)

/-- The colour index under the sprites at screen x: the window's from its start on where the line's window latch and the
window enable are set, else the background's (R100, R131). -/
def layerColourAt (s : State) (x : Nat) : Colour :=
  if s.winEnable = true ∧ s.wy.toNat ≤ s.ly.toNat ∧ windowStart s ≤ x then windowColourAt s x else bgColourAt s x

/-- Of a list of sprites, those with a column at screen x (R145). -/
def spritesAt (l : List SpriteAttr) (x : Nat) : List SpriteAttr :=
  l.filter fun a => decide (a.x ≤ (x : Int)) && decide ((x : Int) < a.x + 8)

/-- The sprite of a list with the lowest OAM index (R148: "the result at each column is the pixel of the lowest-oam
sprite covering that column"). -/
def lowestOam : List SpriteAttr → Option SpriteAttr
  | [] => none
  | a :: l =>
    match lowestOam l with
    | none => some a
    | some b => if a.oam ≤ b.oam then some a else some b

/-- The pixel a sprite shows at screen x on the current line (R143 to R146). -/
def spritePixelAt (s : State) (a : SpriteAttr) (x : Nat) : SpritePixel :=
  let addr := a.rowAddr s.ly
  .pixel (a.columnColour (Memory.read s.vram addr.toNat) (Memory.read s.vram (addr.toNat + 1)) ((x : Int) - a.x).toNat)
    (Palette.ofSprite a.pal) a.oam a.bgPrio x

/-- The sprite layer at screen x of the current line: the lowest-oam sprite of the ten selected ones that covers x, or
a blank slot; blank everywhere while the object-enable bit is 0 (R141, R148). -/
def spriteLayerAt (s : State) (x : Nat) : SpritePixel :=
  if s.objEnable then
    match lowestOam (spritesAt (qualifying s) x) with
    | some a => spritePixelAt s a x
    | none => .blank x
  else .blank x

/-- The sample at screen x of the current line: the two layers mixed and mapped (R153, R157). -/
def sampleAt (s : State) (x : Nat) : Byte :=
  sample s (mix s.bgWinEnable { color := layerColourAt s x, blank := false, pal := .bg } (spriteLayerAt s x))

end Sys2Proof.Machine
end

