-- ==== Sys2Proof/Certificates/Slice0/Obligations.lean ====
section
/-! DEFINITION. The statements about the model, each with the rule of the spec it formalises. A statement about a next
state says that the operation, or the dot, answers it. -/

open Sys2Proof Sys2Proof.Machine

/-! ### Encoding (spec/30_encoding.md) -/

/-- No operand is lost in the host-operation word: the word of a well-formed operation decodes to that operation, for
every operation and every operand its field admits (R58, R69, R70). The spec marks as its own: the word layout is
decision D1 (log entry 10). -/
def Obligations.DecodeOfEncode : Prop :=
  ∀ i : Instr, i.wellFormed = true → decode (encode i) = .ok i

/-- Each word has one meaning: a word that decodes is the word of what it decodes to, which is well formed (R70). The
spec marks as its own: the word layout is decision D1 (log entry 10). -/
def Obligations.EncodeOfDecode : Prop :=
  ∀ (w : HostWord) (i : Instr), decode w = .ok i → i.wellFormed = true ∧ encode i = w

/-- R70: the three fields are bits 25:24, 23:8 and 7:0 of the word; which word is which Tick, read or write; and a
word decodes exactly if it matches a row of the opcode table, to the operation of that row, the rows being disjoint.
The spec marks as its own: the word layout is decision D1 (log entry 10). -/
def Obligations.DecodeReadsFieldsAndRows : Prop :=
  (∀ (w : HostWord) (m : Nat), decode w = .ok (.tick m) ↔
    w.toNat / 2 ^ 24 = 2 ∧ w.toNat / 2 ^ 8 % 2 ^ 16 = 0 ∧ m = w.toNat % 2 ^ 8) ∧
  (∀ (w : HostWord) (r : Reg), decode w = .ok (.rd r) ↔
    w.toNat / 2 ^ 24 = 0 ∧ w.toNat / 2 ^ 8 % 2 ^ 16 = r.addr.toNat ∧ w.toNat % 2 ^ 8 = 0) ∧
  (∀ (w : HostWord) (r : Reg) (v : Byte), decode w = .ok (.wr r v) ↔
    w.toNat / 2 ^ 24 = 1 ∧ w.toNat / 2 ^ 8 % 2 ^ 16 = r.addr.toNat ∧ v.toNat = w.toNat % 2 ^ 8) ∧
  (∀ (w : HostWord) (i : Instr), decode w = .ok i → w &&& i.rowMask = i.rowMatch) ∧
  (∀ (w : HostWord) (i : Instr), w &&& i.rowMask = i.rowMatch →
    ∃ j, decode w = .ok j ∧ j.rowMask = i.rowMask ∧ j.rowMatch = i.rowMatch)

/-- R60: the four kinds of word without meaning are refused by the decoder, and a step refuses them and does nothing
else; a write to LY is none of them. The spec marks as its own: the refusal is decision D40 (log entry 10). -/
def Obligations.ReservedWordsRefused : Prop :=
  (∀ w : HostWord, w.toNat / 2 ^ 24 = 3 → ∃ e, decode w = .error e) ∧
  (∀ w : HostWord, w.toNat / 2 ^ 24 < 2 →
    w.toNat / 2 ^ 8 % 2 ^ 16 ∉ [0xFF40, 0xFF41, 0xFF42, 0xFF43, 0xFF44, 0xFF45, 0xFF47, 0xFF48, 0xFF49, 0xFF4A, 0xFF4B] →
    ∃ e, decode w = .error e) ∧
  (∀ w : HostWord, w.toNat / 2 ^ 24 = 0 → w.toNat % 2 ^ 8 ≠ 0 → ∃ e, decode w = .error e) ∧
  (∀ w : HostWord, w.toNat / 2 ^ 24 = 2 → w.toNat / 2 ^ 8 % 2 ^ 16 ≠ 0 → ∃ e, decode w = .error e) ∧
  (∀ v : Byte, decode (0b01#2 ++ 0xFF44#16 ++ v) = .ok (.wrLy v)) ∧
  (∀ (s : State) (w : HostWord) (rest : List HostAction) (e : DecodeError), s.pending = .word w :: rest →
    decode w = .error e → step s = .refused (.reservedWord e))

/-- R59: the address of each register, in the words of its read and of its writes; with the words of vectors E1 to E14
of spec/95_test_vectors.md. The spec marks as its own: the addresses are decision D2, from general knowledge (log
entry 10). -/
def Obligations.RegisterAddressMap : Prop :=
  decode 0x0FF4000#26 = .ok .rdLcdc ∧ decode 0x0FF4100#26 = .ok .rdStat ∧ decode 0x0FF4200#26 = .ok .rdScy ∧
  decode 0x0FF4300#26 = .ok .rdScx ∧ decode 0x0FF4400#26 = .ok .rdLy ∧ decode 0x0FF4500#26 = .ok .rdLyc ∧
  decode 0x0FF4700#26 = .ok .rdBgp ∧ decode 0x0FF4800#26 = .ok .rdObp0 ∧ decode 0x0FF4900#26 = .ok .rdObp1 ∧
  decode 0x0FF4A00#26 = .ok .rdWy ∧ decode 0x0FF4B00#26 = .ok .rdWx ∧
  (∀ v : Byte, decode (0b01#2 ++ 0xFF40#16 ++ v) = .ok (.wrLcdc v) ∧ decode (0b01#2 ++ 0xFF41#16 ++ v) = .ok (.wrStat v) ∧
    decode (0b01#2 ++ 0xFF42#16 ++ v) = .ok (.wrScy v) ∧ decode (0b01#2 ++ 0xFF43#16 ++ v) = .ok (.wrScx v) ∧
    decode (0b01#2 ++ 0xFF44#16 ++ v) = .ok (.wrLy v) ∧ decode (0b01#2 ++ 0xFF45#16 ++ v) = .ok (.wrLyc v) ∧
    decode (0b01#2 ++ 0xFF47#16 ++ v) = .ok (.wrBgp v) ∧ decode (0b01#2 ++ 0xFF48#16 ++ v) = .ok (.wrObp0 v) ∧
    decode (0b01#2 ++ 0xFF49#16 ++ v) = .ok (.wrObp1 v) ∧ decode (0b01#2 ++ 0xFF4A#16 ++ v) = .ok (.wrWy v) ∧
    decode (0b01#2 ++ 0xFF4B#16 ++ v) = .ok (.wrWx v)) ∧
  decode 0x1FF4091#26 = .ok (.wrLcdc 0x91) ∧ decode 0x1FF4455#26 = .ok (.wrLy 0x55) ∧
  decode 0x2000072#26 = .ok (.tick 114) ∧ decode 0x2000000#26 = .ok (.tick 0) ∧ decode 0x20000FF#26 = .ok (.tick 255) ∧
  (∀ w ∈ [0x3FF4000#26, 0x0FF4001#26, 0x2FF4000#26, 0x1FF4600#26, 0x0FF4600#26, 0x1FF4C00#26, 0x1801000#26],
    ∀ i, decode w ≠ .ok i)

/-- One step of the machine is the meaning of the decoded instruction on the state with the host's action taken off
`pending`; `withFetchWord` makes a word that action; with no action pending a step changes nothing. That the host's
actions stand in `pending`, and what a step without one does, is the model's choice (log entry 1). -/
def Obligations.StepRunsDecodedInstruction : Prop :=
  (∀ (s : State) (w : HostWord) (rest : List HostAction) (i : Instr), s.pending = .word w :: rest → decode w = .ok i →
    step s = exec i { s with pending := rest }) ∧
  (∀ (s : State) (i : Instr), i.wellFormed = true →
    step (s.withFetchWord 26 (encode i).toNat) = exec i s ∧ step (s.withFetchWord 32 (encode i).toNat) = exec i s) ∧
  (∀ s : State, s.pending = [] → step s = .next s)

/-- R69, the pseudo-instructions: running the expansion of `TICK m` word by word is `TICK m` of the whole count, each
of its words is well formed, and `DOTS`, `LINE` and `FRAME` expand as the rule says. That `exec` gives a Tick of more
than 255 a meaning is the model's choice (log entry 14). The spec marks as its own: the syntax is decision D41 (log
entry 10). -/
def Obligations.PseudoExpansionRunsTheCount : Prop :=
  (∀ (m : Nat) (s : State),
    (Pseudo.expandTick m).foldl
      (fun o i => match o with | .next t => exec i t | .fault f => .fault f | .refused r => .refused r) (.next s) =
      exec (.tick m) s) ∧
  (∀ m, ∀ i ∈ Pseudo.expandTick m, i.wellFormed = true) ∧
  (∀ n, Pseudo.expand (.dots (4 * n)) = some (Pseudo.expandTick n)) ∧
  Pseudo.expand .line = some [.tick 114] ∧
  Pseudo.expand .frame = some (List.replicate 68 (.tick 255) ++ [.tick 216])

/-! ### Register operations (spec/40_registers.md) -/

/-- R72, R78, R80, R84, R86, R88, R90, R92, R94: the read of a plain register completes from every state, returns the
register and changes nothing else; its word; and after a write of `v` it returns `v`. -/
def Obligations.PlainRegisterReads : Prop :=
  (encode .rdLcdc = 0b00#2 ++ 0xFF40#16 ++ 0#8 ∧ encode .rdScy = 0b00#2 ++ 0xFF42#16 ++ 0#8 ∧
    encode .rdScx = 0b00#2 ++ 0xFF43#16 ++ 0#8 ∧ encode .rdLyc = 0b00#2 ++ 0xFF45#16 ++ 0#8 ∧
    encode .rdBgp = 0b00#2 ++ 0xFF47#16 ++ 0#8 ∧ encode .rdObp0 = 0b00#2 ++ 0xFF48#16 ++ 0#8 ∧
    encode .rdObp1 = 0b00#2 ++ 0xFF49#16 ++ 0#8 ∧ encode .rdWy = 0b00#2 ++ 0xFF4A#16 ++ 0#8 ∧
    encode .rdWx = 0b00#2 ++ 0xFF4B#16 ++ 0#8) ∧
  (∀ s : State,
    exec .rdLcdc s = .next { s with returned := some s.lcdc } ∧ exec .rdScy s = .next { s with returned := some s.scy } ∧
    exec .rdScx s = .next { s with returned := some s.scx } ∧ exec .rdLyc s = .next { s with returned := some s.lyc } ∧
    exec .rdBgp s = .next { s with returned := some s.bgp } ∧ exec .rdObp0 s = .next { s with returned := some s.obp0 } ∧
    exec .rdObp1 s = .next { s with returned := some s.obp1 } ∧ exec .rdWy s = .next { s with returned := some s.wy } ∧
    exec .rdWx s = .next { s with returned := some s.wx }) ∧
  (∀ (s t : State) (v : Byte),
    (exec (.wrLcdc v) s = .next t → exec .rdLcdc t = .next { t with returned := some v }) ∧
    (exec (.wrScy v) s = .next t → exec .rdScy t = .next { t with returned := some v }) ∧
    (exec (.wrScx v) s = .next t → exec .rdScx t = .next { t with returned := some v }) ∧
    (exec (.wrLyc v) s = .next t → exec .rdLyc t = .next { t with returned := some v }) ∧
    (exec (.wrBgp v) s = .next t → exec .rdBgp t = .next { t with returned := some v }) ∧
    (exec (.wrObp0 v) s = .next t → exec .rdObp0 t = .next { t with returned := some v }) ∧
    (exec (.wrObp1 v) s = .next t → exec .rdObp1 t = .next { t with returned := some v }) ∧
    (exec (.wrWy v) s = .next t → exec .rdWy t = .next { t with returned := some v }) ∧
    (exec (.wrWx v) s = .next t → exec .rdWx t = .next { t with returned := some v }))

/-- R79, R81, R85, R87, R89, R91, R93, R95, their pseudocode: the write of a plain register completes from every
state, stores the byte whole and changes nothing else; LYC's does not touch the LYC flag. That a write clears
`returned` is the model's choice (log entry 5). -/
def Obligations.PlainRegisterWrites : Prop :=
  ∀ (s : State) (v : Byte),
    exec (.wrScy v) s = .next { s with scy := v, returned := none } ∧
    exec (.wrScx v) s = .next { s with scx := v, returned := none } ∧
    exec (.wrLyc v) s = .next { s with lyc := v, returned := none } ∧
    exec (.wrBgp v) s = .next { s with bgp := v, returned := none } ∧
    exec (.wrObp0 v) s = .next { s with obp0 := v, returned := none } ∧
    exec (.wrObp1 v) s = .next { s with obp1 := v, returned := none } ∧
    exec (.wrWy v) s = .next { s with wy := v, returned := none } ∧
    exec (.wrWx v) s = .next { s with wx := v, returned := none }

/-- R76: a read of STAT completes from every state and returns the byte with bit 7 set, the four enables at bits 6 to
3, the LYC flag at bit 2 and the mode's number at bits 1:0, which is 0 while the engine is off; its word. The spec
marks as its own: bit 7 reading 1 is decision D6 (log entry 10). That the byte returned stands in `returned` is the
model's choice (log entry 5). -/
def Obligations.ReadStatReturnsFields : Prop :=
  encode .rdStat = 0b00#2 ++ 0xFF41#16 ++ 0#8 ∧
  (∀ s : State, ∃ b : Byte, exec .rdStat s = .next { s with returned := some b } ∧
    b.getLsbD 7 = true ∧ b.getLsbD 6 = s.statLycInt ∧ b.getLsbD 5 = s.statOamInt ∧ b.getLsbD 4 = s.statVblankInt ∧
    b.getLsbD 3 = s.statHblankInt ∧ b.getLsbD 2 = s.statLycFlag ∧
    b.toNat % 4 = (match s.mode with | .hblank => 0 | .vblank => 1 | .oamScan => 2 | .draw => 3) ∧
    (Inv s → s.engineOn = false → b.toNat % 4 = 0))

/-- R77, its pseudocode: a write of STAT completes from every state, stores bits 6 to 3, discards the others, requests
nothing and changes nothing else of the block; read back in HBlank with the LYC flag 0 after writing 0xFF it gives
0xF8. The spec marks as its own: the read-only bits are decision D6 (log entry 10). That a write clears `returned` is
the model's choice (log entry 5). -/
def Obligations.WriteStatStoresEnables : Prop :=
  (∀ (s : State) (v : Byte),
    exec (.wrStat v) s = .next { s with statLycInt := v.getLsbD 6, statOamInt := v.getLsbD 5, statVblankInt := v.getLsbD 4,
                                        statHblankInt := v.getLsbD 3, returned := none }) ∧
  (∀ s t : State, s.mode = .hblank → s.statLycFlag = false → exec (.wrStat 0xFF) s = .next t →
    exec .rdStat t = .next { t with returned := some 0xF8 })

/-- R82: a read of LY completes from every state and returns LY; LY changes only in line dot 455 and at an LCDC write
that changes bit 7, which sets it to 0; it reads 0 while the engine is off; and it reads 1 one line after the enable. -/
def Obligations.LyReadsAndChanges : Prop :=
  encode .rdLy = 0b00#2 ++ 0xFF44#16 ++ 0#8 ∧
  (∀ s : State, exec .rdLy s = .next { s with returned := some s.ly }) ∧
  (∀ s t : State, dotStep s = .ok t → t.ly ≠ s.ly → s.lineDot = 455) ∧
  (∀ (i : Instr) (s t : State), (∀ m, i ≠ .tick m) → exec i s = .next t → t.ly ≠ s.ly →
    ∃ v, i = .wrLcdc v ∧ s.lcdc.getLsbD 7 ≠ v.getLsbD 7 ∧ t.ly = 0) ∧
  (∀ s : State, Inv s → s.engineOn = false → exec .rdLy s = .next { s with returned := some 0 }) ∧
  (∀ (s t : State) (v : Byte), Inv s → s.engineOn = false → v.getLsbD 7 = true → exec (.wrLcdc v) s = .next t →
    ∃ u, exec (.tick 114) t = .next u ∧ exec .rdLy u = .next { u with returned := some 1 })

/-- R83: a write of LY is a legal word, completes from every state and changes no state of the block; a read of LY
after it returns the unchanged LY. That a write clears `returned` is the model's choice (log entry 5). -/
def Obligations.WriteLyIgnored : Prop :=
  ∀ (s : State) (v : Byte),
    decode (0b01#2 ++ 0xFF44#16 ++ v) = .ok (.wrLy v) ∧
    exec (.wrLy v) s = .next { s with returned := none } ∧
    exec .rdLy { s with returned := none } = .next { s with returned := some s.ly }

/-- R73, its pseudocode, and R75's: a write of LCDC completes from every state; where it leaves bit 7 alone it only
stores the byte; where it sets bit 7 it also starts the engine at line 0, line dot 0, the mode unchanged. The case
that clears bit 7 is `Obligations.LcdDisableResetsSchedule`. The spec marks as its own: the details are decisions D7
and D37 (log entry 10). That a write clears `returned` is the model's choice (log entry 5). -/
def Obligations.WriteLcdcStoresOrEnables : Prop :=
  ∀ (s : State) (v : Byte),
    (s.lcdc.getLsbD 7 = v.getLsbD 7 → exec (.wrLcdc v) s = .next { s with lcdc := v, returned := none }) ∧
    (s.lcdc.getLsbD 7 = false → v.getLsbD 7 = true →
      exec (.wrLcdc v) s = .next { s with lcdc := v, engineOn := true, ly := 0, lineDot := 0, returned := none })

/-- R74: a write of LCDC that clears bit 7 stops the engine at once, in every mode, and resets LY, the mode, the dot
counters, the window state, the scanner and the fetcher; everything else, the LYC flag, the enables, the other
registers, the frame buffer, the pending bits and the presented frames among it, is unchanged. The spec marks as its
own: the reset of the scanner and the fetcher is decision D7 (log entry 10). That a write clears `returned` is the
model's choice (log entry 5). That the record of the last sprite fetch stays is the model's choice (log entry 7). -/
def Obligations.LcdDisableResetsSchedule : Prop :=
  ∀ (s : State) (v : Byte), s.lcdc.getLsbD 7 = true → v.getLsbD 7 = false →
    exec (.wrLcdc v) s = .next
      { s with lcdc := v, engineOn := false, ly := 0, mode := .hblank, lineDot := 0, drawDots := 0, windowLine := 0
               winLineOk := false, sel := [], scanY := 0, scanX := 0, returned := none
               pipe := { phase := .getTile, phaseDot := 0, inWindow := false, fetchX := 0, mapAddr := 0, tileLine := 0
                         tileAddr := 0, lo := 0, hi := 0, discard := 0, pushX := 0, outputX := 0, run := []
                         bgFifo := [], spFifo := [], spPtr := 0, sfetchLeft := 0, sfetchCur := s.pipe.sfetchCur } }

/-- R174: a disable followed by an enable leaves the engine at line 0, line dot 0, window line 0, the OAM scan of line
0 beginning at the next dot; two such cycles in a row leave the state that one leaves. The spec marks as its own: the
equality of two cycles is the inference of R174 (log entry 10). -/
def Obligations.LcdCycleIdempotent : Prop :=
  ∀ (s : State) (v w : Byte), s.lcdc.getLsbD 7 = true → v.getLsbD 7 = false → w.getLsbD 7 = true →
    ∃ t u, exec (.wrLcdc v) s = .next t ∧ exec (.wrLcdc w) t = .next u ∧
      u.engineOn = true ∧ u.ly = 0 ∧ u.lineDot = 0 ∧ u.windowLine = 0 ∧
      (∃ d, dotStep u = .ok d ∧ d.mode = .oamScan ∧ d.ly = 0 ∧ d.lineDot = 1 ∧ d.sel = []) ∧
      (∃ t', exec (.wrLcdc v) u = .next t' ∧ exec (.wrLcdc w) t' = .next u)

/-- R71: every register operation completes from every state with no exception, requests no interrupt and advances
nothing: it leaves the pending bits, the memories, the frame buffer, the presented frames and the LYC flag, and,
LCDC's write apart, the whole schedule and pipeline; a read changes nothing but the byte returned to the host. The
spec marks as its own: decisions D3 and D36 (log entry 10). That the byte returned stands in `returned` is the model's
choice (log entry 5). -/
def Obligations.RegisterOpsTakeNoDots : Prop :=
  (∀ (i : Instr) (s : State), (∀ m, i ≠ .tick m) → ∃ t, exec i s = .next t ∧
    t.iflag = s.iflag ∧ t.vram = s.vram ∧ t.oam = s.oam ∧ t.fb = s.fb ∧ t.presented = s.presented ∧
    t.pending = s.pending ∧ t.statLycFlag = s.statLycFlag ∧
    ((∀ v, i ≠ .wrLcdc v) → t.engineOn = s.engineOn ∧ t.ly = s.ly ∧ t.mode = s.mode ∧ t.lineDot = s.lineDot ∧
      t.drawDots = s.drawDots ∧ t.windowLine = s.windowLine ∧ t.winLineOk = s.winLineOk ∧ t.scanY = s.scanY ∧
      t.scanX = s.scanX ∧ t.sel = s.sel ∧ t.pipe = s.pipe)) ∧
  (∀ (r : Reg) (s : State), ∃ b, exec (.rd r) s = .next { s with returned := some b })

/-! ### Tick and the invariant (spec/41_mode_machine.md) -/

/-- R97: `TICK m` runs 4·m dots; `TICK 0` does nothing; while the engine is off no dot does anything; from LCD enable
`TICK 20` leaves the mode at Draw and the line dot at 80. That a Tick clears `returned` is the model's choice (log
entry 5). The spec marks as its own: decision D3 (log entry 10). -/
def Obligations.TickRunsFourDotsEach : Prop :=
  (∀ (m : Nat) (s t : State), runDots (4 * m) { s with returned := none } = .ok t → exec (.tick m) s = .next t) ∧
  (∀ s : State, exec (.tick 0) s = .next { s with returned := none }) ∧
  (∀ (m : Nat) (s : State), s.engineOn = false → exec (.tick m) s = .next { s with returned := none }) ∧
  (∀ (s t : State) (v : Byte), Inv s → s.engineOn = false → v.getLsbD 7 = true → exec (.wrLcdc v) s = .next t →
    ∃ u, exec (.tick 20) t = .next u ∧ u.mode = .draw ∧ u.lineDot = 80 ∧ u.ly = 0)

/-- A Tick of any length completes from every state of the invariant, whatever the mode and the memories, keeps the
invariant, and moves the position in the frame on by its dots, modulo 70224 (R97, R106, R108, R111). -/
def Obligations.TickCompletes : Prop :=
  ∀ (m : Nat) (s : State), Inv s → ∃ t, exec (.tick m) s = .next t ∧ Inv t ∧
    (s.engineOn = true → framePos t = (framePos s + 4 * m) % 70224)

/-- The boundary between two Ticks changes nothing: a Tick of `m + n` is a Tick of `m` followed by a Tick of `n`, from
every state (R51, R97). -/
def Obligations.TickSplitsAnywhere : Prop :=
  ∀ (m n : Nat) (s t : State), exec (.tick m) s = .next t → exec (.tick (m + n)) s = exec (.tick n) t

/-- Every step keeps the invariant: from each state that meets it, a next state meets it (R14, R24, R36, R109). -/
def Obligations.StepKeepsInv : Prop :=
  ∀ s t : State, Inv s → step s = .next t → Inv t

/-- The state after power-on meets the invariant (R39). The spec marks as its own: the power-on values are decision D4
(log entry 10). -/
def Obligations.ResetMeetsInv : Prop := Inv State.reset

/-- R161: from every state of the invariant every host operation completes, whatever its operand; a step never faults,
the overrun of R107 among the faults, and it refuses a word without meaning and nothing else. -/
def Obligations.NoOperationFails : Prop :=
  (∀ (i : Instr) (s : State), Inv s → ∃ t, exec i s = .next t) ∧
  (∀ (s : State) (f : Fault), Inv s → step s ≠ .fault f) ∧
  (∀ (s : State) (r : Refusal), Inv s → step s = .refused r →
    ∃ w rest e, s.pending = .word w :: rest ∧ decode w = .error e ∧ r = .reservedWord e)

/-- R173: the state after power-on: the registers, the mode, the counters and the pipeline at 0, the lists empty,
every STAT enable 0, and no value of the frame buffer fixed; nothing runs until LCDC is written with bit 7 set. The
spec marks as its own: the power-on values are decisions D4 and D31 (log entry 10). That `returned` is none, so that a
Tick changes nothing at all, is the model's choice (log entry 5). -/
def Obligations.PowerOnState : Prop :=
  let s := State.reset
  s.lcdc = 0 ∧ s.statLycInt = false ∧ s.statOamInt = false ∧ s.statVblankInt = false ∧ s.statHblankInt = false ∧
  s.statLycFlag = false ∧ s.mode = .hblank ∧ s.scy = 0 ∧ s.scx = 0 ∧ s.ly = 0 ∧ s.lyc = 0 ∧ s.bgp = 0 ∧ s.obp0 = 0 ∧
  s.obp1 = 0 ∧ s.wy = 0 ∧ s.wx = 0 ∧ s.engineOn = false ∧ s.lineDot = 0 ∧ s.drawDots = 0 ∧ s.windowLine = 0 ∧
  s.winLineOk = false ∧ s.scanY = 0 ∧ s.scanX = 0 ∧ s.sel = [] ∧ s.pipe.phase = .getTile ∧ s.pipe.phaseDot = 0 ∧
  s.pipe.inWindow = false ∧ s.pipe.fetchX = 0 ∧ s.pipe.mapAddr = 0 ∧ s.pipe.tileLine = 0 ∧ s.pipe.tileAddr = 0 ∧
  s.pipe.lo = 0 ∧ s.pipe.hi = 0 ∧ s.pipe.discard = 0 ∧ s.pipe.pushX = 0 ∧ s.pipe.outputX = 0 ∧ s.pipe.run = [] ∧
  s.pipe.bgFifo = [] ∧ s.pipe.spFifo = [] ∧ s.pipe.spPtr = 0 ∧ s.pipe.sfetchLeft = 0 ∧
  (∀ i, FrameBuffer.read s.fb i = Config.fbPowerOn i) ∧
  (∀ m, exec (.tick m) s = .next s) ∧
  (∀ (i : Instr) (t : State), exec i s = .next t → t.engineOn = true → ∃ v, i = .wrLcdc v ∧ v.getLsbD 7 = true)

/-- R107: a Draw still running at the end of line dot 455 is the fault `DrawOverrun`, and no state of the invariant
comes to it: in Draw the line dot is at most 321 and the Draw dots already done are at most 241. The spec marks as its
own: the fault is decision D32; the bound is the inference of R185 (log entry 10). -/
def Obligations.DrawOverrunUnreachable : Prop :=
  (∀ s t : State, s.engineOn = true → s.mode = .draw → s.lineDot = 455 → drawDot s = .ok t → t.mode = .draw →
    dotStep s = .error .drawOverrun) ∧
  (∀ s : State, Inv s → s.mode = .draw → s.lineDot ≤ 321 ∧ s.drawDots ≤ 241) ∧
  (∀ s : State, Inv s → dotStep s ≠ .error .drawOverrun)

/-! ### The dot in each mode -/

/-- R99, R100, R102: the first dot of a line makes the LYC compare and its request, then enters OAM scan on a visible
line (with its request, an empty list and the window latch) or VBlank on line 144 (with VBLANK always, STAT if
enabled, and the frame handed over); on lines 145 to 153 the mode stays 1. The spec marks as its own: clearing the
flag is decision D13, the window latch D18 (log entry 10). That the frames handed over stand in `presented`, newest
first, is the model's choice (log entry 6). -/
def Obligations.LineStartDot : Prop :=
  ∀ s : State, Inv s → s.engineOn = true → s.lineDot = 0 → ∃ t, dotStep s = .ok t ∧ t.lineDot = 1 ∧ t.ly = s.ly ∧
    t.statLycFlag = decide (s.ly = s.lyc) ∧
    t.mode = (if s.ly.toNat < 144 then .oamScan else .vblank) ∧
    t.iflag = s.iflag ||| (if s.ly.toNat = 144 then 0x01 else 0x00) |||
      (if (s.ly = s.lyc ∧ s.statLycInt = true) ∨ (s.ly.toNat < 144 ∧ s.statOamInt = true) ∨
          (s.ly.toNat = 144 ∧ s.statVblankInt = true) then 0x02 else 0x00) ∧
    t.presented = (if s.ly.toNat = 144 then s.fb :: s.presented else s.presented) ∧
    (s.ly.toNat < 144 → t.sel = [] ∧ t.scanY = Memory.read s.oam 0 ∧ t.scanX = Memory.read s.oam 1 ∧
      t.winLineOk = (s.lcdc.getLsbD 5 && decide (s.wy.toNat ≤ s.ly.toNat))) ∧
    (144 ≤ s.ly.toNat → t.sel = s.sel ∧ t.scanY = s.scanY ∧ t.scanX = s.scanX ∧ t.winLineOk = s.winLineOk) ∧
    t.pipe = s.pipe ∧ t.fb = s.fb ∧ t.drawDots = s.drawDots ∧ t.windowLine = s.windowLine

/-- R105: in HBlank and in VBlank a dot does nothing but the end of the dot, from every state: inside the line it
moves the line dot on, at the line's end it goes over to the next line, and the mode, the pipeline and the scanner are
left as they stand. (The first dot of a line first enters that line's mode: `Obligations.LineStartDot`.) -/
def Obligations.BlankDotOnlyCounts : Prop :=
  ∀ s : State, s.engineOn = true → s.mode = .hblank ∨ s.mode = .vblank → s.lineDot ≠ 0 →
    dotStep s = endOfDot s ∧
    (s.lineDot ≠ 455 → dotStep s = .ok { s with lineDot := s.lineDot + 1 }) ∧
    (s.lineDot = 455 → ∃ ly w, dotStep s = .ok { s with lineDot := 0, ly := ly, windowLine := w })

/-- R108: the last dot of a line counts the window line if the line's latch was set, and moves LY on, from 153 to 0
with the window line back at 0; it changes nothing else. The spec marks as its own: the window-line counter is
decision D18 (log entry 10). -/
def Obligations.EndOfLineDot : Prop :=
  ∀ s : State, Inv s → s.engineOn = true → s.lineDot = 455 →
    dotStep s = .ok { s with
      lineDot := 0
      ly := if s.ly.toNat = 153 then 0 else s.ly + 1
      windowLine :=
        if s.ly.toNat = 153 then 0
        else if s.ly.toNat < 144 ∧ s.winLineOk = true then s.windowLine + 1 else s.windowLine }

/-- R114, R115: a scan dot reads two bytes of its entry from OAM; the second dot of an entry evaluates it, and selects
it if fewer than ten are selected and it covers LY, with the fields of its record as the rules give them. The spec
marks as its own: the dot of the evaluation is decision D35, the attribute bits D11 (log entry 10). -/
def Obligations.OamScanDotEvaluates : Prop :=
  ∀ (s : State) (d : Nat), d < 80 →
    (d % 2 = 0 → oamScanDot d s =
      .ok { s with scanY := Memory.read s.oam (4 * (d / 2)), scanX := Memory.read s.oam (4 * (d / 2) + 1) }) ∧
    (d % 2 = 1 → oamScanDot d s =
      let height : Nat := if s.lcdc.getLsbD 2 then 16 else 8
      let y : Int := (s.scanY.toNat : Int) - 16
      let attr := Memory.read s.oam (4 * (d / 2) + 3)
      .ok { s with
        sel :=
          if s.sel.length < 10 ∧ y ≤ (s.ly.toNat : Int) ∧ (s.ly.toNat : Int) < y + height then
            s.sel ++ [{ y := y, x := (s.scanX.toNat : Int) - 8, tile := Memory.read s.oam (4 * (d / 2) + 2)
                        bgPrio := attr.getLsbD 7, yflip := attr.getLsbD 6, xflip := attr.getLsbD 5
                        pal := attr.getLsbD 4, oam := d / 2, height := height }]
          else s.sel })

/-- The scan's last dot, line dot 79, sorts the selected sprites, enters Draw with no request, and resets the fetcher,
latching `SCX & 7` as the first tile's discard (R103, R120); up to that dot, in line dots 0 to 78 of a visible line,
each dot leaves the mode at OAM scan. The spec marks as its own: that `SCX mod 8` is latched here is decision D17 (log
entry 10). That the record of the last sprite fetch stays is the model's choice (log entry 7). -/
def Obligations.EndOfScanDot : Prop :=
  (∀ s : State, Inv s → s.engineOn = true → s.ly.toNat < 144 → s.lineDot < 79 →
    ∃ t, dotStep s = .ok t ∧ t.mode = .oamScan ∧ t.lineDot = s.lineDot + 1) ∧
  ∀ s : State, Inv s → s.engineOn = true → s.mode = .oamScan → s.lineDot = 79 →
    ∃ u, oamScanDot 79 s = .ok u ∧ u.iflag = s.iflag ∧
      dotStep s = .ok { u with
        sel := sortSprites u.sel, mode := .draw, lineDot := 80, drawDots := 0
        pipe := { phase := .getTile, phaseDot := 0, inWindow := false, fetchX := 0, mapAddr := 0, tileLine := 0
                  tileAddr := 0, lo := 0, hi := 0, discard := s.scx.extractLsb' 0 3, pushX := 0, outputX := 0, run := []
                  bgFifo := [], spFifo := [], spPtr := 0, sfetchLeft := 0, sfetchCur := s.pipe.sfetchCur } }

/-- R104: a dot of Draw runs the pipeline's dot and counts; Draw ends at the first dot at whose end 160 pixels are out
and at least 172 dots have passed, and then requests STAT if its HBlank source is enabled. The spec marks as its own:
the floor of 172 dots is decision D14 (log entry 10). -/
def Obligations.DrawDotEndsDraw : Prop :=
  ∀ s : State, Inv s → s.engineOn = true → s.mode = .draw → ∃ u, pipelineDot s = .ok u ∧
    dotStep s = .ok
      (if u.pipe.outputX = 160 ∧ 172 ≤ s.drawDots + 1 then
        { u with drawDots := s.drawDots + 1, lineDot := s.lineDot + 1, mode := .hblank
                 iflag := if s.statHblankInt then s.iflag ||| 0x02 else s.iflag }
      else { u with drawDots := s.drawDots + 1, lineDot := s.lineDot + 1 })

/-- R162, R163, R164: the pending bits after a dot are those before it, with VBLANK set if the dot begins line 144,
and STAT set if it begins a line with an enabled event of that line start or ends Draw with the HBlank source enabled;
no other dot requests, and no dot clears a bit or touches another one. The numbers of the two bits are R163's, which
the spec marks as general knowledge. The spec marks as its own: the bit numbers are decision D28, from general
knowledge (log entry 10). -/
def Obligations.RequestsOnlyAtEvents : Prop :=
  ∀ s t : State, Inv s → s.engineOn = true → dotStep s = .ok t →
    let vblank := s.lineDot = 0 ∧ s.ly.toNat = 144
    let stat := (s.lineDot = 0 ∧ ((s.ly = s.lyc ∧ s.statLycInt = true) ∨ (s.ly.toNat < 144 ∧ s.statOamInt = true) ∨
        (s.ly.toNat = 144 ∧ s.statVblankInt = true))) ∨
      (s.mode = .draw ∧ t.mode = .hblank ∧ s.statHblankInt = true)
    (∀ k, t.iflag.getLsbD k = true ↔ s.iflag.getLsbD k = true ∨ (k = 0 ∧ vblank) ∨ (k = 1 ∧ stat))

/-! ### The schedule of a line and of a frame -/

/-- R109: the modes of one line. On a visible line there is a Draw length from 172 to 242 that divides it into OAM
scan, Draw and HBlank as the table says; on lines 144 to 153 the mode is VBlank throughout. After the line the mode
and the LYC flag are still the line's own, while LY already holds the next line. The spec marks as its own: the table
is the inference of R109, the bound of R185 (log entry 10). -/
def Obligations.LineTimeline : Prop :=
  ∀ s : State, Inv s → s.engineOn = true → s.lineDot = 0 →
    (s.ly.toNat < 144 → ∃ d : Nat, 172 ≤ d ∧ d ≤ 242 ∧
      (∀ n, 0 < n → n < 456 → ∃ t, runDots n s = .ok t ∧ t.ly = s.ly ∧ t.lineDot = n ∧
        t.statLycFlag = decide (s.ly = s.lyc) ∧
        t.mode = (if n < 80 then .oamScan else if n < 80 + d then .draw else .hblank)) ∧
      (∃ t, runDots 456 s = .ok t ∧ t.ly.toNat = s.ly.toNat + 1 ∧ t.lineDot = 0 ∧ t.mode = .hblank ∧
        t.statLycFlag = decide (s.ly = s.lyc))) ∧
    (144 ≤ s.ly.toNat →
      (∀ n, 0 < n → n < 456 → ∃ t, runDots n s = .ok t ∧ t.ly = s.ly ∧ t.lineDot = n ∧ t.mode = .vblank ∧
        t.statLycFlag = decide (s.ly = s.lyc)) ∧
      (∃ t, runDots 456 s = .ok t ∧ t.ly.toNat = (s.ly.toNat + 1) % 154 ∧ t.lineDot = 0 ∧ t.mode = .vblank ∧
        t.statLycFlag = decide (s.ly = s.lyc)))

/-- R136: with no sprite and no window on the line, when each pixel is written and how long Draw lasts, `d` being `SCX
mod 8`: after `n` dots of Draw the pixels out are those the rule gives, and the mode is Draw until `max(172, 167 + d)`
dots have passed. The spec marks as its own: the cadence is the inference of R136 (log entry 10). -/
def Obligations.DrawCadenceBackgroundOnly : Prop :=
  ∀ s : State, s.engineOn = true → s.lineDot = 0 → s.ly.toNat < 144 →
    (qualifying s = [] ∨ s.lcdc.getLsbD 1 = false) → (s.lcdc.getLsbD 5 = false ∨ s.ly.toNat < s.wy.toNat) →
    let d := s.scx.toNat % 8
    ∀ n, n < 376 → ∃ t, runDots (80 + n) s = .ok t ∧
      t.mode = (if n < max 172 (167 + d) then .draw else .hblank) ∧
      t.pipe.outputX = min 160 (if n ≤ 7 then 0 else if n ≤ 15 - d then n - 7 else max (8 - d) (n - 7 - d))

/-- The Draw length of every visible line: `max(172, 167 + d + 6k + w)`, `d` being `SCX mod 8`; `k` the number of
sprite fetches triggered: of the line's first ten sprites those whose trigger x is on the screen, if objects are
enabled; and `w` the window's delay: 0 where no window starts on the line, else `8 − (X + d) mod 8`, `X = max(WX − 7,
0)` being the x it starts at, which is the refetch of 8 dots less the pixels of the current tile already drained or
discarded (R137, R150, R184; its table of Draw lengths by WX is this formula at `k = 0`). The spec marks as its own:
the formula is the inference of R184, the cost of a trigger that of R137, the window rules decisions D18 and D19 (log
entry 10). -/
def Obligations.DrawLengthWithSprites : Prop :=
  ∀ s : State, s.engineOn = true → s.lineDot = 0 → s.ly.toNat < 144 →
    let d := s.scx.toNat % 8
    let k := if s.lcdc.getLsbD 1 then ((qualifying s).filter fun a => decide (a.x < 160)).length else 0
    let w :=
      if s.lcdc.getLsbD 5 = true ∧ s.wy.toNat ≤ s.ly.toNat ∧ s.wx.toNat < 167 then 8 - (s.wx.toNat - 7 + d) % 8 else 0
    ∀ n, n < 376 → ∃ t, runDots (80 + n) s = .ok t ∧
      t.mode = (if n < max 172 (167 + d + 6 * k + w) then .draw else .hblank)

/-- R175: the first frame after the enable: line 0 begins with the next dot, Draw of line 0 at dot 80, line `n` at dot
456·n; VBlank and the first hand-off come in dot 65664, and line 0 of the second frame at dot 70224. The spec marks as
its own: the timeline is the inference of R175, the first dot decision D37 (log entry 10). That the frames handed over
stand in `presented`, newest first, is the model's choice (log entry 6). -/
def Obligations.FirstFrameAfterEnable : Prop :=
  ∀ (s t : State) (v : Byte), Inv s → s.engineOn = false → v.getLsbD 7 = true → exec (.wrLcdc v) s = .next t →
    (∃ a, dotStep t = .ok a ∧ a.ly = 0 ∧ a.lineDot = 1 ∧ a.mode = .oamScan ∧ a.statLycFlag = decide (s.lyc = 0) ∧
      (s.statOamInt = true → a.iflag.getLsbD 1 = true)) ∧
    (∃ a, runDots 80 t = .ok a ∧ a.ly = 0 ∧ a.lineDot = 80 ∧ a.mode = .draw ∧ a.drawDots = 0) ∧
    (∀ n, n ≤ 153 → ∃ a, runDots (456 * n) t = .ok a ∧ a.ly.toNat = n ∧ a.lineDot = 0) ∧
    (∃ a b, runDots 65664 t = .ok a ∧ a.presented = s.presented ∧ dotStep a = .ok b ∧ b.mode = .vblank ∧
      b.presented = b.fb :: s.presented ∧ b.iflag.getLsbD 0 = true) ∧
    (∃ a, exec (.tick 16416) t = .next a ∧ a.presented = s.presented) ∧
    (∃ a, exec (.tick 16417) t = .next a ∧ a.presented.length = s.presented.length + 1) ∧
    (∃ a, runDots 70224 t = .ok a ∧ a.ly = 0 ∧ a.lineDot = 0)

/-- One frame hands one frame over: from every state of the invariant with the engine on, a frame's 17556 M-cycles
bring LY and the line dot back and put exactly one frame before those already presented (R8, R102, R110). The spec
marks as its own: the count is the inference of R110 (log entry 10). That the frames handed over stand in `presented`,
newest first, is the model's choice (log entry 6). -/
def Obligations.OneHandOffPerFrame : Prop :=
  ∀ s : State, Inv s → s.engineOn = true → ∃ t f, exec (.tick 17556) s = .next t ∧ t.ly = s.ly ∧ t.lineDot = s.lineDot ∧
    t.presented = f :: s.presented

/-! ### The OAM scanner (spec/42_oam_scanner.md) -/

/-- The scan of a visible line visits the whole table in order (R116): after `n` of its dots the bytes last read are
those of entry `(n − 1) / 2`, whatever is selected already, and the list holds, in table order, the first ten of the
entries already evaluated that cover the line; at Draw entry it is that list for the whole table, sorted. The spec
marks as its own: the first ten in table order are the inference of R118 (b) and (c), the dot of each read and
evaluation is decision D35, the attribute bits of an entry D11 (log entry 10). -/
def Obligations.ScanSelectsFirstTen : Prop :=
  ∀ s : State, s.engineOn = true → s.lineDot = 0 → s.ly.toNat < 144 →
    (∀ n, 0 < n → n < 80 → ∃ t, runDots n s = .ok t ∧ t.mode = .oamScan ∧
      t.scanY = Memory.read s.oam (4 * ((n - 1) / 2)) ∧ t.scanX = Memory.read s.oam (4 * ((n - 1) / 2) + 1) ∧
      t.sel = (((List.range (n / 2)).map (oamEntry s)).filter fun a => a.covers s.ly).take 10) ∧
    (∃ t, runDots 80 s = .ok t ∧ t.mode = .draw ∧
      t.sel = sortSprites ((((List.range 40).map (oamEntry s)).filter fun a => a.covers s.ly).take 10))

/-- R117: the end of line dot 79 leaves the scanner's list sorted: reordered, in ascending x and at equal x in
ascending table index; where the indices are distinct, as those of a line's selected entries are, that is the only
such list. -/
def Obligations.SortIsUniqueOrder : Prop :=
  (∀ s : State, Inv s → s.engineOn = true → s.mode = .oamScan → s.lineDot = 79 →
    ∃ u t, oamScanDot 79 s = .ok u ∧ dotStep s = .ok t ∧ t.sel = sortSprites u.sel ∧ t.mode = .draw) ∧
  (∀ s : State, ((qualifying s).map SpriteAttr.oam).Nodup) ∧
  ∀ l : List SpriteAttr, (sortSprites l).Perm l ∧
    (sortSprites l).Pairwise (fun a b => a.x < b.x ∨ (a.x = b.x ∧ a.oam ≤ b.oam)) ∧
    ((l.map SpriteAttr.oam).Nodup → ∀ l' : List SpriteAttr, l'.Perm l →
      l'.Pairwise (fun a b => a.x < b.x ∨ (a.x = b.x ∧ a.oam ≤ b.oam)) → l' = sortSprites l)

/-- An entry covers the line exactly if its raw y is in `LY + 17 − height .. LY + 16`, whatever its other bytes; a raw
y of 0 never does (R118 (d)). The spec marks as its own: the range is the inference of R118 (log entry 10). -/
def Obligations.CoversByRawY : Prop :=
  ∀ (s : State) (i : Nat),
    ((oamEntry s i).covers s.ly = true ↔
      s.ly.toNat + 17 ≤ (Memory.read s.oam (4 * i)).toNat + (if s.lcdc.getLsbD 2 then 16 else 8) ∧
        (Memory.read s.oam (4 * i)).toNat ≤ s.ly.toNat + 16) ∧
    (Memory.read s.oam (4 * i) = 0 → (oamEntry s i).covers s.ly = false)

/-! ### The fetcher (spec/43_bg_window_fetcher.md) -/

/-- R43: every address the fetchers form: a tile-map address of either layer lies in the two maps, a background tile's
row in 0x8000..0x97FF and a sprite's in 0x8000..0x8FFF, with the high byte's address one above; so no read of VRAM
faults. The spec marks as its own: the ranges are the inference of R43, the map bases decision D9 (log entry 10). -/
def Obligations.VramAddressesInRange : Prop :=
  (∀ (s : State) (x : Nat), ∃ base row col : Nat, (base = 0x9800 ∨ base = 0x9C00) ∧ row < 32 ∧ col < 32 ∧
    (tileCoords s x).mapAddr.toNat = base + row * 32 + col) ∧
  (∀ (unsignedMode : Bool) (t : Byte) (line : BitVec 3),
    0x8000 ≤ tileBase unsignedMode t + 2 * line.toNat ∧ tileBase unsignedMode t + 2 * line.toNat + 1 ≤ 0x97FF) ∧
  (∀ (a : SpriteAttr) (ly : Byte), 0x8000 ≤ (a.rowAddr ly).toNat ∧ (a.rowAddr ly).toNat + 1 ≤ 0x8FFF ∧
    (a.rowAddr ly + 1).toNat = (a.rowAddr ly).toNat + 1) ∧
  (∀ (s : State) (m : Nat) (a : Addr), Inv s → exec (.tick m) s ≠ .fault (.vramAddress a))

/-- R123, R124, R125: GetTile takes its tile at the next pixel to drain; in the window the column is the floor of `(x
− (WX − 7)) / 8` and the row and line are the window line's; else both background sums wrap at 256. The spec marks as
its own: the map bases are decision D9, the masks D19 (log entry 10). -/
def Obligations.GetTileCoordinates : Prop :=
  ∀ s : State,
    let x := s.pipe.pushX
    let t := getTileAction s
    t = { s with pipe.fetchX := x, pipe.mapAddr := t.pipe.mapAddr, pipe.tileLine := t.pipe.tileLine } ∧
    (s.pipe.inWindow = true →
      (t.pipe.mapAddr.toNat : Int) = (if s.lcdc.getLsbD 6 then 0x9C00 else 0x9800) + (s.windowLine / 8 % 32 : Nat) * 32 +
        ((x : Int) - ((s.wx.toNat : Int) - 7)) / 8 % 32 ∧
      t.pipe.tileLine.toNat = s.windowLine % 8) ∧
    (s.pipe.inWindow = false →
      t.pipe.mapAddr.toNat = (if s.lcdc.getLsbD 3 then 0x9C00 else 0x9800) + (s.scy.toNat + s.ly.toNat) % 256 / 8 * 32 +
        (s.scx.toNat + x) / 8 % 32 ∧
      t.pipe.tileLine.toNat = (s.scy.toNat + s.ly.toNat) % 256 % 8)

/-- R126, R127: DataLow reads the tile index at the map address and the low byte at the tile's row, in the addressing
mode of `LCDC.TILE_DATA`; DataHigh reads the byte after it; nothing else changes; and the second mode's tile address
is `0x9000 + 16·sext(t)` (R63). The spec marks as its own: the polarity is decision D9, the byte order D10 (log entry
10). -/
def Obligations.TileDataReads : Prop :=
  (∀ s : State, 0x8000 ≤ s.pipe.mapAddr.toNat → s.pipe.mapAddr.toNat ≤ 0x9FFF →
    ∃ a : Addr, dataLowAction s = .ok { s with pipe.tileAddr := a, pipe.lo := Memory.read s.vram a.toNat } ∧
      a.toNat = (if s.lcdc.getLsbD 4 then 0x8000 + 16 * (Memory.read s.vram s.pipe.mapAddr.toNat).toNat
        else 0x8800 + 16 * (((Memory.read s.vram s.pipe.mapAddr.toNat).toNat + 128) % 256)) + 2 * s.pipe.tileLine.toNat) ∧
  (∀ s : State, 0x8000 ≤ s.pipe.tileAddr.toNat → s.pipe.tileAddr.toNat ≤ 0x9FFE →
    dataHighAction s = .ok { s with pipe.hi := Memory.read s.vram (s.pipe.tileAddr.toNat + 1) }) ∧
  (∀ t : Byte, tileBase true t = 0x8000 + 16 * t.toNat ∧ (tileBase false t : Int) = 0x9000 + 16 * t.toInt)

/-- R122: the fetcher's phases: on the first of a phase's two dots only the sub-counter moves; on the second the
phase's action is done and the next phase entered; when Idle completes, the Push is attempted in the same dot; Push is
attempted once a dot. The spec marks as its own: the dots of the actions are decision D15 (log entry 10). -/
def Obligations.FetcherPhases : Prop :=
  ∀ s : State,
    (s.pipe.phase ≠ .push → s.pipe.phaseDot = 0 → fetcherStep s = .ok { s with pipe.phaseDot := 1 }) ∧
    (s.pipe.phase = .getTile → s.pipe.phaseDot = 1 →
      fetcherStep s = .ok { getTileAction s with pipe.phaseDot := 0, pipe.phase := .dataLow }) ∧
    (s.pipe.phase = .dataLow → s.pipe.phaseDot = 1 → ∀ t, dataLowAction s = .ok t →
      fetcherStep s = .ok { t with pipe.phaseDot := 0, pipe.phase := .dataHigh }) ∧
    (s.pipe.phase = .dataHigh → s.pipe.phaseDot = 1 → ∀ t, dataHighAction s = .ok t →
      fetcherStep s = .ok { t with pipe.phaseDot := 0, pipe.phase := .idle }) ∧
    (s.pipe.phase = .idle → s.pipe.phaseDot = 1 →
      fetcherStep s = .ok (pushStep { s with pipe.phaseDot := 0, pipe.phase := .push })) ∧
    (s.pipe.phase = .push → fetcherStep s = .ok (pushStep s))

/-- A Push with no window trigger and no sprite ahead drains its whole run in one dot, as far as the screen goes: the
pixels go to the background FIFO in order, a blank slot beside each that no sprite pixel stands beside yet; the pixels
right of the screen are dropped, and the fetcher restarts at GetTile. The run is the eight pixels of the fetched row,
the first `st.discard` of them left out on the line's first background tile, or what a sprite fetch left of it (R129,
R130, R132, R134). The spec marks as its own: the bit order is decision D10, the dropped pixels D16 (log entry 10). -/
def Obligations.PushDrainsTheRun : Prop :=
  ∀ s : State, FifoAligned s.pipe →
    let run :=
      if s.pipe.run = [] then
        ((List.range 8).map fun j => s.pipe.hi.extractLsb' (7 - j) 1 ++ s.pipe.lo.extractLsb' (7 - j) 1).drop
          (if s.pipe.fetchX = 0 ∧ s.pipe.inWindow = false then s.pipe.discard.toNat else 0)
      else s.pipe.run
    let n := min run.length (160 - s.pipe.pushX)
    (s.pipe.inWindow = true ∨ s.lcdc.getLsbD 5 = false ∨ s.winLineOk = false ∨
      (s.pipe.pushX : Int) + n ≤ (s.wx.toNat : Int) - 7) →
    (∀ a ∈ s.sel.drop s.pipe.spPtr, (s.pipe.pushX : Int) + n ≤ max a.x 0) →
    pushStep s = { s with
      pipe.run := [], pipe.phase := .getTile, pipe.phaseDot := 0, pipe.pushX := s.pipe.pushX + n
      pipe.bgFifo := s.pipe.bgFifo ++ (run.take n).map fun c => { color := c, blank := false, pal := .bg }
      pipe.spFifo := s.pipe.spFifo ++
        (List.range' (s.pipe.outputX + s.pipe.spFifo.length)
          (s.pipe.pushX + n - (s.pipe.outputX + s.pipe.spFifo.length))).map .blank }

/-- R129, R131: when the window triggers; what the trigger does: a Push that finds it before its first pixel, its run
decoded in that Push or held from before a sprite fetch, drops the run and restarts the fetcher; one that finds it
before its pixel `n`, the pixels before that being left of the window and no sprite fetch starting among them, has
drained those `n` into the FIFOs, where they stay, and drops the rest (sprites reached meanwhile with objects disabled
are passed over); the window's tile starts at the next pixel to drain; and the latch stays until the line's Draw ends,
so the window triggers at most once. The spec marks as its own: decisions D18 and D19 (log entry 10). -/
def Obligations.WindowTriggersOncePerLine : Prop :=
  (∀ s : State, windowTrigger s = true ↔
    s.pipe.inWindow = false ∧ s.lcdc.getLsbD 5 = true ∧ s.winLineOk = true ∧
      (s.wx.toNat : Int) - 7 ≤ (s.pipe.pushX : Int)) ∧
  (∀ s : State, s.pipe.pushX < 160 → windowTrigger s = true →
    pushStep s = { s with pipe.inWindow := true, pipe.run := [], pipe.phase := .getTile, pipe.phaseDot := 0 }) ∧
  (∀ (s : State) (n : Nat), FifoAligned s.pipe →
    let run :=
      if s.pipe.run = [] then
        ((List.range 8).map fun j => s.pipe.hi.extractLsb' (7 - j) 1 ++ s.pipe.lo.extractLsb' (7 - j) 1).drop
          (if s.pipe.fetchX = 0 ∧ s.pipe.inWindow = false then s.pipe.discard.toNat else 0)
      else s.pipe.run
    n < run.length → s.pipe.pushX + n < 160 →
    s.pipe.inWindow = false → s.lcdc.getLsbD 5 = true → s.winLineOk = true →
    n = 0 ∨ (s.pipe.pushX : Int) + n ≤ (s.wx.toNat : Int) - 7 → (s.wx.toNat : Int) - 7 ≤ (s.pipe.pushX : Int) + n →
    s.lcdc.getLsbD 1 = false ∨ (∀ a ∈ s.sel.drop s.pipe.spPtr, (s.pipe.pushX : Int) + n ≤ max a.x 0) →
    ∃ ptr, (s.lcdc.getLsbD 1 = true → ptr = s.pipe.spPtr) ∧ pushStep s = { s with
      pipe.inWindow := true, pipe.run := [], pipe.phase := .getTile, pipe.phaseDot := 0, pipe.pushX := s.pipe.pushX + n
      pipe.bgFifo := s.pipe.bgFifo ++ (run.take n).map fun c => { color := c, blank := false, pal := .bg }
      pipe.spFifo := s.pipe.spFifo ++
        (List.range' (s.pipe.outputX + s.pipe.spFifo.length)
          (s.pipe.pushX + n - (s.pipe.outputX + s.pipe.spFifo.length))).map .blank
      pipe.spPtr := ptr }) ∧
  (∀ s : State, s.pipe.inWindow = true → windowTrigger s = false) ∧
  (∀ s t : State, s.mode = .draw → s.lineDot ≠ 0 → dotStep s = .ok t → s.pipe.inWindow = true → t.pipe.inWindow = true) ∧
  (∀ s : State, s.pipe.inWindow = true → (getTileAction s).pipe.fetchX = s.pipe.pushX)

/-! ### Sprites (spec/44_sprite_fetcher.md) -/

/-- The sprite check: the next sprite of the list starts its fetch if its trigger x is the next pixel to drain; while
objects are disabled it is passed over for the line instead, and the check goes on to the one after it; a sprite whose
trigger x is another one is left for later (R140, R141). The spec marks as its own: the trigger x of a sprite left of
the screen is decision D20 (log entry 10). -/
def Obligations.SpriteCheckStartsFetch : Prop :=
  (∀ s : State, s.sel.length ≤ s.pipe.spPtr → spriteCheck s = (false, s)) ∧
  (∀ (s : State) (a : SpriteAttr), s.sel[s.pipe.spPtr]? = some a →
    (max a.x 0 ≠ (s.pipe.pushX : Int) → spriteCheck s = (false, s)) ∧
    (max a.x 0 = (s.pipe.pushX : Int) → s.lcdc.getLsbD 1 = true →
      spriteCheck s =
        (true, { s with pipe.spPtr := s.pipe.spPtr + 1, pipe.sfetchCur := a, pipe.sfetchLeft := 6 })) ∧
    (max a.x 0 = (s.pipe.pushX : Int) → s.lcdc.getLsbD 1 = false →
      spriteCheck s = spriteCheck { s with pipe.spPtr := s.pipe.spPtr + 1 }))

/-- R142: a sprite fetch takes six dots, the dot that starts it the first: after that dot five are left; four dots
change nothing of the pipeline but the count; in the sixth the sprite FIFO alone takes the sprite's pixels. In none of
them is a pixel written or does the fetcher move, and the Push then resumes with the same run. The spec marks as its
own: the dot accounting is decision D21 (log entry 10). -/
def Obligations.SpriteFetchTakesSixDots : Prop :=
  ∀ s t : State, Inv s → s.engineOn = true → s.mode = .draw → s.pipe.sfetchLeft = 0 → dotStep s = .ok t →
    0 < t.pipe.sfetchLeft →
    t.pipe.sfetchLeft = 5 ∧ t.pipe.phase = .push ∧ t.pipe.run ≠ [] ∧ t.pipe.outputX = s.pipe.outputX ∧ t.fb = s.fb ∧
    (∀ k, k ≤ 4 → runDots k t =
      .ok { t with lineDot := t.lineDot + k, drawDots := t.drawDots + k, pipe.sfetchLeft := 5 - k }) ∧
    ∃ u q, spriteFetchComplete { t with pipe.sfetchLeft := 0 } = .ok u ∧ u.pipe.spFifo = q ∧
      runDots 5 t =
        .ok { t with lineDot := t.lineDot + 5, drawDots := t.drawDots + 5, pipe.sfetchLeft := 0, pipe.spFifo := q }

/-- R143, R144: the address of a sprite's row on a line it covers: the line counted from the bottom if it is flipped
vertically; a 16-line sprite's upper half in tile `t & 0xFE`, its lower in `t | 1`; always in the unsigned area. The
spec marks as its own: the unsigned area is decision D22 (log entry 10). -/
def Obligations.SpriteRowAddress : Prop :=
  ∀ (a : SpriteAttr) (ly : Byte) (line : Nat), a.height = 8 ∨ a.height = 16 → line < a.height →
    (line : Int) = (if a.yflip then (a.height : Int) - 1 - ((ly.toNat : Int) - a.y) else (ly.toNat : Int) - a.y) →
    (a.rowAddr ly).toNat =
      0x8000 + 16 * (if a.height = 16 then (if line < 8 then a.tile &&& 0xFE else a.tile ||| 1) else a.tile).toNat +
        2 * (line % 8)

/-- R145, R146: the overlay of the fetched sprite: at each place of the screen that one of its eight columns falls on,
its pixel fills a place not covered yet, and replaces what stands there only if that is blank or of a higher table
index; the other places, and everything but the sprite FIFO, stay. The spec marks as its own: colour 0 in the merge is
decision D23, the right edge D24 (log entry 10). -/
def Obligations.SpriteOverlayMerges : Prop :=
  ∀ s : State, FifoAligned s.pipe → max s.pipe.sfetchCur.x 0 = (s.pipe.pushX : Int) →
    let a := s.pipe.sfetchCur
    let lo := Memory.read s.vram (a.rowAddr s.ly).toNat
    let hi := Memory.read s.vram ((a.rowAddr s.ly).toNat + 1)
    ∃ q, spriteFetchComplete s = .ok { s with pipe.spFifo := q } ∧
      (∀ k c : Nat, c < 8 → a.x + c = ((s.pipe.outputX + k : Nat) : Int) → s.pipe.outputX + k < 160 →
        let bit := if a.xflip then c else 7 - c
        let new := SpritePixel.pixel (hi.extractLsb' bit 1 ++ lo.extractLsb' bit 1) (if a.pal then .obj1 else .obj0) a.oam
          a.bgPrio (s.pipe.outputX + k)
        q[k]? = some (match s.pipe.spFifo[k]? with
          | none => new
          | some (.blank _) => new
          | some (.pixel col pal oam prio x) => if a.oam < oam then new else .pixel col pal oam prio x)) ∧
      (∀ k : Nat, (((s.pipe.outputX + k : Nat) : Int) < a.x ∨ a.x + 8 ≤ ((s.pipe.outputX + k : Nat) : Int) ∨
        160 ≤ s.pipe.outputX + k) → q[k]? = s.pipe.spFifo[k]?)

/-! ### Mixing (spec/45_fifo_mixer.md) -/

/-- R153: the priority arbiter, every case of it. The spec marks as its own: the precedence of AND over OR is decision
D26 (log entry 10). -/
def Obligations.PriorityArbiter : Prop :=
  ∀ (en : Bool) (bg : BgPixel) (x : Nat),
    ((bg.blank = true ∨ en = false) → mix en bg (.blank x) = none) ∧
    (bg.blank = false → en = true → mix en bg (.blank x) = some (bg.color, .bg)) ∧
    (∀ (c : Colour) (pal : Palette) (oam : Nat) (prio : Bool),
      ((bg.blank = true ∨ en = false) → mix en bg (.pixel c pal oam prio x) = some (c, pal)) ∧
      (bg.blank = false → en = true → (c = 0 ∨ (prio = true ∧ bg.color ≠ 0)) →
        mix en bg (.pixel c pal oam prio x) = some (bg.color, .bg)) ∧
      (bg.blank = false → en = true → c ≠ 0 → (prio = false ∨ bg.color = 0) →
        mix en bg (.pixel c pal oam prio x) = some (c, pal)))

/-- R157, R158: the sample of a colour: the two bits of the palette register that the selector names, through the
fixed table; blank is 0xFF whatever the registers hold. The spec marks as its own: blank is decision D25, the middle
samples D33 (log entry 10). -/
def Obligations.PaletteSamples : Prop :=
  ∀ (s : State) (c : Colour) (pal : Palette),
    let p := match pal with | .bg => s.bgp | .obj0 => s.obp0 | .obj1 => s.obp1
    sample s (some (c, pal)) =
      (match p.toNat / 2 ^ (2 * c.toNat) % 4 with | 0 => 0xFF | 1 => 0x7F | 2 => 0x3F | _ => 0x00) ∧
    sample s none = 0xFF

/-- R152: the mixer's dot: with the background FIFO empty nothing happens; else one pair is popped, its sample written
at `LY·160 + output_x` and the output x moved on; every other byte of the frame buffer reads as before. A dot of the
pipeline with pixels still to come calls it once, after the fetcher's step, unless a sprite fetch is in progress or
begins. -/
def Obligations.MixerWritesOnePixel : Prop :=
  (∀ s t : State, s.pipe.outputX ≠ 160 → s.pipe.sfetchLeft = 0 → fetcherStep s = .ok t →
    (t.pipe.sfetchLeft = 0 → pipelineDot s = mixerDot t) ∧ (0 < t.pipe.sfetchLeft → ∀ u, pipelineDot s = .ok u → u.fb = t.fb)) ∧
  ∀ s : State, FifoAligned s.pipe → s.ly.toNat < 144 →
    (s.pipe.bgFifo = [] → mixerDot s = .ok s) ∧
    (∀ bg bgs, s.pipe.bgFifo = bg :: bgs → ∃ sp sps f, s.pipe.spFifo = sp :: sps ∧ sp.x = s.pipe.outputX ∧
      mixerDot s = .ok { s with fb := f, pipe.bgFifo := bgs, pipe.spFifo := sps, pipe.outputX := s.pipe.outputX + 1 } ∧
      ∀ i, FrameBuffer.read f i =
        if i = s.ly.toNat * 160 + s.pipe.outputX then sample s (mix (s.lcdc.getLsbD 0) bg sp) else FrameBuffer.read s.fb i)

/-- What a line shows, with neither window nor sprites: from every state at the start of a visible line with the
engine on, window and objects disabled, the line's 456 dots complete and its 160 bytes are the background's pixels
through BGP, read straight from the tile map and tile data at `(SCX + x, SCY + LY)` modulo 256, or 0xFF where the
background is disabled; every byte of the other lines reads as before (R62, R64, R125, R154, R157, R159). The spec
marks as its own: the data formats are decisions D9 and D10 (log entry 10). -/
def Obligations.LineShowsBackground : Prop :=
  ∀ s : State, s.engineOn = true → s.lineDot = 0 → s.ly.toNat < 144 → s.lcdc.getLsbD 5 = false → s.lcdc.getLsbD 1 = false →
    ∃ t, exec (.tick 114) s = .next t ∧
      (∀ x, x < 160 → FrameBuffer.read t.fb (s.ly.toNat * 160 + x) =
        if s.lcdc.getLsbD 0 then sample s (some (bgColourAt s x, .bg)) else 0xFF) ∧
      (∀ i, i < s.ly.toNat * 160 ∨ s.ly.toNat * 160 + 160 ≤ i → FrameBuffer.read t.fb i = FrameBuffer.read s.fb i)

/-- What a line shows, every feature on: from every state at the start of a visible line with the engine on, the
line's 456 dots complete and each of its 160 bytes is `sampleAt`, the pixel composed straight from the tile maps, the
tile data, OAM and the registers: the window from `max(WX − 7, 0)` on, over it the lowest-index of the first ten
sprites that cover the line, the two mixed by priority and mapped through the palettes; every byte of the other lines
reads as before (R118, R125, R131, R148, R153, R157, R159). The spec marks as its own: it rests on the data formats
D9, D10 and D11 and on the inferences of R118 and R148 (log entry 10). -/
def Obligations.LineShowsComposition : Prop :=
  ∀ s : State, s.engineOn = true → s.lineDot = 0 → s.ly.toNat < 144 →
    ∃ t, exec (.tick 114) s = .next t ∧
      (∀ x, x < 160 → FrameBuffer.read t.fb (s.ly.toNat * 160 + x) = sampleAt s x) ∧
      (∀ i, i < s.ly.toNat * 160 ∨ s.ly.toNat * 160 + 160 ≤ i → FrameBuffer.read t.fb i = FrameBuffer.read s.fb i)

/-! ### Frames and independence -/

/-- R47, R164: what a Tick leaves unchanged, from every state: every register the host writes, VRAM and OAM byte for
byte, and of the interrupt-flag register every bit but VBLANK and STAT, which it only sets; it returns nothing. That
the register has six more bits is the model's choice (log entry 4). That a Tick leaves `returned` none is the model's
choice (log entry 5). -/
def Obligations.TickFrame : Prop :=
  ∀ (m : Nat) (s t : State), exec (.tick m) s = .next t →
    t.lcdc = s.lcdc ∧ t.statLycInt = s.statLycInt ∧ t.statOamInt = s.statOamInt ∧ t.statVblankInt = s.statVblankInt ∧
    t.statHblankInt = s.statHblankInt ∧ t.scy = s.scy ∧ t.scx = s.scx ∧ t.lyc = s.lyc ∧ t.bgp = s.bgp ∧
    t.obp0 = s.obp0 ∧ t.obp1 = s.obp1 ∧ t.wy = s.wy ∧ t.wx = s.wx ∧ t.engineOn = s.engineOn ∧
    t.pending = s.pending ∧ t.returned = none ∧
    (∀ a, Memory.read t.vram a = Memory.read s.vram a) ∧ (∀ a, Memory.read t.oam a = Memory.read s.oam a) ∧
    (∀ k, s.iflag.getLsbD k = true → t.iflag.getLsbD k = true) ∧
    (∀ k, 2 ≤ k → t.iflag.getLsbD k = s.iflag.getLsbD k)

/-- R159: the bytes of the frame buffer a Tick may write. A dot in Draw writes at most the byte `LY·160 + output_x`, a
dot in another mode none; a Tick that stays within the line writes only bytes of that line, and none in VBlank. Every
other byte reads as before. The spec marks as its own: the index range is the inference of R159 (log entry 10). -/
def Obligations.TickWritesOnlyItsLine : Prop :=
  (∀ (s t : State) (i : Nat), dotStep s = .ok t → s.lineDot ≠ 0 → s.mode = .draw →
    i ≠ s.ly.toNat * 160 + s.pipe.outputX → FrameBuffer.read t.fb i = FrameBuffer.read s.fb i) ∧
  (∀ s t : State, dotStep s = .ok t → s.lineDot = 0 ∨ s.mode ≠ .draw → Inv s → t.fb = s.fb) ∧
  (∀ (m : Nat) (s t : State) (i : Nat), Inv s → exec (.tick m) s = .next t → s.lineDot + 4 * m ≤ 456 →
    (144 ≤ s.ly.toNat ∨ i < s.ly.toNat * 160 ∨ s.ly.toNat * 160 + 160 ≤ i) →
    FrameBuffer.read t.fb i = FrameBuffer.read s.fb i)

/-- The palettes and the background's enable decide only what is written, never when: two machines that differ only in
BGP, OBP0, OBP1, `LCDC.BG_WIN_ENABLE` and the frame buffer agree, after any Tick, on everything but those and the
frames handed over (R154, R157). The spec marks as its own: the sampling is decision D27 (log entry 10). That the
frames handed over stand in `presented`, newest first, is the model's choice (log entry 6). -/
def Obligations.PalettesDoNotTouchTiming : Prop :=
  ∀ (m : Nat) (s t : State) (b : Bool) (p p0 p1 : Byte) (f : FrameBuffer), exec (.tick m) s = .next t →
    let recolour (u : State) (g : FrameBuffer) (h : List FrameBuffer) : State :=
      { u with lcdc := u.lcdc.extractLsb' 1 7 ++ BitVec.ofBool b, bgp := p, obp0 := p0, obp1 := p1, fb := g, presented := h }
    ∃ g h, exec (.tick m) (recolour s f s.presented) = .next (recolour t g h) ∧ h.length = t.presented.length

/-- R53, R179: a byte already read is not read again. From line dot `d` of a visible line to the end of the line no
OAM byte below offset `2d` is read, so none of an entry already evaluated, and after the scan none at all; other
contents of those bytes change nothing of what those dots do. No byte of VRAM is read outside Draw, nor in a dot of
Draw other than the second dot of DataLow, the second dot of DataHigh and the sixth dot of a sprite fetch; those read
the tile index at the map address and the low byte of the tile's row, the high byte alone, and the two bytes of the
sprite's row: other contents of every other byte, those behind `st.lo`, `st.hi`, the run and the FIFOs among them,
change nothing. The spec marks as its own: it is the inference of R53, the writes decision D30 (log entry 10). -/
def Obligations.LatchedBytesAreNotReread : Prop :=
  (∀ (s t : State) (m : Memory) (n : Nat), Inv s → s.lineDot + n ≤ 456 → runDots n s = .ok t →
    (∀ a, s.ly.toNat < 144 → 2 * s.lineDot ≤ a → a < 160 → Memory.read m a = Memory.read s.oam a) →
    runDots n { s with oam := m } = .ok { t with oam := m }) ∧
  (∀ (s t : State) (m : Memory), Inv s → dotStep s = .ok t →
    s.mode ≠ .draw ∨
      (¬((s.pipe.phase = .dataLow ∨ s.pipe.phase = .dataHigh) ∧ s.pipe.phaseDot = 1) ∧ s.pipe.sfetchLeft ≠ 1) →
    dotStep { s with vram := m } = .ok { t with vram := m }) ∧
  (∀ (s t : State) (m : Memory), Inv s → s.mode = .draw → dotStep s = .ok t →
    (s.pipe.phase = .dataLow → s.pipe.phaseDot = 1 →
      let index := Memory.read s.vram s.pipe.mapAddr.toNat
      let row := tileBase (s.lcdc.getLsbD 4) index + 2 * s.pipe.tileLine.toNat
      Memory.read m s.pipe.mapAddr.toNat = index ∧ Memory.read m row = Memory.read s.vram row) →
    (s.pipe.phase = .dataHigh → s.pipe.phaseDot = 1 →
      Memory.read m (s.pipe.tileAddr.toNat + 1) = Memory.read s.vram (s.pipe.tileAddr.toNat + 1)) →
    (s.pipe.sfetchLeft = 1 →
      let row := (s.pipe.sfetchCur.rowAddr s.ly).toNat
      Memory.read m row = Memory.read s.vram row ∧ Memory.read m (row + 1) = Memory.read s.vram (row + 1)) →
    dotStep { s with vram := m } = .ok { t with vram := m })

/-- The host's writes between operations land where they say and nowhere else: VRAM at 0x8000 plus the offset, OAM at
the offset, in the canonical form of the memories; the interrupt-flag register whole. That the host's writes are
actions of `pending` and that it writes the whole register is the model's choice (log entries 1 and 4). -/
def Obligations.HostWritesLand : Prop :=
  ∀ (s : State) (rest : List HostAction) (v : Byte),
    (∀ off : BitVec 13, s.pending = .writeVram off v :: rest → ∃ m, step s = .next { s with pending := rest, vram := m } ∧
      (∀ a, Memory.read m a = if a = 0x8000 + off.toNat then v else Memory.read s.vram a) ∧
      (Memory.wf 0x8000 0x9FFF s.vram → Memory.wf 0x8000 0x9FFF m)) ∧
    (∀ off : Fin 160, s.pending = .writeOam off v :: rest → ∃ m, step s = .next { s with pending := rest, oam := m } ∧
      (∀ a, Memory.read m a = if a = off.val then v else Memory.read s.oam a) ∧
      (Memory.wf 0 159 s.oam → Memory.wf 0 159 m)) ∧
    (s.pending = .writeInterruptFlag v :: rest → step s = .next { s with pending := rest, iflag := v })
end

