-- ==== Sys2Proof/Laws/Decode.lean ====
section
/-! SUPPORT. The fields of a host-operation word built from its fields, and the address map both ways. -/

namespace Sys2Proof

@[simp] theorem op_ofFields (o : BitVec 2) (a : Addr) (d : Byte) : HostWord.op (HostWord.ofFields o a d) = o := by
  unfold HostWord.op HostWord.ofFields
  ext i hi
  simp only [BitVec.getElem_extractLsb', BitVec.getLsbD_append]
  have h1 : ¬ 24 + i < 8 := by omega
  have h2 : ¬ 24 + i - 8 < 16 := by omega
  have h3 : 24 + i - 8 - 16 = i := by omega
  simp [h1, h2, h3, BitVec.getLsbD_eq_getElem hi]

@[simp] theorem addr_ofFields (o : BitVec 2) (a : Addr) (d : Byte) : HostWord.addr (HostWord.ofFields o a d) = a := by
  unfold HostWord.addr HostWord.ofFields
  ext i hi
  simp only [BitVec.getElem_extractLsb', BitVec.getLsbD_append]
  have h1 : ¬ 8 + i < 8 := by omega
  have h2 : 8 + i - 8 < 16 := by omega
  have h3 : 8 + i - 8 = i := by omega
  simp [h1, h3, hi]

@[simp] theorem data_ofFields (o : BitVec 2) (a : Addr) (d : Byte) : HostWord.data (HostWord.ofFields o a d) = d := by
  unfold HostWord.data HostWord.ofFields
  ext i hi
  simp only [BitVec.getElem_extractLsb', BitVec.getLsbD_append]
  rw [if_pos (by omega), Nat.zero_add]
  simp [BitVec.getLsbD_eq_getElem hi]

/-- A word is made of its three fields (R57). -/
theorem ofFields_fields (w : HostWord) :
    HostWord.ofFields (HostWord.op w) (HostWord.addr w) (HostWord.data w) = w := by
  unfold HostWord.op HostWord.addr HostWord.data HostWord.ofFields
  ext i hi
  simp only [BitVec.getElem_append, BitVec.getElem_extractLsb']
  split
  · simp [BitVec.getLsbD_eq_getElem hi]
  · split
    · have : 8 + (i - 8) = i := by omega
      simp [this, BitVec.getLsbD_eq_getElem hi]
    · have : 24 + (i - 8 - 16) = i := by omega
      simp [this, BitVec.getLsbD_eq_getElem hi]

@[simp] theorem ofAddr_addr (r : Reg) : Reg.ofAddr r.addr = some r := by cases r <;> rfl

/-- The address map read backwards (R59). -/
theorem addr_of_ofAddr {a : Addr} {r : Reg} (h : Reg.ofAddr a = some r) : r.addr = a := by
  apply BitVec.eq_of_toNat_eq
  unfold Reg.ofAddr at h
  split at h <;> first | (cases h; rename_i h'; rw [h']; rfl) | cases h

@[simp] theorem encode_rd (r : Reg) : encode (.rd r) = encodeRd r := by cases r <;> rfl

@[simp] theorem encode_wr (r : Reg) (v : Byte) : encode (.wr r v) = encodeWr r v := by cases r <;> rfl

end Sys2Proof
end

