-- ==== Sys2Proof/Laws/State.lean ====
section
/-! SUPPORT. The fields of the state after each named update, true by rfl: one conjunct per field, which simp uses as one
rewrite rule each. -/

namespace Sys2Proof.Machine

@[simp] theorem setMode_fields (m : Mode) (s : State) :
    (setMode m s).lcdc = s.lcdc ∧
    (setMode m s).statLycInt = s.statLycInt ∧
    (setMode m s).statOamInt = s.statOamInt ∧
    (setMode m s).statVblankInt = s.statVblankInt ∧
    (setMode m s).statHblankInt = s.statHblankInt ∧
    (setMode m s).statLycFlag = s.statLycFlag ∧
    (setMode m s).mode = m ∧
    (setMode m s).scy = s.scy ∧
    (setMode m s).scx = s.scx ∧
    (setMode m s).ly = s.ly ∧
    (setMode m s).lyc = s.lyc ∧
    (setMode m s).bgp = s.bgp ∧
    (setMode m s).obp0 = s.obp0 ∧
    (setMode m s).obp1 = s.obp1 ∧
    (setMode m s).wy = s.wy ∧
    (setMode m s).wx = s.wx ∧
    (setMode m s).engineOn = s.engineOn ∧
    (setMode m s).lineDot = s.lineDot ∧
    (setMode m s).drawDots = s.drawDots ∧
    (setMode m s).windowLine = s.windowLine ∧
    (setMode m s).winLineOk = s.winLineOk ∧
    (setMode m s).scanY = s.scanY ∧
    (setMode m s).scanX = s.scanX ∧
    (setMode m s).sel = s.sel ∧
    (setMode m s).pipe = s.pipe ∧
    (setMode m s).fb = s.fb ∧
    (setMode m s).vram = s.vram ∧
    (setMode m s).oam = s.oam ∧
    (setMode m s).iflag = s.iflag ∧
    (setMode m s).returned = s.returned ∧
    (setMode m s).presented = s.presented ∧
    (setMode m s).pending = s.pending := by
  refine ⟨rfl, rfl, rfl, rfl, rfl, rfl, rfl, rfl, rfl, rfl, rfl, rfl, rfl, rfl, rfl, rfl, rfl, rfl, rfl, rfl, rfl, rfl, rfl, rfl, rfl, rfl, rfl, rfl, rfl, rfl, rfl, rfl⟩

@[simp] theorem requestInterrupt_fields (k : Interrupt) (s : State) :
    (requestInterrupt k s).lcdc = s.lcdc ∧
    (requestInterrupt k s).statLycInt = s.statLycInt ∧
    (requestInterrupt k s).statOamInt = s.statOamInt ∧
    (requestInterrupt k s).statVblankInt = s.statVblankInt ∧
    (requestInterrupt k s).statHblankInt = s.statHblankInt ∧
    (requestInterrupt k s).statLycFlag = s.statLycFlag ∧
    (requestInterrupt k s).mode = s.mode ∧
    (requestInterrupt k s).scy = s.scy ∧
    (requestInterrupt k s).scx = s.scx ∧
    (requestInterrupt k s).ly = s.ly ∧
    (requestInterrupt k s).lyc = s.lyc ∧
    (requestInterrupt k s).bgp = s.bgp ∧
    (requestInterrupt k s).obp0 = s.obp0 ∧
    (requestInterrupt k s).obp1 = s.obp1 ∧
    (requestInterrupt k s).wy = s.wy ∧
    (requestInterrupt k s).wx = s.wx ∧
    (requestInterrupt k s).engineOn = s.engineOn ∧
    (requestInterrupt k s).lineDot = s.lineDot ∧
    (requestInterrupt k s).drawDots = s.drawDots ∧
    (requestInterrupt k s).windowLine = s.windowLine ∧
    (requestInterrupt k s).winLineOk = s.winLineOk ∧
    (requestInterrupt k s).scanY = s.scanY ∧
    (requestInterrupt k s).scanX = s.scanX ∧
    (requestInterrupt k s).sel = s.sel ∧
    (requestInterrupt k s).pipe = s.pipe ∧
    (requestInterrupt k s).fb = s.fb ∧
    (requestInterrupt k s).vram = s.vram ∧
    (requestInterrupt k s).oam = s.oam ∧
    (requestInterrupt k s).iflag = s.iflag ||| k.bit ∧
    (requestInterrupt k s).returned = s.returned ∧
    (requestInterrupt k s).presented = s.presented ∧
    (requestInterrupt k s).pending = s.pending := by
  refine ⟨rfl, rfl, rfl, rfl, rfl, rfl, rfl, rfl, rfl, rfl, rfl, rfl, rfl, rfl, rfl, rfl, rfl, rfl, rfl, rfl, rfl, rfl, rfl, rfl, rfl, rfl, rfl, rfl, rfl, rfl, rfl, rfl⟩

@[simp] theorem setLycFlag_fields (s : State) :
    (setLycFlag s).lcdc = s.lcdc ∧
    (setLycFlag s).statLycInt = s.statLycInt ∧
    (setLycFlag s).statOamInt = s.statOamInt ∧
    (setLycFlag s).statVblankInt = s.statVblankInt ∧
    (setLycFlag s).statHblankInt = s.statHblankInt ∧
    (setLycFlag s).statLycFlag = decide (s.ly = s.lyc) ∧
    (setLycFlag s).mode = s.mode ∧
    (setLycFlag s).scy = s.scy ∧
    (setLycFlag s).scx = s.scx ∧
    (setLycFlag s).ly = s.ly ∧
    (setLycFlag s).lyc = s.lyc ∧
    (setLycFlag s).bgp = s.bgp ∧
    (setLycFlag s).obp0 = s.obp0 ∧
    (setLycFlag s).obp1 = s.obp1 ∧
    (setLycFlag s).wy = s.wy ∧
    (setLycFlag s).wx = s.wx ∧
    (setLycFlag s).engineOn = s.engineOn ∧
    (setLycFlag s).lineDot = s.lineDot ∧
    (setLycFlag s).drawDots = s.drawDots ∧
    (setLycFlag s).windowLine = s.windowLine ∧
    (setLycFlag s).winLineOk = s.winLineOk ∧
    (setLycFlag s).scanY = s.scanY ∧
    (setLycFlag s).scanX = s.scanX ∧
    (setLycFlag s).sel = s.sel ∧
    (setLycFlag s).pipe = s.pipe ∧
    (setLycFlag s).fb = s.fb ∧
    (setLycFlag s).vram = s.vram ∧
    (setLycFlag s).oam = s.oam ∧
    (setLycFlag s).iflag = s.iflag ∧
    (setLycFlag s).returned = s.returned ∧
    (setLycFlag s).presented = s.presented ∧
    (setLycFlag s).pending = s.pending := by
  refine ⟨rfl, rfl, rfl, rfl, rfl, rfl, rfl, rfl, rfl, rfl, rfl, rfl, rfl, rfl, rfl, rfl, rfl, rfl, rfl, rfl, rfl, rfl, rfl, rfl, rfl, rfl, rfl, rfl, rfl, rfl, rfl, rfl⟩

@[simp] theorem setStatEnables_fields (v : Byte) (s : State) :
    (setStatEnables v s).lcdc = s.lcdc ∧
    (setStatEnables v s).statLycInt = v.getLsbD 6 ∧
    (setStatEnables v s).statOamInt = v.getLsbD 5 ∧
    (setStatEnables v s).statVblankInt = v.getLsbD 4 ∧
    (setStatEnables v s).statHblankInt = v.getLsbD 3 ∧
    (setStatEnables v s).statLycFlag = s.statLycFlag ∧
    (setStatEnables v s).mode = s.mode ∧
    (setStatEnables v s).scy = s.scy ∧
    (setStatEnables v s).scx = s.scx ∧
    (setStatEnables v s).ly = s.ly ∧
    (setStatEnables v s).lyc = s.lyc ∧
    (setStatEnables v s).bgp = s.bgp ∧
    (setStatEnables v s).obp0 = s.obp0 ∧
    (setStatEnables v s).obp1 = s.obp1 ∧
    (setStatEnables v s).wy = s.wy ∧
    (setStatEnables v s).wx = s.wx ∧
    (setStatEnables v s).engineOn = s.engineOn ∧
    (setStatEnables v s).lineDot = s.lineDot ∧
    (setStatEnables v s).drawDots = s.drawDots ∧
    (setStatEnables v s).windowLine = s.windowLine ∧
    (setStatEnables v s).winLineOk = s.winLineOk ∧
    (setStatEnables v s).scanY = s.scanY ∧
    (setStatEnables v s).scanX = s.scanX ∧
    (setStatEnables v s).sel = s.sel ∧
    (setStatEnables v s).pipe = s.pipe ∧
    (setStatEnables v s).fb = s.fb ∧
    (setStatEnables v s).vram = s.vram ∧
    (setStatEnables v s).oam = s.oam ∧
    (setStatEnables v s).iflag = s.iflag ∧
    (setStatEnables v s).returned = s.returned ∧
    (setStatEnables v s).presented = s.presented ∧
    (setStatEnables v s).pending = s.pending := by
  refine ⟨rfl, rfl, rfl, rfl, rfl, rfl, rfl, rfl, rfl, rfl, rfl, rfl, rfl, rfl, rfl, rfl, rfl, rfl, rfl, rfl, rfl, rfl, rfl, rfl, rfl, rfl, rfl, rfl, rfl, rfl, rfl, rfl⟩

@[simp] theorem returnByte_fields (v : Byte) (s : State) :
    (returnByte v s).lcdc = s.lcdc ∧
    (returnByte v s).statLycInt = s.statLycInt ∧
    (returnByte v s).statOamInt = s.statOamInt ∧
    (returnByte v s).statVblankInt = s.statVblankInt ∧
    (returnByte v s).statHblankInt = s.statHblankInt ∧
    (returnByte v s).statLycFlag = s.statLycFlag ∧
    (returnByte v s).mode = s.mode ∧
    (returnByte v s).scy = s.scy ∧
    (returnByte v s).scx = s.scx ∧
    (returnByte v s).ly = s.ly ∧
    (returnByte v s).lyc = s.lyc ∧
    (returnByte v s).bgp = s.bgp ∧
    (returnByte v s).obp0 = s.obp0 ∧
    (returnByte v s).obp1 = s.obp1 ∧
    (returnByte v s).wy = s.wy ∧
    (returnByte v s).wx = s.wx ∧
    (returnByte v s).engineOn = s.engineOn ∧
    (returnByte v s).lineDot = s.lineDot ∧
    (returnByte v s).drawDots = s.drawDots ∧
    (returnByte v s).windowLine = s.windowLine ∧
    (returnByte v s).winLineOk = s.winLineOk ∧
    (returnByte v s).scanY = s.scanY ∧
    (returnByte v s).scanX = s.scanX ∧
    (returnByte v s).sel = s.sel ∧
    (returnByte v s).pipe = s.pipe ∧
    (returnByte v s).fb = s.fb ∧
    (returnByte v s).vram = s.vram ∧
    (returnByte v s).oam = s.oam ∧
    (returnByte v s).iflag = s.iflag ∧
    (returnByte v s).returned = some v ∧
    (returnByte v s).presented = s.presented ∧
    (returnByte v s).pending = s.pending := by
  refine ⟨rfl, rfl, rfl, rfl, rfl, rfl, rfl, rfl, rfl, rfl, rfl, rfl, rfl, rfl, rfl, rfl, rfl, rfl, rfl, rfl, rfl, rfl, rfl, rfl, rfl, rfl, rfl, rfl, rfl, rfl, rfl, rfl⟩

@[simp] theorem returnNothing_fields (s : State) :
    (returnNothing s).lcdc = s.lcdc ∧
    (returnNothing s).statLycInt = s.statLycInt ∧
    (returnNothing s).statOamInt = s.statOamInt ∧
    (returnNothing s).statVblankInt = s.statVblankInt ∧
    (returnNothing s).statHblankInt = s.statHblankInt ∧
    (returnNothing s).statLycFlag = s.statLycFlag ∧
    (returnNothing s).mode = s.mode ∧
    (returnNothing s).scy = s.scy ∧
    (returnNothing s).scx = s.scx ∧
    (returnNothing s).ly = s.ly ∧
    (returnNothing s).lyc = s.lyc ∧
    (returnNothing s).bgp = s.bgp ∧
    (returnNothing s).obp0 = s.obp0 ∧
    (returnNothing s).obp1 = s.obp1 ∧
    (returnNothing s).wy = s.wy ∧
    (returnNothing s).wx = s.wx ∧
    (returnNothing s).engineOn = s.engineOn ∧
    (returnNothing s).lineDot = s.lineDot ∧
    (returnNothing s).drawDots = s.drawDots ∧
    (returnNothing s).windowLine = s.windowLine ∧
    (returnNothing s).winLineOk = s.winLineOk ∧
    (returnNothing s).scanY = s.scanY ∧
    (returnNothing s).scanX = s.scanX ∧
    (returnNothing s).sel = s.sel ∧
    (returnNothing s).pipe = s.pipe ∧
    (returnNothing s).fb = s.fb ∧
    (returnNothing s).vram = s.vram ∧
    (returnNothing s).oam = s.oam ∧
    (returnNothing s).iflag = s.iflag ∧
    (returnNothing s).returned = none ∧
    (returnNothing s).presented = s.presented ∧
    (returnNothing s).pending = s.pending := by
  refine ⟨rfl, rfl, rfl, rfl, rfl, rfl, rfl, rfl, rfl, rfl, rfl, rfl, rfl, rfl, rfl, rfl, rfl, rfl, rfl, rfl, rfl, rfl, rfl, rfl, rfl, rfl, rfl, rfl, rfl, rfl, rfl, rfl⟩

@[simp] theorem presentFrame_fields (s : State) :
    (presentFrame s).lcdc = s.lcdc ∧
    (presentFrame s).statLycInt = s.statLycInt ∧
    (presentFrame s).statOamInt = s.statOamInt ∧
    (presentFrame s).statVblankInt = s.statVblankInt ∧
    (presentFrame s).statHblankInt = s.statHblankInt ∧
    (presentFrame s).statLycFlag = s.statLycFlag ∧
    (presentFrame s).mode = s.mode ∧
    (presentFrame s).scy = s.scy ∧
    (presentFrame s).scx = s.scx ∧
    (presentFrame s).ly = s.ly ∧
    (presentFrame s).lyc = s.lyc ∧
    (presentFrame s).bgp = s.bgp ∧
    (presentFrame s).obp0 = s.obp0 ∧
    (presentFrame s).obp1 = s.obp1 ∧
    (presentFrame s).wy = s.wy ∧
    (presentFrame s).wx = s.wx ∧
    (presentFrame s).engineOn = s.engineOn ∧
    (presentFrame s).lineDot = s.lineDot ∧
    (presentFrame s).drawDots = s.drawDots ∧
    (presentFrame s).windowLine = s.windowLine ∧
    (presentFrame s).winLineOk = s.winLineOk ∧
    (presentFrame s).scanY = s.scanY ∧
    (presentFrame s).scanX = s.scanX ∧
    (presentFrame s).sel = s.sel ∧
    (presentFrame s).pipe = s.pipe ∧
    (presentFrame s).fb = s.fb ∧
    (presentFrame s).vram = s.vram ∧
    (presentFrame s).oam = s.oam ∧
    (presentFrame s).iflag = s.iflag ∧
    (presentFrame s).returned = s.returned ∧
    (presentFrame s).presented = s.fb :: s.presented ∧
    (presentFrame s).pending = s.pending := by
  refine ⟨rfl, rfl, rfl, rfl, rfl, rfl, rfl, rfl, rfl, rfl, rfl, rfl, rfl, rfl, rfl, rfl, rfl, rfl, rfl, rfl, rfl, rfl, rfl, rfl, rfl, rfl, rfl, rfl, rfl, rfl, rfl, rfl⟩

@[simp] theorem oamScanStart_fields (s : State) :
    (oamScanStart s).lcdc = s.lcdc ∧
    (oamScanStart s).statLycInt = s.statLycInt ∧
    (oamScanStart s).statOamInt = s.statOamInt ∧
    (oamScanStart s).statVblankInt = s.statVblankInt ∧
    (oamScanStart s).statHblankInt = s.statHblankInt ∧
    (oamScanStart s).statLycFlag = s.statLycFlag ∧
    (oamScanStart s).mode = s.mode ∧
    (oamScanStart s).scy = s.scy ∧
    (oamScanStart s).scx = s.scx ∧
    (oamScanStart s).ly = s.ly ∧
    (oamScanStart s).lyc = s.lyc ∧
    (oamScanStart s).bgp = s.bgp ∧
    (oamScanStart s).obp0 = s.obp0 ∧
    (oamScanStart s).obp1 = s.obp1 ∧
    (oamScanStart s).wy = s.wy ∧
    (oamScanStart s).wx = s.wx ∧
    (oamScanStart s).engineOn = s.engineOn ∧
    (oamScanStart s).lineDot = s.lineDot ∧
    (oamScanStart s).drawDots = s.drawDots ∧
    (oamScanStart s).windowLine = s.windowLine ∧
    (oamScanStart s).winLineOk = s.winLineOk ∧
    (oamScanStart s).scanY = 0 ∧
    (oamScanStart s).scanX = 0 ∧
    (oamScanStart s).sel = [] ∧
    (oamScanStart s).pipe = s.pipe ∧
    (oamScanStart s).fb = s.fb ∧
    (oamScanStart s).vram = s.vram ∧
    (oamScanStart s).oam = s.oam ∧
    (oamScanStart s).iflag = s.iflag ∧
    (oamScanStart s).returned = s.returned ∧
    (oamScanStart s).presented = s.presented ∧
    (oamScanStart s).pending = s.pending := by
  refine ⟨rfl, rfl, rfl, rfl, rfl, rfl, rfl, rfl, rfl, rfl, rfl, rfl, rfl, rfl, rfl, rfl, rfl, rfl, rfl, rfl, rfl, rfl, rfl, rfl, rfl, rfl, rfl, rfl, rfl, rfl, rfl, rfl⟩

@[simp] theorem sortSelected_fields (s : State) :
    (sortSelected s).lcdc = s.lcdc ∧
    (sortSelected s).statLycInt = s.statLycInt ∧
    (sortSelected s).statOamInt = s.statOamInt ∧
    (sortSelected s).statVblankInt = s.statVblankInt ∧
    (sortSelected s).statHblankInt = s.statHblankInt ∧
    (sortSelected s).statLycFlag = s.statLycFlag ∧
    (sortSelected s).mode = s.mode ∧
    (sortSelected s).scy = s.scy ∧
    (sortSelected s).scx = s.scx ∧
    (sortSelected s).ly = s.ly ∧
    (sortSelected s).lyc = s.lyc ∧
    (sortSelected s).bgp = s.bgp ∧
    (sortSelected s).obp0 = s.obp0 ∧
    (sortSelected s).obp1 = s.obp1 ∧
    (sortSelected s).wy = s.wy ∧
    (sortSelected s).wx = s.wx ∧
    (sortSelected s).engineOn = s.engineOn ∧
    (sortSelected s).lineDot = s.lineDot ∧
    (sortSelected s).drawDots = s.drawDots ∧
    (sortSelected s).windowLine = s.windowLine ∧
    (sortSelected s).winLineOk = s.winLineOk ∧
    (sortSelected s).scanY = s.scanY ∧
    (sortSelected s).scanX = s.scanX ∧
    (sortSelected s).sel = sortSprites s.sel ∧
    (sortSelected s).pipe = s.pipe ∧
    (sortSelected s).fb = s.fb ∧
    (sortSelected s).vram = s.vram ∧
    (sortSelected s).oam = s.oam ∧
    (sortSelected s).iflag = s.iflag ∧
    (sortSelected s).returned = s.returned ∧
    (sortSelected s).presented = s.presented ∧
    (sortSelected s).pending = s.pending := by
  refine ⟨rfl, rfl, rfl, rfl, rfl, rfl, rfl, rfl, rfl, rfl, rfl, rfl, rfl, rfl, rfl, rfl, rfl, rfl, rfl, rfl, rfl, rfl, rfl, rfl, rfl, rfl, rfl, rfl, rfl, rfl, rfl, rfl⟩

@[simp] theorem fetcherReset_fields (d : BitVec 3) (s : State) :
    (fetcherReset d s).lcdc = s.lcdc ∧
    (fetcherReset d s).statLycInt = s.statLycInt ∧
    (fetcherReset d s).statOamInt = s.statOamInt ∧
    (fetcherReset d s).statVblankInt = s.statVblankInt ∧
    (fetcherReset d s).statHblankInt = s.statHblankInt ∧
    (fetcherReset d s).statLycFlag = s.statLycFlag ∧
    (fetcherReset d s).mode = s.mode ∧
    (fetcherReset d s).scy = s.scy ∧
    (fetcherReset d s).scx = s.scx ∧
    (fetcherReset d s).ly = s.ly ∧
    (fetcherReset d s).lyc = s.lyc ∧
    (fetcherReset d s).bgp = s.bgp ∧
    (fetcherReset d s).obp0 = s.obp0 ∧
    (fetcherReset d s).obp1 = s.obp1 ∧
    (fetcherReset d s).wy = s.wy ∧
    (fetcherReset d s).wx = s.wx ∧
    (fetcherReset d s).engineOn = s.engineOn ∧
    (fetcherReset d s).lineDot = s.lineDot ∧
    (fetcherReset d s).drawDots = 0 ∧
    (fetcherReset d s).windowLine = s.windowLine ∧
    (fetcherReset d s).winLineOk = s.winLineOk ∧
    (fetcherReset d s).scanY = s.scanY ∧
    (fetcherReset d s).scanX = s.scanX ∧
    (fetcherReset d s).sel = s.sel ∧
    (fetcherReset d s).pipe = { Pipeline.reset with discard := d, sfetchCur := s.pipe.sfetchCur } ∧
    (fetcherReset d s).fb = s.fb ∧
    (fetcherReset d s).vram = s.vram ∧
    (fetcherReset d s).oam = s.oam ∧
    (fetcherReset d s).iflag = s.iflag ∧
    (fetcherReset d s).returned = s.returned ∧
    (fetcherReset d s).presented = s.presented ∧
    (fetcherReset d s).pending = s.pending := by
  refine ⟨rfl, rfl, rfl, rfl, rfl, rfl, rfl, rfl, rfl, rfl, rfl, rfl, rfl, rfl, rfl, rfl, rfl, rfl, rfl, rfl, rfl, rfl, rfl, rfl, rfl, rfl, rfl, rfl, rfl, rfl, rfl, rfl⟩

@[simp] theorem hostWriteVram_fields (s : State) (o : BitVec 13) (v : Byte) :
    (hostWriteVram s o v).lcdc = s.lcdc ∧
    (hostWriteVram s o v).statLycInt = s.statLycInt ∧
    (hostWriteVram s o v).statOamInt = s.statOamInt ∧
    (hostWriteVram s o v).statVblankInt = s.statVblankInt ∧
    (hostWriteVram s o v).statHblankInt = s.statHblankInt ∧
    (hostWriteVram s o v).statLycFlag = s.statLycFlag ∧
    (hostWriteVram s o v).mode = s.mode ∧
    (hostWriteVram s o v).scy = s.scy ∧
    (hostWriteVram s o v).scx = s.scx ∧
    (hostWriteVram s o v).ly = s.ly ∧
    (hostWriteVram s o v).lyc = s.lyc ∧
    (hostWriteVram s o v).bgp = s.bgp ∧
    (hostWriteVram s o v).obp0 = s.obp0 ∧
    (hostWriteVram s o v).obp1 = s.obp1 ∧
    (hostWriteVram s o v).wy = s.wy ∧
    (hostWriteVram s o v).wx = s.wx ∧
    (hostWriteVram s o v).engineOn = s.engineOn ∧
    (hostWriteVram s o v).lineDot = s.lineDot ∧
    (hostWriteVram s o v).drawDots = s.drawDots ∧
    (hostWriteVram s o v).windowLine = s.windowLine ∧
    (hostWriteVram s o v).winLineOk = s.winLineOk ∧
    (hostWriteVram s o v).scanY = s.scanY ∧
    (hostWriteVram s o v).scanX = s.scanX ∧
    (hostWriteVram s o v).sel = s.sel ∧
    (hostWriteVram s o v).pipe = s.pipe ∧
    (hostWriteVram s o v).fb = s.fb ∧
    (hostWriteVram s o v).vram = Memory.write s.vram (0x8000 + o.toNat) v ∧
    (hostWriteVram s o v).oam = s.oam ∧
    (hostWriteVram s o v).iflag = s.iflag ∧
    (hostWriteVram s o v).returned = s.returned ∧
    (hostWriteVram s o v).presented = s.presented ∧
    (hostWriteVram s o v).pending = s.pending := by
  refine ⟨rfl, rfl, rfl, rfl, rfl, rfl, rfl, rfl, rfl, rfl, rfl, rfl, rfl, rfl, rfl, rfl, rfl, rfl, rfl, rfl, rfl, rfl, rfl, rfl, rfl, rfl, rfl, rfl, rfl, rfl, rfl, rfl⟩

@[simp] theorem hostWriteOam_fields (s : State) (o : Fin 160) (v : Byte) :
    (hostWriteOam s o v).lcdc = s.lcdc ∧
    (hostWriteOam s o v).statLycInt = s.statLycInt ∧
    (hostWriteOam s o v).statOamInt = s.statOamInt ∧
    (hostWriteOam s o v).statVblankInt = s.statVblankInt ∧
    (hostWriteOam s o v).statHblankInt = s.statHblankInt ∧
    (hostWriteOam s o v).statLycFlag = s.statLycFlag ∧
    (hostWriteOam s o v).mode = s.mode ∧
    (hostWriteOam s o v).scy = s.scy ∧
    (hostWriteOam s o v).scx = s.scx ∧
    (hostWriteOam s o v).ly = s.ly ∧
    (hostWriteOam s o v).lyc = s.lyc ∧
    (hostWriteOam s o v).bgp = s.bgp ∧
    (hostWriteOam s o v).obp0 = s.obp0 ∧
    (hostWriteOam s o v).obp1 = s.obp1 ∧
    (hostWriteOam s o v).wy = s.wy ∧
    (hostWriteOam s o v).wx = s.wx ∧
    (hostWriteOam s o v).engineOn = s.engineOn ∧
    (hostWriteOam s o v).lineDot = s.lineDot ∧
    (hostWriteOam s o v).drawDots = s.drawDots ∧
    (hostWriteOam s o v).windowLine = s.windowLine ∧
    (hostWriteOam s o v).winLineOk = s.winLineOk ∧
    (hostWriteOam s o v).scanY = s.scanY ∧
    (hostWriteOam s o v).scanX = s.scanX ∧
    (hostWriteOam s o v).sel = s.sel ∧
    (hostWriteOam s o v).pipe = s.pipe ∧
    (hostWriteOam s o v).fb = s.fb ∧
    (hostWriteOam s o v).vram = s.vram ∧
    (hostWriteOam s o v).oam = Memory.write s.oam o.val v ∧
    (hostWriteOam s o v).iflag = s.iflag ∧
    (hostWriteOam s o v).returned = s.returned ∧
    (hostWriteOam s o v).presented = s.presented ∧
    (hostWriteOam s o v).pending = s.pending := by
  refine ⟨rfl, rfl, rfl, rfl, rfl, rfl, rfl, rfl, rfl, rfl, rfl, rfl, rfl, rfl, rfl, rfl, rfl, rfl, rfl, rfl, rfl, rfl, rfl, rfl, rfl, rfl, rfl, rfl, rfl, rfl, rfl, rfl⟩

@[simp] theorem hostWriteInterruptFlag_fields (s : State) (v : Byte) :
    (hostWriteInterruptFlag s v).lcdc = s.lcdc ∧
    (hostWriteInterruptFlag s v).statLycInt = s.statLycInt ∧
    (hostWriteInterruptFlag s v).statOamInt = s.statOamInt ∧
    (hostWriteInterruptFlag s v).statVblankInt = s.statVblankInt ∧
    (hostWriteInterruptFlag s v).statHblankInt = s.statHblankInt ∧
    (hostWriteInterruptFlag s v).statLycFlag = s.statLycFlag ∧
    (hostWriteInterruptFlag s v).mode = s.mode ∧
    (hostWriteInterruptFlag s v).scy = s.scy ∧
    (hostWriteInterruptFlag s v).scx = s.scx ∧
    (hostWriteInterruptFlag s v).ly = s.ly ∧
    (hostWriteInterruptFlag s v).lyc = s.lyc ∧
    (hostWriteInterruptFlag s v).bgp = s.bgp ∧
    (hostWriteInterruptFlag s v).obp0 = s.obp0 ∧
    (hostWriteInterruptFlag s v).obp1 = s.obp1 ∧
    (hostWriteInterruptFlag s v).wy = s.wy ∧
    (hostWriteInterruptFlag s v).wx = s.wx ∧
    (hostWriteInterruptFlag s v).engineOn = s.engineOn ∧
    (hostWriteInterruptFlag s v).lineDot = s.lineDot ∧
    (hostWriteInterruptFlag s v).drawDots = s.drawDots ∧
    (hostWriteInterruptFlag s v).windowLine = s.windowLine ∧
    (hostWriteInterruptFlag s v).winLineOk = s.winLineOk ∧
    (hostWriteInterruptFlag s v).scanY = s.scanY ∧
    (hostWriteInterruptFlag s v).scanX = s.scanX ∧
    (hostWriteInterruptFlag s v).sel = s.sel ∧
    (hostWriteInterruptFlag s v).pipe = s.pipe ∧
    (hostWriteInterruptFlag s v).fb = s.fb ∧
    (hostWriteInterruptFlag s v).vram = s.vram ∧
    (hostWriteInterruptFlag s v).oam = s.oam ∧
    (hostWriteInterruptFlag s v).iflag = v ∧
    (hostWriteInterruptFlag s v).returned = s.returned ∧
    (hostWriteInterruptFlag s v).presented = s.presented ∧
    (hostWriteInterruptFlag s v).pending = s.pending := by
  refine ⟨rfl, rfl, rfl, rfl, rfl, rfl, rfl, rfl, rfl, rfl, rfl, rfl, rfl, rfl, rfl, rfl, rfl, rfl, rfl, rfl, rfl, rfl, rfl, rfl, rfl, rfl, rfl, rfl, rfl, rfl, rfl, rfl⟩

@[simp] theorem lcdEnable_fields (s : State) :
    (Sys2Proof.Machine.lcdEnable s).lcdc = s.lcdc ∧
    (Sys2Proof.Machine.lcdEnable s).statLycInt = s.statLycInt ∧
    (Sys2Proof.Machine.lcdEnable s).statOamInt = s.statOamInt ∧
    (Sys2Proof.Machine.lcdEnable s).statVblankInt = s.statVblankInt ∧
    (Sys2Proof.Machine.lcdEnable s).statHblankInt = s.statHblankInt ∧
    (Sys2Proof.Machine.lcdEnable s).statLycFlag = s.statLycFlag ∧
    (Sys2Proof.Machine.lcdEnable s).mode = s.mode ∧
    (Sys2Proof.Machine.lcdEnable s).scy = s.scy ∧
    (Sys2Proof.Machine.lcdEnable s).scx = s.scx ∧
    (Sys2Proof.Machine.lcdEnable s).ly = 0 ∧
    (Sys2Proof.Machine.lcdEnable s).lyc = s.lyc ∧
    (Sys2Proof.Machine.lcdEnable s).bgp = s.bgp ∧
    (Sys2Proof.Machine.lcdEnable s).obp0 = s.obp0 ∧
    (Sys2Proof.Machine.lcdEnable s).obp1 = s.obp1 ∧
    (Sys2Proof.Machine.lcdEnable s).wy = s.wy ∧
    (Sys2Proof.Machine.lcdEnable s).wx = s.wx ∧
    (Sys2Proof.Machine.lcdEnable s).engineOn = true ∧
    (Sys2Proof.Machine.lcdEnable s).lineDot = 0 ∧
    (Sys2Proof.Machine.lcdEnable s).drawDots = s.drawDots ∧
    (Sys2Proof.Machine.lcdEnable s).windowLine = s.windowLine ∧
    (Sys2Proof.Machine.lcdEnable s).winLineOk = s.winLineOk ∧
    (Sys2Proof.Machine.lcdEnable s).scanY = s.scanY ∧
    (Sys2Proof.Machine.lcdEnable s).scanX = s.scanX ∧
    (Sys2Proof.Machine.lcdEnable s).sel = s.sel ∧
    (Sys2Proof.Machine.lcdEnable s).pipe = s.pipe ∧
    (Sys2Proof.Machine.lcdEnable s).fb = s.fb ∧
    (Sys2Proof.Machine.lcdEnable s).vram = s.vram ∧
    (Sys2Proof.Machine.lcdEnable s).oam = s.oam ∧
    (Sys2Proof.Machine.lcdEnable s).iflag = s.iflag ∧
    (Sys2Proof.Machine.lcdEnable s).returned = s.returned ∧
    (Sys2Proof.Machine.lcdEnable s).presented = s.presented ∧
    (Sys2Proof.Machine.lcdEnable s).pending = s.pending := by
  refine ⟨rfl, rfl, rfl, rfl, rfl, rfl, rfl, rfl, rfl, rfl, rfl, rfl, rfl, rfl, rfl, rfl, rfl, rfl, rfl, rfl, rfl, rfl, rfl, rfl, rfl, rfl, rfl, rfl, rfl, rfl, rfl, rfl⟩

@[simp] theorem restartFetch_fields (s : State) :
    (restartFetch s).lcdc = s.lcdc ∧
    (restartFetch s).statLycInt = s.statLycInt ∧
    (restartFetch s).statOamInt = s.statOamInt ∧
    (restartFetch s).statVblankInt = s.statVblankInt ∧
    (restartFetch s).statHblankInt = s.statHblankInt ∧
    (restartFetch s).statLycFlag = s.statLycFlag ∧
    (restartFetch s).mode = s.mode ∧
    (restartFetch s).scy = s.scy ∧
    (restartFetch s).scx = s.scx ∧
    (restartFetch s).ly = s.ly ∧
    (restartFetch s).lyc = s.lyc ∧
    (restartFetch s).bgp = s.bgp ∧
    (restartFetch s).obp0 = s.obp0 ∧
    (restartFetch s).obp1 = s.obp1 ∧
    (restartFetch s).wy = s.wy ∧
    (restartFetch s).wx = s.wx ∧
    (restartFetch s).engineOn = s.engineOn ∧
    (restartFetch s).lineDot = s.lineDot ∧
    (restartFetch s).drawDots = s.drawDots ∧
    (restartFetch s).windowLine = s.windowLine ∧
    (restartFetch s).winLineOk = s.winLineOk ∧
    (restartFetch s).scanY = s.scanY ∧
    (restartFetch s).scanX = s.scanX ∧
    (restartFetch s).sel = s.sel ∧
    (restartFetch s).fb = s.fb ∧
    (restartFetch s).vram = s.vram ∧
    (restartFetch s).oam = s.oam ∧
    (restartFetch s).iflag = s.iflag ∧
    (restartFetch s).returned = s.returned ∧
    (restartFetch s).presented = s.presented ∧
    (restartFetch s).pending = s.pending ∧
    (restartFetch s).pipe.phase = .getTile ∧
    (restartFetch s).pipe.phaseDot = 0 ∧
    (restartFetch s).pipe.inWindow = s.pipe.inWindow ∧
    (restartFetch s).pipe.fetchX = s.pipe.fetchX ∧
    (restartFetch s).pipe.mapAddr = s.pipe.mapAddr ∧
    (restartFetch s).pipe.tileLine = s.pipe.tileLine ∧
    (restartFetch s).pipe.tileAddr = s.pipe.tileAddr ∧
    (restartFetch s).pipe.lo = s.pipe.lo ∧
    (restartFetch s).pipe.hi = s.pipe.hi ∧
    (restartFetch s).pipe.discard = s.pipe.discard ∧
    (restartFetch s).pipe.pushX = s.pipe.pushX ∧
    (restartFetch s).pipe.outputX = s.pipe.outputX ∧
    (restartFetch s).pipe.run = [] ∧
    (restartFetch s).pipe.bgFifo = s.pipe.bgFifo ∧
    (restartFetch s).pipe.spFifo = s.pipe.spFifo ∧
    (restartFetch s).pipe.spPtr = s.pipe.spPtr ∧
    (restartFetch s).pipe.sfetchLeft = s.pipe.sfetchLeft ∧
    (restartFetch s).pipe.sfetchCur = s.pipe.sfetchCur := by
  refine ⟨rfl, rfl, rfl, rfl, rfl, rfl, rfl, rfl, rfl, rfl, rfl, rfl, rfl, rfl, rfl, rfl, rfl, rfl, rfl, rfl, rfl, rfl, rfl, rfl, rfl, rfl, rfl, rfl, rfl, rfl, rfl, rfl, rfl, rfl, rfl, rfl, rfl, rfl, rfl, rfl, rfl, rfl, rfl, rfl, rfl, rfl, rfl, rfl, rfl⟩

@[simp] theorem enterWindow_fields (s : State) :
    (enterWindow s).lcdc = s.lcdc ∧
    (enterWindow s).statLycInt = s.statLycInt ∧
    (enterWindow s).statOamInt = s.statOamInt ∧
    (enterWindow s).statVblankInt = s.statVblankInt ∧
    (enterWindow s).statHblankInt = s.statHblankInt ∧
    (enterWindow s).statLycFlag = s.statLycFlag ∧
    (enterWindow s).mode = s.mode ∧
    (enterWindow s).scy = s.scy ∧
    (enterWindow s).scx = s.scx ∧
    (enterWindow s).ly = s.ly ∧
    (enterWindow s).lyc = s.lyc ∧
    (enterWindow s).bgp = s.bgp ∧
    (enterWindow s).obp0 = s.obp0 ∧
    (enterWindow s).obp1 = s.obp1 ∧
    (enterWindow s).wy = s.wy ∧
    (enterWindow s).wx = s.wx ∧
    (enterWindow s).engineOn = s.engineOn ∧
    (enterWindow s).lineDot = s.lineDot ∧
    (enterWindow s).drawDots = s.drawDots ∧
    (enterWindow s).windowLine = s.windowLine ∧
    (enterWindow s).winLineOk = s.winLineOk ∧
    (enterWindow s).scanY = s.scanY ∧
    (enterWindow s).scanX = s.scanX ∧
    (enterWindow s).sel = s.sel ∧
    (enterWindow s).fb = s.fb ∧
    (enterWindow s).vram = s.vram ∧
    (enterWindow s).oam = s.oam ∧
    (enterWindow s).iflag = s.iflag ∧
    (enterWindow s).returned = s.returned ∧
    (enterWindow s).presented = s.presented ∧
    (enterWindow s).pending = s.pending ∧
    (enterWindow s).pipe.phase = .getTile ∧
    (enterWindow s).pipe.phaseDot = 0 ∧
    (enterWindow s).pipe.inWindow = true ∧
    (enterWindow s).pipe.fetchX = s.pipe.fetchX ∧
    (enterWindow s).pipe.mapAddr = s.pipe.mapAddr ∧
    (enterWindow s).pipe.tileLine = s.pipe.tileLine ∧
    (enterWindow s).pipe.tileAddr = s.pipe.tileAddr ∧
    (enterWindow s).pipe.lo = s.pipe.lo ∧
    (enterWindow s).pipe.hi = s.pipe.hi ∧
    (enterWindow s).pipe.discard = s.pipe.discard ∧
    (enterWindow s).pipe.pushX = s.pipe.pushX ∧
    (enterWindow s).pipe.outputX = s.pipe.outputX ∧
    (enterWindow s).pipe.run = [] ∧
    (enterWindow s).pipe.bgFifo = s.pipe.bgFifo ∧
    (enterWindow s).pipe.spFifo = s.pipe.spFifo ∧
    (enterWindow s).pipe.spPtr = s.pipe.spPtr ∧
    (enterWindow s).pipe.sfetchLeft = s.pipe.sfetchLeft ∧
    (enterWindow s).pipe.sfetchCur = s.pipe.sfetchCur := by
  refine ⟨rfl, rfl, rfl, rfl, rfl, rfl, rfl, rfl, rfl, rfl, rfl, rfl, rfl, rfl, rfl, rfl, rfl, rfl, rfl, rfl, rfl, rfl, rfl, rfl, rfl, rfl, rfl, rfl, rfl, rfl, rfl, rfl, rfl, rfl, rfl, rfl, rfl, rfl, rfl, rfl, rfl, rfl, rfl, rfl, rfl, rfl, rfl, rfl, rfl⟩

@[simp] theorem requestIf_fields (e : Bool) (k : Interrupt) (s : State) :
    (requestIf e k s).lcdc = s.lcdc ∧
    (requestIf e k s).statLycInt = s.statLycInt ∧
    (requestIf e k s).statOamInt = s.statOamInt ∧
    (requestIf e k s).statVblankInt = s.statVblankInt ∧
    (requestIf e k s).statHblankInt = s.statHblankInt ∧
    (requestIf e k s).statLycFlag = s.statLycFlag ∧
    (requestIf e k s).mode = s.mode ∧
    (requestIf e k s).scy = s.scy ∧
    (requestIf e k s).scx = s.scx ∧
    (requestIf e k s).ly = s.ly ∧
    (requestIf e k s).lyc = s.lyc ∧
    (requestIf e k s).bgp = s.bgp ∧
    (requestIf e k s).obp0 = s.obp0 ∧
    (requestIf e k s).obp1 = s.obp1 ∧
    (requestIf e k s).wy = s.wy ∧
    (requestIf e k s).wx = s.wx ∧
    (requestIf e k s).engineOn = s.engineOn ∧
    (requestIf e k s).lineDot = s.lineDot ∧
    (requestIf e k s).drawDots = s.drawDots ∧
    (requestIf e k s).windowLine = s.windowLine ∧
    (requestIf e k s).winLineOk = s.winLineOk ∧
    (requestIf e k s).scanY = s.scanY ∧
    (requestIf e k s).scanX = s.scanX ∧
    (requestIf e k s).sel = s.sel ∧
    (requestIf e k s).pipe = s.pipe ∧
    (requestIf e k s).fb = s.fb ∧
    (requestIf e k s).vram = s.vram ∧
    (requestIf e k s).oam = s.oam ∧
    (requestIf e k s).returned = s.returned ∧
    (requestIf e k s).presented = s.presented ∧
    (requestIf e k s).pending = s.pending := by
  cases e <;> refine ⟨rfl, rfl, rfl, rfl, rfl, rfl, rfl, rfl, rfl, rfl, rfl, rfl, rfl, rfl, rfl, rfl, rfl, rfl, rfl, rfl, rfl, rfl, rfl, rfl, rfl, rfl, rfl, rfl, rfl, rfl, rfl⟩

@[simp] theorem requestIf_iflag (e : Bool) (k : Interrupt) (s : State) :
    (requestIf e k s).iflag = if e then s.iflag ||| k.bit else s.iflag := by
  cases e <;> rfl

end Sys2Proof.Machine
end

