-- ==== Sys2Proof/Laws/Dots.lean ====
section
/-! SUPPORT. The parts of a line's first dot and of the scan's end, each as one record update (R99 to R103). -/

namespace Sys2Proof.Machine

theorem requestIf_eq (e : Bool) (k : Interrupt) (s : State) :
    requestIf e k s = { s with iflag := if e then s.iflag ||| k.bit else s.iflag } := by
  cases e <;> rfl

theorem lycCompare_eq (s : State) :
    lycCompare s = { s with
      statLycFlag := decide (s.ly = s.lyc)
      iflag := if decide (s.ly = s.lyc) && s.statLycInt then s.iflag ||| 0x02 else s.iflag } := by
  unfold lycCompare
  rw [requestIf_eq]
  rfl

theorem enterOamScan_eq (s : State) :
    enterOamScan s = { s with
      mode := .oamScan, sel := [], scanY := 0, scanX := 0
      iflag := if s.statOamInt then s.iflag ||| 0x02 else s.iflag
      winLineOk := s.winEnable && decide (s.wy.toNat ≤ s.ly.toNat) } := by
  unfold enterOamScan
  rw [requestIf_eq]
  rfl

theorem enterVblank_eq (s : State) :
    enterVblank s = { s with
      mode := .vblank, presented := s.fb :: s.presented
      iflag := if s.statVblankInt then s.iflag ||| 0x01 ||| 0x02 else s.iflag ||| 0x01 } := by
  unfold enterVblank
  rw [requestIf_eq]
  rfl

theorem endOamScan_eq (s : State) :
    endOamScan s = { s with
      mode := .draw, sel := sortSprites s.sel, drawDots := 0
      pipe := { Pipeline.reset with discard := s.scx.extractLsb' 0 3, sfetchCur := s.pipe.sfetchCur } } := rfl

/-- The line start on a visible line (R99, R100). -/
theorem lineStart_visible {s : State} (h : s.ly.toNat < 144) : lineStart s = enterOamScan (lycCompare s) := by
  unfold lineStart
  rw [lycCompare_eq]
  exact if_pos h

/-- The line start on line 144 (R99, R102). -/
theorem lineStart_144 {s : State} (h : s.ly.toNat = 144) : lineStart s = enterVblank (lycCompare s) := by
  unfold lineStart
  rw [lycCompare_eq]
  exact (if_neg (by simp only [screenH]; omega)).trans (if_pos h)

/-- The line start on a later line is the LYC compare alone (R99, R102). -/
theorem lineStart_later {s : State} (h : 144 < s.ly.toNat) : lineStart s = lycCompare s := by
  unfold lineStart
  rw [lycCompare_eq]
  exact (if_neg (by simp only [screenH]; omega)).trans (if_neg (by simp only [screenH]; omega))

/-- A dot inside a line: the mode handler and the end of the dot (R98). -/
theorem dotStep_inside {s : State} (hon : s.engineOn = true) (h : s.lineDot ≠ 0) :
    dotStep s = (modeDot s >>= endOfDot) := by
  unfold dotStep lineStartIfDue
  rw [if_pos hon, if_neg h]

/-- The end of a dot that is not the line's last (R106). -/
theorem endOfDot_inside {s : State} (h : s.lineDot ≠ 455) : endOfDot s = .ok { s with lineDot := s.lineDot + 1 } := by
  unfold endOfDot
  rw [if_neg (by simp only [dotsPerLine]; omega)]

end Sys2Proof.Machine
end

