-- ==== Sys2Proof/Laws/Memory.lean ====
section
/-! SUPPORT. The laws of the byte memories and of the frame buffer: read after write, frame, canonical form. -/

namespace Sys2Proof.Machine

theorem get_put_same (m : Memory) (k : Nat) (v : Byte) : Memory.get? (Memory.put m k v) k = some v := by
  induction m with
  | nil => simp [Memory.put, Memory.get?]
  | cons c m ih =>
    obtain ⟨a, b⟩ := c
    by_cases h1 : k < a
    · simp [Memory.put, Memory.get?, h1]
    · by_cases h2 : a = k <;> simp [Memory.put, Memory.get?, h1, h2, ih]

theorem get_put_other (m : Memory) {k j : Nat} (v : Byte) (h : j ≠ k) :
    Memory.get? (Memory.put m k v) j = Memory.get? m j := by
  induction m with
  | nil => simp [Memory.put, Memory.get?, Ne.symm h]
  | cons c m ih =>
    obtain ⟨a, b⟩ := c
    by_cases h1 : k < a
    · simp [Memory.put, Memory.get?, h1, Ne.symm h]
    · by_cases h2 : a = k
      · subst h2; simp [Memory.put, Memory.get?, Ne.symm h]
      · simp [Memory.put, Memory.get?, h1, h2, ih]

theorem get_erase_same (m : Memory) (k : Nat) : Memory.get? (Memory.erase m k) k = none := by
  induction m with
  | nil => rfl
  | cons c m ih =>
    obtain ⟨a, b⟩ := c
    by_cases h : a = k
    · simp [Memory.erase, h] at ih ⊢; exact ih
    · simp [Memory.erase, Memory.get?, h] at ih ⊢; exact ih

theorem get_erase_other (m : Memory) {k j : Nat} (h : j ≠ k) :
    Memory.get? (Memory.erase m k) j = Memory.get? m j := by
  induction m with
  | nil => rfl
  | cons c m ih =>
    obtain ⟨a, b⟩ := c
    by_cases h1 : a = k
    · subst h1; simp [Memory.erase, Memory.get?, Ne.symm h] at ih ⊢; exact ih
    · simp [Memory.erase, Memory.get?, h1] at ih ⊢; rw [ih]

/-- Reading after a write gives the byte written at its address, and the old byte at every other one. -/
theorem read_write (m : Memory) (k j : Nat) (v : Byte) :
    Memory.read (Memory.write m k v) j = if j = k then v else Memory.read m j := by
  by_cases hv : v = Config.unlistedByte <;> by_cases h : j = k
  · subst h; simp [Memory.read, Memory.write, hv, get_erase_same]
  · simp [Memory.read, Memory.write, hv, h, get_erase_other]
  · subst h; simp [Memory.read, Memory.write, hv, get_put_same]
  · simp [Memory.read, Memory.write, hv, h, get_put_other]

/-- Reading the frame buffer after a write. -/
theorem fb_read_write (f : FrameBuffer) (i j : Nat) (v : Byte) :
    FrameBuffer.read (FrameBuffer.write f i v) j = if j = i then v else FrameBuffer.read f j := by
  by_cases h : j = i
  · subst h; simp [FrameBuffer.read, FrameBuffer.write, get_put_same]
  · simp [FrameBuffer.read, FrameBuffer.write, h, get_put_other]

theorem mem_put {m : Memory} {k : Nat} {v : Byte} {c : Host.Cell} (h : c ∈ Memory.put m k v) :
    c = (k, v) ∨ c ∈ m := by
  induction m with
  | nil => simpa [Memory.put] using h
  | cons d m ih =>
    obtain ⟨a, b⟩ := d
    simp only [Memory.put] at h
    split at h
    · simpa using h
    · split at h
      · rcases List.mem_cons.1 h with h | h
        · exact .inl h
        · exact .inr (List.mem_cons_of_mem _ h)
      · rcases List.mem_cons.1 h with h | h
        · exact .inr (by simp [h])
        · exact (ih h).imp id (List.mem_cons_of_mem _)

/-- Setting a byte keeps the addresses strictly rising. -/
theorem put_rising {m : Memory} (k : Nat) (v : Byte) (h : (m.map Prod.fst).Pairwise (· < ·)) :
    ((Memory.put m k v).map Prod.fst).Pairwise (· < ·) := by
  induction m with
  | nil => simp [Memory.put]
  | cons d m ih =>
    obtain ⟨a, b⟩ := d
    simp only [List.map_cons, List.pairwise_cons, List.mem_map] at h
    obtain ⟨hd, ht⟩ := h
    simp only [Memory.put]
    split
    · rename_i hk
      simp only [List.map_cons, List.pairwise_cons, List.mem_cons, List.mem_map]
      refine ⟨?_, hd, ht⟩
      rintro x (rfl | ⟨c, hc, rfl⟩)
      · exact hk
      · exact lt_trans hk (hd _ ⟨c, hc, rfl⟩)
    · split
      · rename_i _ hk
        subst hk
        simpa only [List.map_cons, List.pairwise_cons, List.mem_map] using ⟨hd, ht⟩
      · rename_i h1 h2
        simp only [List.map_cons, List.pairwise_cons, List.mem_map]
        refine ⟨?_, ih ht⟩
        rintro x ⟨c, hc, rfl⟩
        rcases mem_put hc with rfl | hc
        · exact lt_of_le_of_ne (not_lt.1 h1) h2
        · exact hd _ ⟨c, hc, rfl⟩

/-- A memory write keeps the canonical form. -/
theorem write_wf {lo hi : Nat} {m : Memory} {k : Nat} (v : Byte) (h : Memory.wf lo hi m) (hk : lo ≤ k ∧ k ≤ hi) :
    Memory.wf lo hi (Memory.write m k v) := by
  unfold Memory.write
  split
  · refine ⟨?_, fun c hc => h.2 c (List.mem_filter.1 hc).1⟩
    exact List.Pairwise.sublist (List.Sublist.map _ List.filter_sublist) h.1
  · rename_i hv
    refine ⟨put_rising k v h.1, fun c hc => ?_⟩
    rcases mem_put hc with rfl | hc
    · exact ⟨hk.1, hk.2, hv⟩
    · exact h.2 c hc

/-- A frame-buffer write keeps the canonical form. -/
theorem fb_write_wf {f : FrameBuffer} {i : Nat} (v : Byte) (h : FrameBuffer.wf f) (hi : i < screenW * screenH) :
    FrameBuffer.wf (FrameBuffer.write f i v) := by
  refine ⟨put_rising i v h.1, fun c hc => ?_⟩
  rcases mem_put hc with rfl | hc
  · exact hi
  · exact h.2 c hc

/-- What a read of VRAM answers (R11, R43). -/
theorem readVram_ok {s : State} {a : Addr} (h : 0x8000 ≤ a.toNat ∧ a.toNat ≤ 0x9FFF) :
    readVram s a = .ok (Memory.read s.vram a.toNat) := by
  simp [readVram, h]

/-- What a read of OAM answers (R11, R44). -/
theorem readOam_ok {s : State} {o : Nat} (h : o < 160) : readOam s o = .ok (Memory.read s.oam o) := by
  simp [readOam, h]

/-- What a frame-buffer write answers (R159). -/
theorem fbWrite_ok {s : State} {i : Nat} {v : Byte} (h : i < 23040) :
    fbWrite s i v = .ok { s with fb := FrameBuffer.write s.fb i v } := by
  simp [fbWrite, h]

end Sys2Proof.Machine
end

