-- ==== Sys2Proof/Laws/Drain.lean ====
section
/-! SUPPORT. What the drain loop of a Push can do: the sprite check (R141), one drained pixel (R132), and the loop
(R129), each said once. -/

namespace Sys2Proof.Machine

/-! ### The sprite check -/

/-- The sprite check with `n` sprites left to consider: either it passes over some sprites (only while OBJ_ENABLE is 0)
and no sprite starts, the next one not being at `push_x`; or the next sprite is at `push_x` and its fetch starts. -/
theorem spriteCheckLoop_cases (n : Nat) (s : State) (hn : s.sel.length - s.pipe.spPtr ≤ n) :
    (∃ k, s.pipe.spPtr ≤ k ∧ (k ≤ s.sel.length ∨ k = s.pipe.spPtr) ∧
      (∀ a, s.sel[k]? = some a → a.triggerX ≠ (s.pipe.pushX : Int)) ∧
      (s.objEnable = true → k = s.pipe.spPtr) ∧
      spriteCheckLoop n s = (false, { s with pipe.spPtr := k })) ∨
    (∃ a, s.sel[s.pipe.spPtr]? = some a ∧ a.triggerX = (s.pipe.pushX : Int) ∧ s.objEnable = true ∧
      spriteCheckLoop n s =
        (true, { s with pipe.spPtr := s.pipe.spPtr + 1, pipe.sfetchCur := a, pipe.sfetchLeft := spriteFetchDots })) := by
  induction n generalizing s with
  | zero =>
    refine .inl ⟨s.pipe.spPtr, le_rfl, .inr rfl, fun a ha => ?_, fun _ => rfl, rfl⟩
    have := (List.getElem?_eq_some_iff.1 ha).1
    omega
  | succ n ih =>
    rw [spriteCheckLoop]
    cases ha : s.sel[s.pipe.spPtr]? with
    | none => exact .inl ⟨s.pipe.spPtr, le_rfl, .inr rfl, fun a h => by simp [ha] at h, fun _ => rfl, rfl⟩
    | some a =>
      have hlt := (List.getElem?_eq_some_iff.1 ha).1
      by_cases ht : a.triggerX = (s.pipe.pushX : Int)
      · by_cases ho : s.objEnable = true
        · exact .inr ⟨a, rfl, ht, ho, by simp [ht, ho]⟩
        · simp only [ht, ho, if_true]
          rcases ih { s with pipe.spPtr := s.pipe.spPtr + 1 } (by simp only; omega) with h | h
          · obtain ⟨k, h1, h2, h3, h4, h5⟩ := h
            exact .inl ⟨k, by simp only at h1; omega, by simp only at h2; omega, h3, fun h => Bool.noConfusion h, h5⟩
          · obtain ⟨b, _, _, h3, _⟩ := h
            exact absurd h3 ho
      · refine .inl ⟨s.pipe.spPtr, le_rfl, .inr rfl, fun b hb => ?_, fun _ => rfl, by simp [ht]⟩
        rw [ha] at hb
        cases hb
        exact ht

/-- The sprite check (R141). -/
theorem spriteCheck_cases (s : State) :
    (∃ k, s.pipe.spPtr ≤ k ∧ (k ≤ s.sel.length ∨ k = s.pipe.spPtr) ∧
      (∀ a, s.sel[k]? = some a → a.triggerX ≠ (s.pipe.pushX : Int)) ∧
      (s.objEnable = true → k = s.pipe.spPtr) ∧
      spriteCheck s = (false, { s with pipe.spPtr := k })) ∨
    (∃ a, s.sel[s.pipe.spPtr]? = some a ∧ a.triggerX = (s.pipe.pushX : Int) ∧ s.objEnable = true ∧
      spriteCheck s =
        (true, { s with pipe.spPtr := s.pipe.spPtr + 1, pipe.sfetchCur := a, pipe.sfetchLeft := spriteFetchDots })) :=
  spriteCheckLoop_cases _ s le_rfl

/-! ### One drained pixel -/

/-- Draining one pixel keeps the FIFOs aligned (R36, R132). -/
theorem drainOne_aligned {c : Colour} {rest : List Colour} {s : State} (h : FifoAligned s.pipe)
    (hp : s.pipe.pushX < screenW) : FifoAligned (drainOne c rest s).pipe := by
  obtain ⟨h1, h2, h3, h4, h5⟩ := h
  simp only [screenW] at h1 hp h4
  by_cases hl : s.pipe.outputX + s.pipe.spFifo.length ≤ s.pipe.pushX
  · have he : s.pipe.pushX = s.pipe.outputX + s.pipe.spFifo.length := by omega
    constructor <;> simp only [drainOne, Fifo.pushBack, hl, if_true, List.length_append, List.length_singleton, screenW]
    · omega
    · omega
    · omega
    · omega
    · rw [List.map_append, h5, List.range'_1_concat]
      simp [SpritePixel.x, he]
  · constructor <;> simp only [drainOne, Fifo.pushBack, hl, if_false, List.length_append, List.length_singleton, screenW]
    · omega
    · omega
    · omega
    · omega
    · exact h5

/-! ### The loop -/

/-- The state in the middle of a drain: what stays true from pixel to pixel. -/
structure Draining (s : State) : Prop where
  phase : s.pipe.phase = .push
  phaseDot : s.pipe.phaseDot = 0
  idle : s.pipe.sfetchLeft = 0
  fifos : FifoAligned s.pipe
  run_le : s.pipe.bgFifo.length + s.pipe.run.length ≤ 8
  bg_pixels : ∀ q ∈ s.pipe.bgFifo, q.blank = false ∧ q.pal = .bg
  sp_pixels : ∀ q ∈ s.pipe.spFifo, q.legal
  ptr_le : s.pipe.spPtr ≤ s.sel.length
  sorted : s.sel.Pairwise fun a b => a.x ≤ b.x
  not_missed : ∀ a ∈ s.sel.drop s.pipe.spPtr, (s.pipe.pushX : Int) ≤ a.triggerX

/-- How a drain that started in `s` ends: all of the run that fits the screen drained; or the window entered; or a
sprite fetch begun with a part of the run held. -/
inductive DrainEnd (s t : State) : Prop where
  | done (hphase : t.pipe.phase = .getTile) (hrun : t.pipe.run = []) (hleft : t.pipe.sfetchLeft = 0)
      (hwin : t.pipe.inWindow = s.pipe.inWindow)
      (hpush : t.pipe.pushX = min screenW (s.pipe.pushX + s.pipe.run.length)) : DrainEnd s t
  | window (hphase : t.pipe.phase = .getTile) (hrun : t.pipe.run = []) (hleft : t.pipe.sfetchLeft = 0)
      (hbefore : s.pipe.inWindow = false) (hwin : t.pipe.inWindow = true) (hpush : t.pipe.pushX < screenW) :
      DrainEnd s t
  | sprite (hphase : t.pipe.phase = .push) (hrun : t.pipe.run ≠ []) (hleft : t.pipe.sfetchLeft = spriteFetchDots)
      (hwin : t.pipe.inWindow = s.pipe.inWindow) (hpush : t.pipe.pushX < screenW)
      (hsum : t.pipe.pushX + t.pipe.run.length = s.pipe.pushX + s.pipe.run.length)
      (hptr : s.pipe.spPtr < t.pipe.spPtr) (hcur : t.pipe.sfetchCur ∈ s.sel)
      (htrig : t.pipe.sfetchCur.triggerX = (t.pipe.pushX : Int)) : DrainEnd s t

/-- The drain loop, said once: only the pipeline changes, the mixer's position and the FIFO alignment stay, no sprite is
missed, and it ends in one of the three ways. -/
theorem drainLoop_spec (n : Nat) (s : State) (hn : s.pipe.run.length ≤ n) (h : Draining s) :
    ∃ p, drainLoop n s = { s with pipe := p } ∧ p.phaseDot = 0 ∧ p.outputX = s.pipe.outputX ∧ p.fetchX = s.pipe.fetchX ∧
      p.discard = s.pipe.discard ∧
      s.pipe.pushX ≤ p.pushX ∧ p.pushX ≤ s.pipe.pushX + s.pipe.run.length ∧ FifoAligned p ∧
      p.bgFifo.length + p.run.length ≤ 8 ∧ (∀ q ∈ p.bgFifo, q.blank = false ∧ q.pal = .bg) ∧ (∀ q ∈ p.spFifo, q.legal) ∧
      p.spPtr ≤ s.sel.length ∧ s.pipe.spPtr ≤ p.spPtr ∧
      (∀ a ∈ s.sel.drop p.spPtr, (p.pushX : Int) ≤ a.triggerX) ∧ DrainEnd s { s with pipe := p } := by
  induction n generalizing s with
  | zero =>
    have hr : s.pipe.run = [] := List.length_eq_zero_iff.1 (by omega)
    obtain ⟨h1, h2, h3, h4, h5, h6, h7, h8, h9, h10⟩ := h
    have := h4.push_le
    refine ⟨(restartFetch s).pipe, rfl, rfl, rfl, rfl, rfl, le_rfl, by simp [restartFetch], ⟨h4.1, h4.2, h4.3, h4.4, h4.5⟩,
      by simp [restartFetch]; omega, h6, h7, h8, le_rfl, h10, ?_⟩
    exact .done rfl rfl h3 rfl (by simp [restartFetch, hr] at this ⊢; omega)
  | succ n ih =>
    have hd := h
    obtain ⟨h1, h2, h3, h4, h5, h6, h7, h8, h9, h10⟩ := h
    rw [drainLoop]
    have hpl := h4.push_le
    cases hr : s.pipe.run with
    | nil =>
      refine ⟨(restartFetch s).pipe, rfl, rfl, rfl, rfl, rfl, le_rfl, by simp [restartFetch],
        ⟨h4.1, h4.2, h4.3, h4.4, h4.5⟩, by simp [restartFetch]; omega, h6, h7, h8, le_rfl, h10, ?_⟩
      exact .done rfl rfl h3 rfl (by simp [restartFetch, hr] at hpl ⊢; omega)
    | cons c rest =>
      simp only
      have hlen : s.pipe.run.length = rest.length + 1 := by simp [hr]
      by_cases hp : s.pipe.pushX < screenW
      · rw [if_pos hp]
        by_cases hw : windowTrigger s = true
        · rw [if_pos hw]
          refine ⟨(enterWindow s).pipe, rfl, rfl, rfl, rfl, rfl, le_rfl, by simp [restartFetch, enterWindow],
            ⟨h4.1, h4.2, h4.3, h4.4, h4.5⟩, by simp [restartFetch, enterWindow]; omega, h6, h7, h8, le_rfl, h10, ?_⟩
          have hb : s.pipe.inWindow = false := by
            simp only [windowTrigger, Bool.and_eq_true, Bool.not_eq_true'] at hw
            exact hw.1.1.1
          exact .window rfl rfl h3 hb rfl hp
        · rw [if_neg hw]
          rcases spriteCheck_cases s with ⟨k, k1, k2, k3, _, k5⟩ | ⟨a, a1, a2, _, a4⟩
          · rw [k5]
            simp only
            have hk : k ≤ s.sel.length := by omega
            have hnm : ∀ a ∈ s.sel.drop k, (s.pipe.pushX : Int) + 1 ≤ a.triggerX := by
              intro a ha
              obtain ⟨i, hi, rfl⟩ := List.getElem_of_mem ha
              simp only [List.length_drop] at hi
              have hk' : k < s.sel.length := by omega
              have hne := k3 s.sel[k] (List.getElem?_eq_getElem hk')
              have hge : (s.pipe.pushX : Int) ≤ (s.sel[k]).triggerX := by
                apply h10
                rw [List.mem_drop_iff_getElem]
                exact ⟨k - s.pipe.spPtr, by omega, by congr 1; omega⟩
              have hle : (s.sel[k]).triggerX ≤ ((s.sel.drop k)[i]).triggerX := by
                rw [List.getElem_drop]
                rcases Nat.eq_zero_or_pos i with rfl | hi0
                · simp
                · have := List.pairwise_iff_getElem.1 h9 k (k + i) hk' (by omega) (by omega)
                  unfold SpriteAttr.triggerX
                  omega
              omega
            have hal := drainOne_aligned (c := c) (rest := rest)
              (s := { s with pipe.spPtr := k }) ⟨h4.1, h4.2, h4.3, h4.4, h4.5⟩ hp
            have hd' : Draining (drainOne c rest { s with pipe.spPtr := k }) := by
              refine ⟨h1, h2, h3, hal, ?_, ?_, ?_, hk, h9, ?_⟩
              · simp [drainOne, Fifo.pushBack]; omega
              · intro q hq
                simp only [drainOne, Fifo.pushBack, List.mem_append, List.mem_singleton] at hq
                rcases hq with hq | rfl
                · exact h6 q hq
                · exact ⟨rfl, rfl⟩
              · intro q hq
                simp only [drainOne, Fifo.pushBack] at hq
                split at hq
                · simp only [List.mem_append, List.mem_singleton] at hq
                  rcases hq with hq | rfl
                  · exact h7 q hq
                  · trivial
                · exact h7 q hq
              · intro a ha
                have := hnm a ha
                simp only [drainOne]
                omega
            obtain ⟨p, q1, q2, q3, q4, q4', q5, q6, q7, q8, q9, q10, q11, q12, q13, q14⟩ :=
              ih (drainOne c rest { s with pipe.spPtr := k }) (by simp [drainOne]; omega) hd'
            simp only [drainOne] at q3 q4 q4' q5 q6 q11 q12 q13
            refine ⟨p, by rw [q1]; rfl, q2, q3, q4, q4', by omega, by simp only [List.length_cons]; omega, q7, q8, q9, q10, q11, by omega, q13, ?_⟩
            cases q14 with
            | done e1 e2 e3 e4 e5 =>
              refine .done e1 e2 e3 e4 ?_
              simp only [drainOne] at e5 ⊢
              rw [e5]; omega
            | window e1 e2 e3 e4 e5 e6 => exact .window e1 e2 e3 e4 e5 e6
            | sprite e1 e2 e3 e4 e5 e6 e7 e8 e9 =>
              refine .sprite e1 e2 e3 e4 e5 ?_ ?_ e8 e9
              · simp only [drainOne] at e6 ⊢
                omega
              · simp only [drainOne] at e7 ⊢
                omega
          · rw [a4]
            simp only
            have hlt := (List.getElem?_eq_some_iff.1 a1).1
            refine ⟨_, rfl, h2, rfl, rfl, rfl, le_rfl, by simp, ⟨h4.1, h4.2, h4.3, h4.4, h4.5⟩, by simpa using h5, h6, h7,
              ?_, ?_, ?_, ?_⟩
            · simp only; omega
            · simp only; omega
            · intro b hb
              exact h10 b (by
                simp only at hb
                rw [← List.drop_drop] at hb
                exact List.mem_of_mem_drop hb)
            · refine .sprite h1 (by simp [hr]) rfl rfl hp rfl (Nat.lt_succ_self _) (List.mem_of_getElem? a1) a2
      · rw [if_neg hp]
        refine ⟨(restartFetch s).pipe, rfl, rfl, rfl, rfl, rfl, le_rfl, by simp [restartFetch],
          ⟨h4.1, h4.2, h4.3, h4.4, h4.5⟩, by simp [restartFetch]; omega, h6, h7, h8, le_rfl, h10, ?_⟩
        exact .done rfl rfl h3 rfl (by simp [restartFetch] at hpl hp ⊢; omega)

/-! ### The pixels drained before the loop stops -/

/-- `s` with the first `n` pixels of its run drained and the sprite pointer at `ptr` (R132). -/
def drained (n ptr : Nat) (s : State) : State :=
  { s with
    pipe.run := s.pipe.run.drop n, pipe.pushX := s.pipe.pushX + n, pipe.spPtr := ptr
    pipe.bgFifo := s.pipe.bgFifo ++ (s.pipe.run.take n).map fun c => { color := c, blank := false, pal := .bg }
    pipe.spFifo := s.pipe.spFifo ++
      (List.range' (s.pipe.outputX + s.pipe.spFifo.length)
        (s.pipe.pushX + n - (s.pipe.outputX + s.pipe.spFifo.length))).map .blank }

/-- Nothing drained. -/
theorem drained_zero {s : State} (h : s.pipe.pushX ≤ s.pipe.outputX + s.pipe.spFifo.length) (ptr : Nat) :
    drained 0 ptr s = { s with pipe.spPtr := ptr } := by
  have : s.pipe.pushX - (s.pipe.outputX + s.pipe.spFifo.length) = 0 := by omega
  simp [drained, this]

/-- One pixel, then `n` more. -/
theorem drained_drainOne {c : Colour} {rest : List Colour} {s : State} (hr : s.pipe.run = c :: rest)
    (h : s.pipe.pushX ≤ s.pipe.outputX + s.pipe.spFifo.length) (n k ptr : Nat) :
    drained n ptr (drainOne c rest { s with pipe.spPtr := k }) = drained (n + 1) ptr s := by
  simp only [drained, drainOne, Fifo.pushBack, hr, List.drop_succ_cons, List.take_succ_cons, List.map_cons,
    List.append_assoc, List.singleton_append, Nat.add_assoc, Nat.add_comm 1 n]
  congr 2
  by_cases hc : s.pipe.outputX + s.pipe.spFifo.length ≤ s.pipe.pushX
  · have he : s.pipe.pushX = s.pipe.outputX + s.pipe.spFifo.length := by omega
    have e1 : s.pipe.pushX + (n + 1) - (s.pipe.outputX + s.pipe.spFifo.length) = n + 1 := by omega
    have e2 : s.pipe.pushX + (n + 1) - (s.pipe.outputX + (s.pipe.spFifo ++ [SpritePixel.blank s.pipe.pushX]).length) =
        n := by simp; omega
    rw [if_pos hc, e1, e2, List.range'_succ, List.map_cons, List.append_assoc, List.singleton_append, ← he]
    simp [he, Nat.add_assoc]
  · rw [if_neg hc]

/-- The loop drains `n` pixels and goes on, where the window triggers at none of them and no sprite fetch starts at one:
either objects are disabled or the next sprite's trigger x is no smaller than the pixel after them (R129, R131, R141). -/
theorem drainLoop_prefix (n k : Nat) (s : State) (hn : n ≤ s.pipe.run.length) (hx : s.pipe.pushX + n ≤ screenW)
    (hl : s.pipe.pushX ≤ s.pipe.outputX + s.pipe.spFifo.length)
    (hw : n = 0 ∨ s.pipe.inWindow = true ∨ s.winEnable = false ∨ s.winLineOk = false ∨
      (s.pipe.pushX : Int) + n ≤ (s.wx.toNat : Int) - 7)
    (hs : s.objEnable = false ∨ ∀ a ∈ s.sel.drop s.pipe.spPtr, (s.pipe.pushX : Int) + n ≤ a.triggerX) :
    ∃ ptr, (s.objEnable = true → ptr = s.pipe.spPtr) ∧ drainLoop (n + k) s = drainLoop k (drained n ptr s) := by
  induction n generalizing s with
  | zero => exact ⟨s.pipe.spPtr, fun _ => rfl, by rw [drained_zero hl, Nat.zero_add]⟩
  | succ n ih =>
    simp only [screenW] at hx
    cases hr : s.pipe.run with
    | nil => rw [hr] at hn; simp at hn
    | cons c rest =>
      rw [hr, List.length_cons] at hn
      have hnw : windowTrigger s = false := by
        unfold windowTrigger
        rcases hw with h | h | h | h | h
        · omega
        · simp [h]
        · simp [h]
        · simp [h]
        · have : ¬ (s.wx.toNat : Int) - 7 ≤ (s.pipe.pushX : Int) := by omega
          simp [this]
      have hsc : ∃ p, (s.objEnable = true → p = s.pipe.spPtr) ∧
          spriteCheck s = (false, { s with pipe.spPtr := p }) := by
        rcases spriteCheck_cases s with ⟨p, _, _, _, h4, h5⟩ | ⟨a, a1, a2, a3, _⟩
        · exact ⟨p, h4, h5⟩
        · rcases hs with h | h
          · rw [h] at a3; cases a3
          · obtain ⟨hlt, ha⟩ := List.getElem?_eq_some_iff.1 a1
            have := h a (by rw [List.mem_drop_iff_getElem]; exact ⟨0, by omega, by simpa using ha⟩)
            omega
      obtain ⟨p, hp, hsc⟩ := hsc
      have hstep : drainLoop (n + 1 + k) s = drainLoop (n + k) (drainOne c rest { s with pipe.spPtr := p }) := by
        rw [Nat.add_right_comm, drainLoop]
        simp only [hr, hnw, hsc, screenW]
        rw [if_pos (by omega)]
        rfl
      obtain ⟨ptr, h1, h2⟩ := ih (drainOne c rest { s with pipe.spPtr := p }) (by simp only [drainOne]; omega)
        (by simp only [drainOne, screenW]; omega)
        (by simp only [drainOne, Fifo.pushBack]; split <;> simp <;> omega)
        (by
          rcases hw with h | h | h | h | h
          · omega
          · exact .inr (.inl h)
          · exact .inr (.inr (.inl h))
          · exact .inr (.inr (.inr (.inl h)))
          · exact .inr (.inr (.inr (.inr (by simp only [drainOne]; omega)))))
        (by
          by_cases ho : s.objEnable = true
          · refine .inr fun a ha => ?_
            rcases hs with h | h
            · rw [h] at ho; cases ho
            · have := h a (by rw [hp ho] at ha; exact ha)
              simp only [drainOne]
              omega
          · exact .inl (Bool.eq_false_of_not_eq_true ho))
      refine ⟨ptr, fun ho => (h1 ho).trans (hp ho), ?_⟩
      rw [hstep, h2, drained_drainOne hr hl]

end Sys2Proof.Machine
end

