-- ==== Sys2Proof/Laws/Frame.lean ====
section
/-! SUPPORT. Frames: what a dot, a run of dots and a Tick leave unchanged, in every state. -/

namespace Sys2Proof.Machine

/-- A bind that answers ok: its first part did, and so did the rest. -/
theorem bind_eq_ok {α β : Type} {x : Except Fault α} {f : α → Except Fault β} {b : β} (h : (x >>= f) = .ok b) :
    ∃ a, x = .ok a ∧ f a = .ok b := by
  cases x with
  | error e => cases h
  | ok a => exact ⟨a, rfl, h⟩

/-- Only the pipeline and the frame buffer differ. -/
def PipeOnly (s t : State) : Prop := ∃ p f, t = { s with pipe := p, fb := f }

theorem PipeOnly.refl (s : State) : PipeOnly s s := ⟨s.pipe, s.fb, rfl⟩

theorem PipeOnly.trans {s t u : State} (h : PipeOnly s t) (h' : PipeOnly t u) : PipeOnly s u := by
  obtain ⟨p, f, rfl⟩ := h
  obtain ⟨q, g, rfl⟩ := h'
  exact ⟨q, g, rfl⟩

/-- Only the pipeline differs. -/
theorem PipeOnly.pipe (s : State) (p : Pipeline) : PipeOnly s { s with pipe := p } := ⟨p, s.fb, rfl⟩

theorem spriteCheckLoop_pipe (n : Nat) (s : State) : ∃ p, (spriteCheckLoop n s).2 = { s with pipe := p } := by
  induction n generalizing s with
  | zero => exact ⟨s.pipe, rfl⟩
  | succ n ih =>
    rw [spriteCheckLoop]
    split
    · exact ⟨s.pipe, rfl⟩
    · split
      · split
        · exact ⟨_, rfl⟩
        · obtain ⟨p, hp⟩ := ih { s with pipe.spPtr := s.pipe.spPtr + 1 }
          exact ⟨p, hp⟩
      · exact ⟨s.pipe, rfl⟩

theorem drainLoop_pipe (n : Nat) (s : State) : ∃ p, drainLoop n s = { s with pipe := p } := by
  induction n generalizing s with
  | zero => exact ⟨_, rfl⟩
  | succ n ih =>
    rw [drainLoop]
    split
    · exact ⟨_, rfl⟩
    · split
      · split
        · exact ⟨_, rfl⟩
        · rename_i c rest _ _ _
          obtain ⟨p, hp⟩ := spriteCheckLoop_pipe (s.sel.length - s.pipe.spPtr) s
          cases hc : spriteCheck s with
          | mk b t =>
            have ht : t = { s with pipe := p } := by rw [← hp]; exact (congrArg Prod.snd hc).symm
            cases b with
            | true => exact ⟨p, ht⟩
            | false =>
              obtain ⟨q, hq⟩ := ih (drainOne c rest t)
              refine ⟨q, ?_⟩
              change drainLoop n (drainOne c rest t) = _
              rw [hq, ht]
              rfl
      · exact ⟨_, rfl⟩

theorem pushStep_pipe (s : State) : ∃ p, pushStep s = { s with pipe := p } := by
  unfold pushStep
  obtain ⟨p, hp⟩ := drainLoop_pipe (decodeIfEmpty s).pipe.run.length (decodeIfEmpty s)
  refine ⟨p, ?_⟩
  simp only [hp]
  unfold decodeIfEmpty
  split <;> rfl

theorem fetcherStep_pipe {s t : State} (h : fetcherStep s = .ok t) : ∃ p, t = { s with pipe := p } := by
  unfold fetcherStep at h
  split at h
  · cases h; exact pushStep_pipe s
  · split at h <;> cases h <;> exact ⟨_, rfl⟩
  · split at h
    · cases h; exact ⟨_, rfl⟩
    · obtain ⟨u, hu, h⟩ := bind_eq_ok h
      unfold dataLowAction at hu
      obtain ⟨_, _, hu⟩ := bind_eq_ok hu
      obtain ⟨_, _, hu⟩ := bind_eq_ok hu
      cases hu; cases h; exact ⟨_, rfl⟩
  · split at h
    · cases h; exact ⟨_, rfl⟩
    · obtain ⟨u, hu, h⟩ := bind_eq_ok h
      unfold dataHighAction at hu
      obtain ⟨_, _, hu⟩ := bind_eq_ok hu
      cases hu; cases h; exact ⟨_, rfl⟩
  · split at h
    · cases h; exact ⟨_, rfl⟩
    · cases h
      obtain ⟨p, hp⟩ := pushStep_pipe { s with pipe.phaseDot := 0, pipe.phase := .push }
      exact ⟨p, hp⟩

theorem overlayColumn_pipe {a : SpriteAttr} {lo hi : Byte} {c : Nat} {s t : State}
    (h : overlayColumn a lo hi c s = .ok t) : ∃ p, t = { s with pipe := p } := by
  unfold overlayColumn at h
  simp only at h
  split at h
  · cases h; exact ⟨s.pipe, rfl⟩
  · split at h
    · cases h
    · split at h
      · split at h <;> cases h
        · exact ⟨_, rfl⟩
        · exact ⟨s.pipe, rfl⟩
      · split at h
        · cases h; exact ⟨_, rfl⟩
        · cases h

theorem overlayColumns_pipe {a : SpriteAttr} {lo hi : Byte} {l : List Nat} {s t : State}
    (h : overlayColumns a lo hi l s = .ok t) : ∃ p, t = { s with pipe := p } := by
  induction l generalizing s with
  | nil => cases h; exact ⟨t.pipe, rfl⟩
  | cons c cs ih =>
    obtain ⟨u, hu, h⟩ := bind_eq_ok h
    obtain ⟨p, rfl⟩ := overlayColumn_pipe hu
    obtain ⟨q, rfl⟩ := ih h
    exact ⟨q, rfl⟩

/-- The mixer's frame: the pipeline, and at most the byte of the pixel it writes. -/
theorem mixerDot_frame {s t : State} (h : mixerDot s = .ok t) :
    ∃ p f, t = { s with pipe := p, fb := f } ∧
      (f = s.fb ∨ ∃ v, f = FrameBuffer.write s.fb (s.ly.toNat * screenW + s.pipe.outputX) v) := by
  unfold mixerDot at h
  split at h
  · cases h; exact ⟨s.pipe, s.fb, rfl, .inl rfl⟩
  · split at h
    · cases h
    · obtain ⟨u, hu, h⟩ := bind_eq_ok h
      unfold fbWrite at hu
      split at hu
      · cases hu; cases h; exact ⟨_, _, rfl, .inr ⟨_, rfl⟩⟩
      · cases hu

theorem fetcherStep_outputX {s t : State} (h : fetcherStep s = .ok t) : t.pipe.outputX = s.pipe.outputX := by
  have hc : ∀ n (s : State), (spriteCheckLoop n s).2.pipe.outputX = s.pipe.outputX := by
    intro n
    induction n with
    | zero => intro s; rfl
    | succ n ih =>
      intro s
      rw [spriteCheckLoop]
      split
      · rfl
      · split
        · split
          · rfl
          · rw [ih]
        · rfl
  have hd : ∀ n (s : State), (drainLoop n s).pipe.outputX = s.pipe.outputX := by
    intro n
    induction n with
    | zero => intro s; rfl
    | succ n ih =>
      intro s
      rw [drainLoop]
      split
      · rfl
      · split
        · split
          · rfl
          · have h1 := hc (s.sel.length - s.pipe.spPtr) s
            cases hs : spriteCheck s with
            | mk b t =>
              have ht : t.pipe.outputX = s.pipe.outputX := by
                rw [← h1]; exact congrArg (fun z => z.2.pipe.outputX) hs.symm
              cases b with
              | true => exact ht
              | false => simp only [ih]; exact ht
        · rfl
  have hp : ∀ s : State, (pushStep s).pipe.outputX = s.pipe.outputX := by
    intro s
    unfold pushStep
    simp only [hd]
    unfold decodeIfEmpty
    split <;> rfl
  unfold fetcherStep at h
  split at h
  · cases h; exact hp s
  · split at h <;> cases h <;> rfl
  · split at h
    · cases h; rfl
    · obtain ⟨u, hu, h⟩ := bind_eq_ok h
      unfold dataLowAction at hu
      obtain ⟨_, _, hu⟩ := bind_eq_ok hu
      obtain ⟨_, _, hu⟩ := bind_eq_ok hu
      cases hu; cases h; rfl
  · split at h
    · cases h; rfl
    · obtain ⟨u, hu, h⟩ := bind_eq_ok h
      unfold dataHighAction at hu
      obtain ⟨_, _, hu⟩ := bind_eq_ok hu
      cases hu; cases h; rfl
  · split at h
    · cases h; rfl
    · cases h; exact hp _

/-- The pipeline dot's frame, in every state: the pipeline, and at most the byte at `LY*160 + output_x`. -/
theorem pipelineDot_frame {s t : State} (h : pipelineDot s = .ok t) :
    ∃ p f, t = { s with pipe := p, fb := f } ∧
      (f = s.fb ∨ ∃ v, f = FrameBuffer.write s.fb (s.ly.toNat * screenW + s.pipe.outputX) v) := by
  unfold pipelineDot at h
  split at h
  · cases h; exact ⟨s.pipe, s.fb, rfl, .inl rfl⟩
  · split at h
    · unfold spriteStallDot at h
      simp only at h
      split at h
      · unfold spriteFetchComplete at h
        obtain ⟨_, _, h⟩ := bind_eq_ok h
        obtain ⟨_, _, h⟩ := bind_eq_ok h
        obtain ⟨p, rfl⟩ := overlayColumns_pipe h
        exact ⟨p, s.fb, rfl, .inl rfl⟩
      · cases h; exact ⟨_, s.fb, rfl, .inl rfl⟩
    · obtain ⟨u, hu, h⟩ := bind_eq_ok h
      have hx := fetcherStep_outputX hu
      obtain ⟨p, rfl⟩ := fetcherStep_pipe hu
      split at h
      · cases h; exact ⟨_, s.fb, rfl, .inl rfl⟩
      · obtain ⟨q, f, rfl, hf⟩ := mixerDot_frame h
        simp only at hx hf
        rw [hx] at hf
        exact ⟨q, f, rfl, hf⟩

/-! ### The dot -/

/-- What no dot changes: every register only the host writes, the memories, the host's own fields; of the
interrupt-flag register a dot only sets VBLANK or STAT (R41, R47, R163). -/
structure Kept (s t : State) : Prop where
  lcdc : t.lcdc = s.lcdc
  lycInt : t.statLycInt = s.statLycInt
  oamInt : t.statOamInt = s.statOamInt
  vblankInt : t.statVblankInt = s.statVblankInt
  hblankInt : t.statHblankInt = s.statHblankInt
  scy : t.scy = s.scy
  scx : t.scx = s.scx
  lyc : t.lyc = s.lyc
  bgp : t.bgp = s.bgp
  obp0 : t.obp0 = s.obp0
  obp1 : t.obp1 = s.obp1
  wy : t.wy = s.wy
  wx : t.wx = s.wx
  engineOn : t.engineOn = s.engineOn
  vram : t.vram = s.vram
  oam : t.oam = s.oam
  returned : t.returned = s.returned
  pending : t.pending = s.pending
  iflag : ∃ m : Byte, m &&& 0xFC#8 = 0 ∧ t.iflag = s.iflag ||| m

theorem Kept.refl (s : State) : Kept s s :=
  ⟨rfl, rfl, rfl, rfl, rfl, rfl, rfl, rfl, rfl, rfl, rfl, rfl, rfl, rfl, rfl, rfl, rfl, rfl, 0, by decide, by simp⟩

theorem Kept.trans {s t u : State} (h : Kept s t) (k : Kept t u) : Kept s u := by
  obtain ⟨m, hm, hi⟩ := h.iflag
  obtain ⟨n, hn, hj⟩ := k.iflag
  exact ⟨k.lcdc.trans h.lcdc, k.lycInt.trans h.lycInt, k.oamInt.trans h.oamInt, k.vblankInt.trans h.vblankInt,
    k.hblankInt.trans h.hblankInt, k.scy.trans h.scy, k.scx.trans h.scx, k.lyc.trans h.lyc, k.bgp.trans h.bgp,
    k.obp0.trans h.obp0, k.obp1.trans h.obp1, k.wy.trans h.wy, k.wx.trans h.wx, k.engineOn.trans h.engineOn,
    k.vram.trans h.vram, k.oam.trans h.oam, k.returned.trans h.returned, k.pending.trans h.pending,
    m ||| n, by rw [BitVec.and_comm, BitVec.and_or_distrib_left, BitVec.and_comm _ m, BitVec.and_comm _ n, hm, hn]; rfl,
    by rw [hj, hi, BitVec.or_assoc]⟩

theorem PipeOnly.kept {s t : State} (h : PipeOnly s t) : Kept s t := by
  obtain ⟨p, f, rfl⟩ := h
  exact ⟨rfl, rfl, rfl, rfl, rfl, rfl, rfl, rfl, rfl, rfl, rfl, rfl, rfl, rfl, rfl, rfl, rfl, rfl, 0, by decide, by simp⟩

theorem requestIf_kept (e : Bool) (k : Interrupt) (s : State) : Kept s (requestIf e k s) := by
  cases e with
  | false => exact Kept.refl s
  | true =>
    refine ⟨rfl, rfl, rfl, rfl, rfl, rfl, rfl, rfl, rfl, rfl, rfl, rfl, rfl, rfl, rfl, rfl, rfl, rfl, k.bit, ?_, rfl⟩
    cases k <;> decide

theorem lineStart_kept (s : State) : Kept s (lineStart s) := by
  have h0 : ∀ s : State, Kept s (setLycFlag s) := fun s =>
    ⟨rfl, rfl, rfl, rfl, rfl, rfl, rfl, rfl, rfl, rfl, rfl, rfl, rfl, rfl, rfl, rfl, rfl, rfl, 0, by decide, by simp⟩
  have h1 : Kept s (lycCompare s) := (h0 s).trans (requestIf_kept _ _ _)
  have h2 : ∀ s : State, Kept s (enterOamScan s) := fun s => by
    refine Kept.trans (t := requestIf s.statOamInt .stat (setMode .oamScan s)) ?_ ?_
    · refine Kept.trans (t := setMode .oamScan s) ?_ (requestIf_kept _ _ _)
      exact ⟨rfl, rfl, rfl, rfl, rfl, rfl, rfl, rfl, rfl, rfl, rfl, rfl, rfl, rfl, rfl, rfl, rfl, rfl, 0, by decide, by simp⟩
    · exact ⟨rfl, rfl, rfl, rfl, rfl, rfl, rfl, rfl, rfl, rfl, rfl, rfl, rfl, rfl, rfl, rfl, rfl, rfl, 0, by decide, by
        simp [enterOamScan]⟩
  have h3 : ∀ s : State, Kept s (enterVblank s) := fun s => by
    refine Kept.trans (t := requestIf s.statVblankInt .stat (requestInterrupt .vblank (setMode .vblank s))) ?_ ?_
    · refine Kept.trans (t := requestInterrupt .vblank (setMode .vblank s)) ?_ (requestIf_kept _ _ _)
      exact ⟨rfl, rfl, rfl, rfl, rfl, rfl, rfl, rfl, rfl, rfl, rfl, rfl, rfl, rfl, rfl, rfl, rfl, rfl, 0x01, by decide, rfl⟩
    · exact ⟨rfl, rfl, rfl, rfl, rfl, rfl, rfl, rfl, rfl, rfl, rfl, rfl, rfl, rfl, rfl, rfl, rfl, rfl, 0, by decide, by
        simp [enterVblank]⟩
  unfold lineStart
  simp only
  split
  · exact h1.trans (h2 _)
  · split
    · exact h1.trans (h3 _)
    · exact h1

theorem lineStartIfDue_kept (s : State) : Kept s (lineStartIfDue s) := by
  unfold lineStartIfDue
  split
  · exact lineStart_kept s
  · exact Kept.refl s

theorem oamScanDot_kept {d : Nat} {s t : State} (h : oamScanDot d s = .ok t) : Kept s t := by
  have h0 : ∀ s : State, Kept s { s with scanY := s.scanY } := fun s => Kept.refl s
  unfold oamScanDot at h
  simp only at h
  split at h
  · obtain ⟨_, _, h⟩ := bind_eq_ok h
    obtain ⟨_, _, h⟩ := bind_eq_ok h
    cases h
    exact ⟨rfl, rfl, rfl, rfl, rfl, rfl, rfl, rfl, rfl, rfl, rfl, rfl, rfl, rfl, rfl, rfl, rfl, rfl, 0, by decide, by simp⟩
  · obtain ⟨_, _, h⟩ := bind_eq_ok h
    obtain ⟨_, _, h⟩ := bind_eq_ok h
    cases h
    unfold evaluateSprite
    split
    · exact ⟨rfl, rfl, rfl, rfl, rfl, rfl, rfl, rfl, rfl, rfl, rfl, rfl, rfl, rfl, rfl, rfl, rfl, rfl, 0, by decide, by simp⟩
    · exact Kept.refl s

theorem modeDot_kept {s t : State} (h : modeDot s = .ok t) : Kept s t := by
  unfold modeDot at h
  split at h
  · unfold oamDot at h
    obtain ⟨u, hu, h⟩ := bind_eq_ok h
    cases h
    refine (oamScanDot_kept hu).trans ?_
    split
    · exact ⟨rfl, rfl, rfl, rfl, rfl, rfl, rfl, rfl, rfl, rfl, rfl, rfl, rfl, rfl, rfl, rfl, rfl, rfl, 0, by decide, by
        simp [endOamScan]⟩
    · exact Kept.refl u
  · unfold drawDot at h
    obtain ⟨u, hu, h⟩ := bind_eq_ok h
    cases h
    obtain ⟨p, f, rfl, _⟩ := pipelineDot_frame hu
    refine (PipeOnly.kept ⟨p, f, rfl⟩).trans ?_
    refine Kept.trans (t := { s with pipe := p, fb := f, drawDots := s.drawDots + 1 }) ?_ ?_
    · exact ⟨rfl, rfl, rfl, rfl, rfl, rfl, rfl, rfl, rfl, rfl, rfl, rfl, rfl, rfl, rfl, rfl, rfl, rfl, 0, by decide, by simp⟩
    · unfold endDrawIfDone
      split
      · refine Kept.trans (t := setMode .hblank { s with pipe := p, fb := f, drawDots := s.drawDots + 1 }) ?_
          (requestIf_kept _ _ _)
        exact ⟨rfl, rfl, rfl, rfl, rfl, rfl, rfl, rfl, rfl, rfl, rfl, rfl, rfl, rfl, rfl, rfl, rfl, rfl, 0, by decide, by simp⟩
      · exact Kept.refl _
  · cases h; exact Kept.refl s
  · cases h; exact Kept.refl s

theorem endOfDot_kept {s t : State} (h : endOfDot s = .ok t) : Kept s t := by
  unfold endOfDot at h
  split at h
  · split at h
    · cases h
    · cases h
      unfold endOfLine
      simp only
      split <;>
      exact ⟨rfl, rfl, rfl, rfl, rfl, rfl, rfl, rfl, rfl, rfl, rfl, rfl, rfl, rfl, rfl, rfl, rfl, rfl, 0, by decide, by simp⟩
  · cases h
    exact ⟨rfl, rfl, rfl, rfl, rfl, rfl, rfl, rfl, rfl, rfl, rfl, rfl, rfl, rfl, rfl, rfl, rfl, rfl, 0, by decide, by simp⟩

/-- A dot keeps what `Kept` names. -/
theorem dotStep_kept {s t : State} (h : dotStep s = .ok t) : Kept s t := by
  unfold dotStep at h
  split at h
  · obtain ⟨u, hu, h⟩ := bind_eq_ok h
    exact ((lineStartIfDue_kept s).trans (modeDot_kept hu)).trans (endOfDot_kept h)
  · cases h; exact Kept.refl s

/-- A run of dots keeps what `Kept` names. -/
theorem runDots_kept {n : Nat} {s t : State} (h : runDots n s = .ok t) : Kept s t := by
  induction n generalizing s with
  | zero => cases h; exact Kept.refl _
  | succ n ih =>
    obtain ⟨u, hu, h⟩ := bind_eq_ok h
    exact (dotStep_kept hu).trans (ih h)

/-- A run of dots in two parts. -/
theorem runDots_add (m n : Nat) (s : State) : runDots (m + n) s = (runDots m s >>= runDots n) := by
  induction m generalizing s with
  | zero => rw [Nat.zero_add]; rfl
  | succ m ih =>
    rw [Nat.succ_add]
    simp only [runDots]
    cases h : dotStep s with
    | error e => rfl
    | ok t => exact ih t

/-- While the engine is off no dot does anything (R98, R172). -/
theorem runDots_off {n : Nat} {s : State} (h : s.engineOn = false) : runDots n s = .ok s := by
  induction n with
  | zero => rfl
  | succ n ih =>
    rw [runDots]
    have : dotStep s = .ok s := by simp [dotStep, h]
    rw [this]
    exact ih

end Sys2Proof.Machine
end

