-- ==== Sys2Proof/Laws/Overlay.lean ====
section
/-! SUPPORT. What the sprite overlay does (R146, R147) and what one mixer dot does (R152), each said once. -/

namespace Sys2Proof.Machine

/-- The FIFO's x column read slot by slot. -/
theorem sp_x_iff (l : List SpritePixel) (o : Nat) :
    l.map SpritePixel.x = List.range' o l.length ↔ ∀ k q, l[k]? = some q → q.x = o + k := by
  constructor
  · intro h k q hq
    have := congrArg (·[k]?) h
    simp only [List.getElem?_map, hq, Option.map_some] at this
    have hk := (List.getElem?_eq_some_iff.1 hq).1
    rw [List.getElem?_range' hk] at this
    simpa using this
  · intro h
    apply List.ext_getElem?
    intro k
    rw [List.getElem?_map]
    by_cases hk : k < l.length
    · rw [List.getElem?_range' hk, List.getElem?_eq_getElem hk]
      simp [h k _ (List.getElem?_eq_getElem hk)]
    · rw [List.getElem?_eq_none (by simpa using hk), List.getElem?_eq_none (by simpa using hk)]
      rfl

/-- The pixel a sprite puts at screen x (R145, R146). -/
def overlayPixel (a : SpriteAttr) (lo hi : Byte) (x : Nat) : SpritePixel :=
  .pixel (a.columnColour lo hi ((x : Int) - a.x).toNat) (Palette.ofSprite a.pal) a.oam a.bgPrio x

/-- The merge of a sprite's pixel into a slot (R146). -/
def mergeSlot (a : SpriteAttr) (lo hi : Byte) (x : Nat) : Option SpritePixel → SpritePixel
  | none => overlayPixel a lo hi x
  | some old => if old.yieldsTo a.oam then overlayPixel a lo hi x else old

/-- One column of the overlay (R146, R147), where the column's place is in the FIFO or next after it. -/
theorem overlayColumn_spec (a : SpriteAttr) (lo hi : Byte) (c : Nat) (s : State)
    (h1 : (s.pipe.outputX : Int) ≤ max (a.x + c) 0)
    (h2 : min (max (a.x + c) 0) 160 ≤ (s.pipe.outputX : Int) + s.pipe.spFifo.length) :
    ∃ q, overlayColumn a lo hi c s = .ok { s with pipe.spFifo := q } ∧
      (∀ k : Nat, q[k]? =
        if ((s.pipe.outputX + k : Nat) : Int) = a.x + c ∧ s.pipe.outputX + k < 160
        then some (mergeSlot a lo hi (s.pipe.outputX + k) s.pipe.spFifo[k]?) else s.pipe.spFifo[k]?) := by
  unfold overlayColumn
  simp only [screenW]
  by_cases hoff : a.x + (c : Int) < 0 ∨ ((160 : Nat) : Int) ≤ a.x + c
  · rw [if_pos hoff]
    refine ⟨s.pipe.spFifo, rfl, fun k => ?_⟩
    rw [if_neg]
    rintro ⟨e1, e2⟩
    rcases hoff with h | h <;> push_cast at * <;> omega
  · rw [if_neg hoff]
    push_cast at hoff
    obtain ⟨x, hx⟩ : ∃ x : Nat, a.x + (c : Int) = x := ⟨(a.x + c).toNat, by omega⟩
    have hcol : c = ((x : Int) - a.x).toNat := by omega
    simp only [hx, Int.toNat_natCast] at h1 h2 ⊢
    rw [if_neg (by omega)]
    have hnew : SpritePixel.pixel (a.columnColour lo hi c) (Palette.ofSprite a.pal) a.oam a.bgPrio x =
        overlayPixel a lo hi x := by rw [overlayPixel, ← hcol]
    rw [hnew]
    cases hold : s.pipe.spFifo[x - s.pipe.outputX]? with
    | some old =>
      simp only
      have hlt := (List.getElem?_eq_some_iff.1 hold).1
      by_cases hy : old.yieldsTo a.oam = true
      · rw [if_pos hy]
        refine ⟨_, rfl, fun k => ?_⟩
        rw [List.getElem?_set]
        by_cases hk : x - s.pipe.outputX = k
        · subst hk
          rw [if_pos rfl, if_pos hlt, if_pos (by omega), hold]
          have : s.pipe.outputX + (x - s.pipe.outputX) = x := by omega
          simp [mergeSlot, hy, this]
        · rw [if_neg hk, if_neg (by omega)]
      · rw [if_neg hy]
        refine ⟨_, rfl, fun k => ?_⟩
        by_cases hk : x - s.pipe.outputX = k
        · subst hk
          rw [if_pos (by omega), hold]
          simp [mergeSlot, hy]
        · rw [if_neg (by omega)]
    | none =>
      simp only
      have hlen : x - s.pipe.outputX = s.pipe.spFifo.length := by
        have := List.getElem?_eq_none_iff.1 hold
        omega
      rw [if_pos hlen]
      refine ⟨_, rfl, fun k => ?_⟩
      rw [Fifo.pushBack, List.getElem?_append]
      by_cases hk : k < s.pipe.spFifo.length
      · rw [if_pos hk, if_neg (by omega)]
      · rw [if_neg hk]
        by_cases hk' : k = s.pipe.spFifo.length
        · subst hk'
          rw [if_pos (by omega), List.getElem?_eq_none le_rfl]
          have : s.pipe.outputX + s.pipe.spFifo.length = x := by omega
          simp [mergeSlot, this]
        · rw [if_neg (by omega), List.getElem?_eq_none (by simp only [List.length_singleton]; omega),
            List.getElem?_eq_none (by omega)]

/-- The columns `c .. c+m-1` of the overlay. -/
theorem overlayColumns_spec (a : SpriteAttr) (lo hi : Byte) (m c : Nat) (s : State)
    (h1 : (s.pipe.outputX : Int) ≤ max (a.x + c) 0)
    (h2 : min (max (a.x + c) 0) 160 ≤ (s.pipe.outputX : Int) + s.pipe.spFifo.length)
    (h3 : s.pipe.outputX + s.pipe.spFifo.length ≤ 160) :
    ∃ q, overlayColumns a lo hi (List.range' c m) s = .ok { s with pipe.spFifo := q } ∧
      s.pipe.spFifo.length ≤ q.length ∧ s.pipe.outputX + q.length ≤ 160 ∧
      (∀ k : Nat, q[k]? =
        if a.x + c ≤ ((s.pipe.outputX + k : Nat) : Int) ∧ ((s.pipe.outputX + k : Nat) : Int) < a.x + c + m ∧
          s.pipe.outputX + k < 160
        then some (mergeSlot a lo hi (s.pipe.outputX + k) s.pipe.spFifo[k]?) else s.pipe.spFifo[k]?) := by
  induction m generalizing c s with
  | zero =>
    refine ⟨s.pipe.spFifo, rfl, le_rfl, h3, fun k => ?_⟩
    rw [if_neg]
    push_cast
    omega
  | succ m ih =>
    obtain ⟨q, e1, e2⟩ := overlayColumn_spec a lo hi c s h1 h2
    rw [List.range'_succ, overlayColumns, e1]
    have hlen : s.pipe.spFifo.length ≤ q.length := by
      by_contra hc
      have := e2 q.length
      rw [List.getElem?_eq_none le_rfl, List.getElem?_eq_getElem (by omega)] at this
      split at this <;> cases this
    have hlen2 : s.pipe.outputX + q.length ≤ 160 := by
      by_contra hc
      have := e2 (q.length - 1)
      rw [List.getElem?_eq_getElem (by omega), if_neg (by omega), List.getElem?_eq_none (by omega)] at this
      cases this
    have hlen3 : min (max (a.x + c + 1) 0) 160 ≤ (s.pipe.outputX : Int) + q.length := by
      by_contra hc
      have hc1 : 0 ≤ a.x + c ∧ a.x + c < 160 ∧ (s.pipe.outputX : Int) + q.length ≤ a.x + c := by omega
      have := e2 (a.x + c - s.pipe.outputX).toNat
      rw [List.getElem?_eq_none (by omega), if_pos (by omega)] at this
      cases this
    obtain ⟨r, f1, f2, f3, f4⟩ := ih (c + 1) { s with pipe.spFifo := q } (by push_cast; omega)
      (by push_cast; omega) hlen2
    refine ⟨r, f1, le_trans hlen f2, f3, fun k => ?_⟩
    have h4 := f4 k
    simp only at h4
    rw [h4, e2 k]
    push_cast at *
    by_cases hk : (s.pipe.outputX : Int) + k = a.x + c
    · rw [if_neg (by omega)]
      by_cases hk2 : s.pipe.outputX + k < 160
      · rw [if_pos (by omega), if_pos (by omega)]
      · rw [if_neg (by omega), if_neg (by omega)]
    · by_cases hk2 : a.x + c + 1 ≤ (s.pipe.outputX : Int) + k ∧
          (s.pipe.outputX : Int) + k < a.x + c + 1 + m ∧ s.pipe.outputX + k < 160
      · rw [if_pos (by omega), if_neg (by omega), if_pos (by omega)]
      · rw [if_neg (by omega), if_neg (by omega), if_neg (by omega)]

/-- Putting a pixel by the overlay keeps the FIFO alignment and the pixels legal (R33, R36). -/
theorem overlay_aligned {a : SpriteAttr} {lo hi : Byte} {p : Pipeline} {q : List SpritePixel} (h : FifoAligned p)
    (hl : ∀ e ∈ p.spFifo, e.legal) (ha : a.oam < 40) (h2 : p.spFifo.length ≤ q.length)
    (h3 : p.outputX + q.length ≤ 160) (P : Nat → Prop) [DecidablePred P]
    (h4 : ∀ k : Nat, q[k]? = if P k then some (mergeSlot a lo hi (p.outputX + k) p.spFifo[k]?) else p.spFifo[k]?) :
    FifoAligned { p with spFifo := q } ∧ ∀ e ∈ q, e.legal := by
  have hx := (sp_x_iff _ _).1 h.sp_x
  constructor
  · refine ⟨h.1, h.2, le_trans h.3 h2, h3, (sp_x_iff _ _).2 fun k e he => ?_⟩
    simp only at he
    rw [h4] at he
    split at he
    · cases he
      cases ho : p.spFifo[k]? with
      | none => rfl
      | some o =>
        simp only [mergeSlot]
        split
        · rfl
        · exact hx k o ho
    · exact hx k e he
  · intro e he
    obtain ⟨k, hk, rfl⟩ := List.getElem_of_mem he
    have h5 := h4 k
    rw [List.getElem?_eq_getElem hk] at h5
    have hnew : (overlayPixel a lo hi (p.outputX + k)).legal := by
      refine ⟨?_, ha⟩
      unfold Palette.ofSprite
      split <;> simp
    split at h5
    · cases ho : p.spFifo[k]? with
      | none => rw [ho] at h5; rw [Option.some.inj h5]; exact hnew
      | some o =>
        rw [ho] at h5
        rw [Option.some.inj h5]
        simp only [mergeSlot]
        split
        · exact hnew
        · exact hl o (List.mem_of_getElem? ho)
    · exact hl _ (List.mem_of_getElem? h5.symm)

/-- The row of a sprite lies in the unsigned tile data area, at an even address (R43, R144). -/
theorem rowAddr_range (a : SpriteAttr) (ly : Byte) :
    0x8000 ≤ (a.rowAddr ly).toNat ∧ (a.rowAddr ly).toNat ≤ 0x8FFE := by
  unfold SpriteAttr.rowAddr
  simp only [tileDataBaseUnsigned, BitVec.toNat_ofNat]
  have h1 := (a.tileFor (a.line ly)).isLt
  have h2 : (a.line ly % 8).toNat ≤ 7 := by omega
  omega

/-- `SpriteFetchComplete()` said once (R143 to R146). -/
theorem spriteFetchComplete_spec (s : State)
    (h1 : (s.pipe.outputX : Int) ≤ s.pipe.sfetchCur.triggerX)
    (h2 : s.pipe.sfetchCur.triggerX ≤ (s.pipe.outputX : Int) + s.pipe.spFifo.length)
    (h3 : s.pipe.outputX + s.pipe.spFifo.length ≤ 160) :
    ∃ q, spriteFetchComplete s = .ok { s with pipe.spFifo := q } ∧
      s.pipe.spFifo.length ≤ q.length ∧ s.pipe.outputX + q.length ≤ 160 ∧
      (∀ k : Nat, q[k]? =
        if s.pipe.sfetchCur.x ≤ ((s.pipe.outputX + k : Nat) : Int) ∧
          ((s.pipe.outputX + k : Nat) : Int) < s.pipe.sfetchCur.x + 8 ∧ s.pipe.outputX + k < 160
        then some (mergeSlot s.pipe.sfetchCur (Memory.read s.vram (s.pipe.sfetchCur.rowAddr s.ly).toNat)
          (Memory.read s.vram ((s.pipe.sfetchCur.rowAddr s.ly).toNat + 1)) (s.pipe.outputX + k) s.pipe.spFifo[k]?)
        else s.pipe.spFifo[k]?) := by
  have hr := rowAddr_range s.pipe.sfetchCur s.ly
  have hr1 : (s.pipe.sfetchCur.rowAddr s.ly + 1).toNat = (s.pipe.sfetchCur.rowAddr s.ly).toNat + 1 := by
    rw [BitVec.toNat_add]
    simp only [BitVec.ofNat_eq_ofNat, BitVec.toNat_ofNat]
    omega
  unfold spriteFetchComplete
  simp only
  rw [readVram_ok (by omega), readVram_ok (by rw [hr1]; omega), hr1]
  unfold SpriteAttr.triggerX at h1 h2
  obtain ⟨q, e1, e2, e3, e4⟩ := overlayColumns_spec s.pipe.sfetchCur
    (Memory.read s.vram (s.pipe.sfetchCur.rowAddr s.ly).toNat)
    (Memory.read s.vram ((s.pipe.sfetchCur.rowAddr s.ly).toNat + 1)) 8 0 s (by push_cast; omega) (by push_cast; omega) h3
  refine ⟨q, ?_, e2, e3, ?_⟩
  · rw [List.range_eq_range']
    exact e1
  · intro k
    rw [e4 k]
    push_cast
    simp only [add_zero]

/-- One mixer dot on aligned FIFOs: nothing to do, or one pixel written and popped (R152). -/
theorem mixerDot_spec (s : State) (h : FifoAligned s.pipe) (hly : s.ly.toNat < 144) :
    (s.pipe.bgFifo = [] ∧ mixerDot s = .ok s) ∨
    (∃ bg bgs sp sps, s.pipe.bgFifo = bg :: bgs ∧ s.pipe.spFifo = sp :: sps ∧ s.pipe.outputX < 160 ∧
      mixerDot s = .ok { s with
        fb := FrameBuffer.write s.fb (s.ly.toNat * screenW + s.pipe.outputX) (sample s (mix s.bgWinEnable bg sp))
        pipe.bgFifo := bgs, pipe.spFifo := sps, pipe.outputX := s.pipe.outputX + 1 }) := by
  have h1 := h.push_le
  have h2 := h.bg_length
  have h3 := h.bg_le_sp
  cases hb : s.pipe.bgFifo with
  | nil => exact .inl ⟨rfl, by simp [mixerDot, hb]⟩
  | cons bg bgs =>
    cases hs : s.pipe.spFifo with
    | nil => simp [hb, hs] at h3
    | cons sp sps =>
      have ho : s.pipe.outputX < 160 := by simp [hb] at h1 h2; omega
      refine .inr ⟨bg, bgs, sp, sps, rfl, rfl, ho, ?_⟩
      have : s.ly.toNat * screenW + s.pipe.outputX < 23040 := by simp only [screenW]; omega
      simp only [mixerDot, hb, hs, fbWrite_ok this]
      rfl

/-- Popping one element of each FIFO keeps them aligned (R36). -/
theorem pop_aligned {p : Pipeline} {bg : BgPixel} {bgs : List BgPixel} {sp : SpritePixel} {sps : List SpritePixel}
    (h : FifoAligned p) (hb : p.bgFifo = bg :: bgs) (hs : p.spFifo = sp :: sps) :
    FifoAligned { p with bgFifo := bgs, spFifo := sps, outputX := p.outputX + 1 } := by
  obtain ⟨h1, h2, h3, h4, h5⟩ := h
  rw [hb] at h2 h3
  rw [hs] at h3 h4 h5
  simp only [List.length_cons] at h2 h3 h4
  refine ⟨h1, by simp only; omega, by simp only; omega, by simp only; omega, ?_⟩
  simp only [List.map_cons, List.length_cons, List.range'_succ, List.cons.injEq] at h5
  exact h5.2

end Sys2Proof.Machine
end

