-- ==== Sys2Proof/Laws/PerInstr.lean ====
section
/-! SUPPORT. What is proved instruction by instruction: the fields of an instruction's word (R57, R69), one lemma per
constructor. -/

namespace Sys2Proof.Laws.WordFields

/-- The fields of the word of a well-formed operation: which `op` it has, and what stands in its other two fields. -/
def Statement (i : Instr) : Prop :=
  i.wellFormed = true →
    (HostWord.op (encode i) = 0b00 ∧ (∃ r, i = .rd r ∧ HostWord.addr (encode i) = r.addr) ∧
        HostWord.data (encode i) = 0) ∨
      (HostWord.op (encode i) = 0b01 ∧ ∃ r v, i = .wr r v ∧ HostWord.addr (encode i) = r.addr ∧
        HostWord.data (encode i) = v) ∨
      (HostWord.op (encode i) = 0b10 ∧ HostWord.addr (encode i) = 0 ∧
        ∃ m, i = .tick m ∧ (HostWord.data (encode i)).toNat = m)

theorem of_rd (r : Reg) : Statement (.rd r) := fun _ =>
  .inl ⟨by simp [encodeRd], ⟨r, rfl, by simp [encodeRd]⟩, by simp [encodeRd]⟩

theorem of_wr (r : Reg) (v : Byte) : Statement (.wr r v) := fun _ =>
  .inr (.inl ⟨by simp [encodeWr], r, v, rfl, by simp [encodeWr], by simp [encodeWr]⟩)

theorem rdLcdc : Statement .rdLcdc := of_rd .lcdc

theorem wrLcdc (v : Byte) : Statement (.wrLcdc v) := of_wr .lcdc v

theorem rdStat : Statement .rdStat := of_rd .stat

theorem wrStat (v : Byte) : Statement (.wrStat v) := of_wr .stat v

theorem rdScy : Statement .rdScy := of_rd .scy

theorem wrScy (v : Byte) : Statement (.wrScy v) := of_wr .scy v

theorem rdScx : Statement .rdScx := of_rd .scx

theorem wrScx (v : Byte) : Statement (.wrScx v) := of_wr .scx v

theorem rdLy : Statement .rdLy := of_rd .ly

theorem wrLy (v : Byte) : Statement (.wrLy v) := of_wr .ly v

theorem rdLyc : Statement .rdLyc := of_rd .lyc

theorem wrLyc (v : Byte) : Statement (.wrLyc v) := of_wr .lyc v

theorem rdBgp : Statement .rdBgp := of_rd .bgp

theorem wrBgp (v : Byte) : Statement (.wrBgp v) := of_wr .bgp v

theorem rdObp0 : Statement .rdObp0 := of_rd .obp0

theorem wrObp0 (v : Byte) : Statement (.wrObp0 v) := of_wr .obp0 v

theorem rdObp1 : Statement .rdObp1 := of_rd .obp1

theorem wrObp1 (v : Byte) : Statement (.wrObp1 v) := of_wr .obp1 v

theorem rdWy : Statement .rdWy := of_rd .wy

theorem wrWy (v : Byte) : Statement (.wrWy v) := of_wr .wy v

theorem rdWx : Statement .rdWx := of_rd .wx

theorem wrWx (v : Byte) : Statement (.wrWx v) := of_wr .wx v

theorem tick (m : Nat) : Statement (.tick m) := fun h => by
  have hm : m ≤ 255 := by simpa [Instr.wellFormed] using h
  refine .inr (.inr ⟨by simp [encode], by simp [encode], m, rfl, ?_⟩)
  simp only [encode, data_ofFields, BitVec.toNat_ofNat]
  omega

end Sys2Proof.Laws.WordFields
end

