-- ==== Sys2Proof/Laws/Pipeline.lean ====
section
/-! SUPPORT. What one dot of the pipeline does in Draw (R121, R122): the pipeline stays legal, only the pipeline and one
byte of the frame buffer change, and the dot budget falls by one. -/

namespace Sys2Proof.Machine

/-! ### The actions of the fetcher's phases -/

/-- Every tile-map address the fetcher forms lies in one of the two maps (R43, R123). -/
theorem tileCoords_mapAddr_range (s : State) (x : Nat) :
    0x9800 ≤ (tileCoords s x).mapAddr.toNat ∧ (tileCoords s x).mapAddr.toNat ≤ 0x9FFF := by
  have hb : ∀ b, tileMapBase b = 0x9800 ∨ tileMapBase b = 0x9C00 := by intro b; cases b <;> simp [tileMapBase]
  unfold tileCoords TileCoords.mapAddr
  split
  · have h1 : (windowCoords s x).row < 32 := Nat.mod_lt _ (by norm_num)
    have h2 : (windowCoords s x).col < 32 := by simp only [windowCoords]; omega
    have h3 := hb s.winMap
    have h4 : (windowCoords s x).base = tileMapBase s.winMap := rfl
    rw [BitVec.toNat_ofNat]
    omega
  · have h1 : (bgCoords s x).row < 32 := by
      have := (s.scy + s.ly).isLt
      simp only [bgCoords]
      omega
    have h2 : (bgCoords s x).col < 32 := Nat.mod_lt _ (by norm_num)
    have h3 := hb s.bgMap
    have h4 : (bgCoords s x).base = tileMapBase s.bgMap := rfl
    rw [BitVec.toNat_ofNat]
    omega

/-- Every tile's data lies in 0x8000..0x97FF (R42, R63). -/
theorem tileBase_range (u : Bool) (t : Byte) : 0x8000 ≤ tileBase u t ∧ tileBase u t ≤ 0x97F0 := by
  have h1 := t.isLt
  have h2 := (t + 128).isLt
  unfold tileBase
  simp only [tileDataBaseUnsigned, tileDataBaseSigned]
  split <;> omega

/-- The DataLow action (R126), said once. -/
theorem dataLowAction_spec (s : State) (h : 0x9800 ≤ s.pipe.mapAddr.toNat ∧ s.pipe.mapAddr.toNat ≤ 0x9FFF) :
    ∃ a : Addr, a.toNat = tileBase s.tileData (Memory.read s.vram s.pipe.mapAddr.toNat) + 2 * s.pipe.tileLine.toNat ∧
      0x8000 ≤ a.toNat ∧ a.toNat ≤ 0x97FE ∧
      dataLowAction s = .ok { s with pipe.tileAddr := a, pipe.lo := Memory.read s.vram a.toNat } := by
  have h1 := tileBase_range s.tileData (Memory.read s.vram s.pipe.mapAddr.toNat)
  have h2 := s.pipe.tileLine.isLt
  refine ⟨BitVec.ofNat 16 (tileBase s.tileData (Memory.read s.vram s.pipe.mapAddr.toNat) + 2 * s.pipe.tileLine.toNat),
    ?_, ?_, ?_, ?_⟩
  · rw [BitVec.toNat_ofNat]; omega
  · rw [BitVec.toNat_ofNat]; omega
  · rw [BitVec.toNat_ofNat]; omega
  · unfold dataLowAction
    rw [readVram_ok (by omega)]
    simp only [bind, Except.bind]
    rw [readVram_ok (by rw [BitVec.toNat_ofNat]; omega)]
    rfl

/-- The DataHigh action (R127), said once. -/
theorem dataHighAction_spec (s : State) (h : 0x8000 ≤ s.pipe.tileAddr.toNat ∧ s.pipe.tileAddr.toNat ≤ 0x97FE) :
    dataHighAction s = .ok { s with pipe.hi := Memory.read s.vram (s.pipe.tileAddr.toNat + 1) } := by
  have h1 : (s.pipe.tileAddr + 1).toNat = s.pipe.tileAddr.toNat + 1 := by
    rw [BitVec.toNat_add]
    simp only [BitVec.ofNat_eq_ofNat, BitVec.toNat_ofNat]
    omega
  unfold dataHighAction
  rw [readVram_ok (by rw [h1]; omega), h1]
  rfl

/-- The length of a decoded run: eight, less the discard on the first background tile (R129, R130). -/
theorem decodeRun_length (p : Pipeline) :
    (decodeRun p).length = 8 - if p.fetchX = 0 ∧ p.inWindow = false then p.discard.toNat else 0 := by
  unfold decodeRun
  split <;> simp [tileRow]

/-! ### A Push attempt -/

/-- The Push attempt of a legal pipeline ends as `DrainEnd` says; `r` is the length of the run it starts with. -/
theorem pushStep_spec (s : State) (hf : FifoAligned s.pipe) (hs : SpritesLegal s) (hphase : s.pipe.phase = .push)
    (hdot : s.pipe.phaseDot = 0) (hleft : s.pipe.sfetchLeft = 0)
    (hbg : ∀ q ∈ s.pipe.bgFifo, q.blank = false ∧ q.pal = .bg) (hsp : ∀ q ∈ s.pipe.spFifo, q.legal)
    (hrun : s.pipe.bgFifo.length + (decodeIfEmpty s).pipe.run.length ≤ 8) :
    ∃ p, pushStep s = { s with pipe := p } ∧ p.phaseDot = 0 ∧ p.outputX = s.pipe.outputX ∧ p.fetchX = s.pipe.fetchX ∧
      p.discard = s.pipe.discard ∧
      s.pipe.pushX ≤ p.pushX ∧ p.pushX ≤ s.pipe.pushX + (decodeIfEmpty s).pipe.run.length ∧ FifoAligned p ∧
      p.bgFifo.length + p.run.length ≤ 8 ∧ (∀ q ∈ p.bgFifo, q.blank = false ∧ q.pal = .bg) ∧ (∀ q ∈ p.spFifo, q.legal) ∧
      p.spPtr ≤ s.sel.length ∧ s.pipe.spPtr ≤ p.spPtr ∧
      (∀ a ∈ s.sel.drop p.spPtr, (p.pushX : Int) ≤ a.triggerX) ∧ DrainEnd (decodeIfEmpty s) { s with pipe := p } := by
  have hd : Draining (decodeIfEmpty s) := by
    unfold decodeIfEmpty at hrun ⊢
    split at hrun <;> rename_i hr <;> simp only [hr, ↓reduceIte] at hrun ⊢
    · exact ⟨hphase, hdot, hleft, ⟨hf.1, hf.2, hf.3, hf.4, hf.5⟩, hrun, hbg, hsp, hs.1, hs.3, hs.4⟩
    · exact ⟨hphase, hdot, hleft, hf, hrun, hbg, hsp, hs.1, hs.3, hs.4⟩
  have h := drainLoop_spec (decodeIfEmpty s).pipe.run.length (decodeIfEmpty s) le_rfl hd
  obtain ⟨p, q1, q2⟩ := h
  unfold decodeIfEmpty at q1 q2 ⊢
  refine ⟨p, ?_, ?_⟩
  · unfold pushStep
    unfold decodeIfEmpty
    rw [q1]
    split <;> rfl
  · split at q2 <;> rename_i hr <;> simp only [hr, ↓reduceIte] at q2 ⊢ <;> exact q2

/-! ### The dot -/

/-- The pipeline between the fetcher's step and the mixer's in a dot with no sprite fetch: as between two dots, but for
the pixel the mixer has yet to pop. -/
structure Fetched (s : State) : Prop where
  fifos : FifoAligned s.pipe
  sprites : SpritesLegal s
  phase_ne : s.pipe.phase ≠ .push
  run_nil : s.pipe.run = []
  idle : s.pipe.sfetchLeft = 0
  phaseDot_lt : s.pipe.phaseDot < 2
  fetch_le : s.pipe.fetchX ≤ 160
  elapsed_le : s.pipe.elapsed ≤ 7
  fifo_le : s.pipe.bgFifo.length + s.pipe.elapsed ≤ 8
  fetch_eq : s.pipe.phase = .dataLow ∨ s.pipe.phase = .dataHigh ∨ s.pipe.phase = .idle → s.pipe.fetchX = s.pipe.pushX
  map_range : s.pipe.phase = .dataLow → 0x9800 ≤ s.pipe.mapAddr.toNat ∧ s.pipe.mapAddr.toNat ≤ 0x9FFF
  tile_range : s.pipe.phase = .dataHigh → 0x8000 ≤ s.pipe.tileAddr.toNat ∧ s.pipe.tileAddr.toNat ≤ 0x97FE
  bg_pixels : ∀ q ∈ s.pipe.bgFifo, q.blank = false ∧ q.pal = .bg
  sp_pixels : ∀ q ∈ s.pipe.spFifo, q.legal

/-- The bound of `drawBudget` before the mixer has run in a dot: where all 160 pixels are drained, the mixer's pixel of
this dot is still to come. -/
theorem mixerDot_legal (s : State) (h : Fetched s) (hly : s.ly.toNat < 144) (ho : s.pipe.outputX < 160) :
    ∃ p f, mixerDot s = .ok { s with pipe := p, fb := f } ∧ FifoAligned p ∧ FetcherLegal p ∧
      SpritesLegal { s with pipe := p, fb := f } ∧
      (f = s.fb ∨ ∃ v, f = FrameBuffer.write s.fb (s.ly.toNat * screenW + s.pipe.outputX) v) ∧
      s.pipe.outputX ≤ p.outputX ∧ p.inWindow = s.pipe.inWindow ∧
      drawBudget { s with pipe := p, fb := f } + (if s.pipe.pushX = 160 then 1 else 0) ≤ drawBudget s := by
  rcases mixerDot_spec s h.fifos hly with ⟨hb, hm⟩ | ⟨bg, bgs, sp, sps, hb, hsf, ho', hm⟩
  · refine ⟨s.pipe, s.fb, hm, h.fifos, ?_, h.sprites, .inl rfl, le_rfl, rfl, ?_⟩
    · have he := h.elapsed_le
      exact ⟨h.phaseDot_lt, fun hp => absurd hp h.phase_ne, h.fetch_le, fun _ => ⟨h.run_nil, h.idle⟩,
        fun hp => absurd hp h.phase_ne, fun _ => by rw [hb]; simpa using he, h.fetch_eq, h.map_range, h.tile_range,
        h.bg_pixels, h.sp_pixels⟩
    · have h1 := h.fifos.bg_length
      rw [hb] at h1
      simp only [List.length_nil] at h1
      rw [if_neg (by omega)]
      rfl
  · refine ⟨_, _, hm, pop_aligned h.fifos hb hsf, ?_, ?_, .inr ⟨_, rfl⟩, by simp, rfl, ?_⟩
    · have he := h.fifo_le
      rw [hb] at he
      simp only [List.length_cons] at he
      refine ⟨h.phaseDot_lt, fun hp => absurd hp h.phase_ne, h.fetch_le, fun _ => ⟨h.run_nil, h.idle⟩,
        fun hp => absurd hp h.phase_ne, fun _ => ?_, h.fetch_eq, h.map_range, h.tile_range, fun q hq => ?_, fun q hq => ?_⟩
      · simp only [Pipeline.elapsed] at he ⊢; omega
      · exact h.bg_pixels q (by rw [hb]; exact List.mem_cons_of_mem _ hq)
      · exact h.sp_pixels q (by rw [hsf]; exact List.mem_cons_of_mem _ hq)
    · exact ⟨h.sprites.1, h.sprites.2, h.sprites.3, h.sprites.4, h.sprites.5⟩
    · unfold drawBudget
      simp only [screenW, Pipeline.elapsed]
      by_cases hp : s.pipe.pushX = 160
      · simp only [hp, if_true]; omega
      · simp only [hp, if_false]; omega

/-- A dot of a phase before Push moves the fetch on by one dot and leaves the FIFOs alone. -/
theorem advance_fetched (s : State) (h : DrawLegal s) (hp : s.pipe.phase ≠ .push) (ph : Phase) (d fx : Nat)
    (ma ta : Addr) (tl : BitVec 3) (lo hi : Byte)
    (he : 2 * ph.index + d = s.pipe.elapsed + 1) (hph : ph ≠ .push) (hd : d < 2) (hfx : fx ≤ 160)
    (hfe : ph = .dataLow ∨ ph = .dataHigh ∨ ph = .idle → fx = s.pipe.pushX)
    (hma : ph = .dataLow → 0x9800 ≤ ma.toNat ∧ ma.toNat ≤ 0x9FFF)
    (hta : ph = .dataHigh → 0x8000 ≤ ta.toNat ∧ ta.toNat ≤ 0x97FE) :
    Fetched { s with pipe := { s.pipe with phase := ph, phaseDot := d, fetchX := fx, mapAddr := ma, tileLine := tl, tileAddr := ta, lo := lo, hi := hi } } ∧
      drawBudget { s with pipe := { s.pipe with phase := ph, phaseDot := d, fetchX := fx, mapAddr := ma, tileLine := tl, tileAddr := ta, lo := lo, hi := hi } } +
        (if s.pipe.pushX = 160 then 0 else 1) ≤ drawBudget s := by
  have h7 := h.fetcher.fifo_le hp
  have hr := h.fetcher.run_nil hp
  simp only [Pipeline.elapsed] at he h7
  have hle : 2 * ph.index + d ≤ 7 := by
    cases ph <;> simp only [Phase.index] <;> first | omega | exact absurd rfl hph
  have hpl := h.fifos.push_le
  simp only [screenW] at hpl
  constructor
  · have hf := h.fifos
    have hs := h.sprites
    exact ⟨⟨hf.1, hf.2, hf.3, hf.4, hf.5⟩, ⟨hs.1, hs.2, hs.3, hs.4, hs.5⟩, hph, hr.1, hr.2, hd, hfx,
      by simp only [Pipeline.elapsed]; omega, by simp only [Pipeline.elapsed]; omega, hfe, hma, hta,
      h.fetcher.bg_pixels, h.fetcher.sp_pixels⟩
  · unfold drawBudget
    simp only [screenW, hp, hph, if_false, Pipeline.elapsed]
    by_cases hx : s.pipe.pushX = 160
    · simp only [hx, if_true]; omega
    · simp only [hx, if_false]
      omega

/-- A Push attempt on a legal pipeline, from the phase Push or on Idle's second dot. -/
theorem pushStep_legal (s : State) (hf : FifoAligned s.pipe) (hs : SpritesLegal s) (hphase : s.pipe.phase = .push)
    (hdot : s.pipe.phaseDot = 0) (hleft : s.pipe.sfetchLeft = 0) (ho : s.pipe.outputX < 160) (hfx : s.pipe.fetchX ≤ 160)
    (hbg : ∀ q ∈ s.pipe.bgFifo, q.blank = false ∧ q.pal = .bg) (hsp : ∀ q ∈ s.pipe.spFifo, q.legal)
    (hrun : s.pipe.bgFifo.length + (decodeIfEmpty s).pipe.run.length ≤ 8)
    (hpos : 0 < (decodeIfEmpty s).pipe.run.length) (b : Nat)
    (hb : b = s.pipe.sfetchLeft + 6 * (s.sel.length - s.pipe.spPtr) +
      (if s.pipe.pushX = 160 then 160 - s.pipe.outputX
       else 168 - s.pipe.pushX - (decodeIfEmpty s).pipe.run.length + (if s.pipe.inWindow then 0 else 8))) :
    ∃ p, pushStep s = { s with pipe := p } ∧ p.outputX = s.pipe.outputX ∧
      (s.pipe.inWindow = true → p.inWindow = true) ∧
      ((p.sfetchLeft = 0 ∧ Fetched { s with pipe := p } ∧
          drawBudget { s with pipe := p } + (if p.pushX = 160 then 0 else 1) ≤ b) ∨
       (p.sfetchLeft = spriteFetchDots ∧ FifoAligned p ∧ FetcherLegal p ∧
          SpritesLegal { s with pipe := { p with sfetchLeft := p.sfetchLeft - 1 } } ∧
          drawBudget { s with pipe := { p with sfetchLeft := p.sfetchLeft - 1 } } + 1 ≤ b)) := by
  obtain ⟨p, q1, q2, q3, q4, _, q5, q6, q7, q8, q9, q10, q11, q12, q13, q14⟩ :=
    pushStep_spec s hf hs hphase hdot hleft hbg hsp hrun
  have hsame : (decodeIfEmpty s).pipe.pushX = s.pipe.pushX ∧ (decodeIfEmpty s).pipe.inWindow = s.pipe.inWindow ∧
      (decodeIfEmpty s).pipe.spPtr = s.pipe.spPtr ∧ (decodeIfEmpty s).sel = s.sel := by
    unfold decodeIfEmpty; split <;> exact ⟨rfl, rfl, rfl, rfl⟩
  have hpl := hf.push_le
  have hpl' := q7.push_le
  have hbl := hf.bg_length
  have hbl' := q7.bg_length
  simp only [screenW] at hpl hpl'
  rcases hsame with ⟨s1, s2, s3, s4⟩
  refine ⟨p, q1, q3, ?_, ?_⟩
  · intro hw
    cases q14 with
    | done e1 e2 e3 e4 e5 => exact e4.trans (s2.trans hw)
    | window e1 e2 e3 e4 e5 e6 => exact e5
    | sprite e1 e2 e3 e4 e5 e6 e7 e8 e9 => exact e4.trans (s2.trans hw)
  · cases q14 with
    | done e1 e2 e3 e4 e5 =>
      simp only [screenW, s1] at e5
      simp only [s2] at e4
      simp only at e1 e2 e3
      refine .inl ⟨e3, ?_, ?_⟩
      · refine ⟨q7, ⟨q11, by rw [e3]; decide, hs.3, q13, fun hc => by rw [e3] at hc; omega⟩, by rw [e1]; decide, e2, e3,
          by rw [q2]; decide, by rw [q4]; exact hfx, ?_, ?_, ?_, ?_, ?_, q9, q10⟩
        · simp [Pipeline.elapsed, e1, q2, Phase.index]
        · simp [Pipeline.elapsed, e1, q2, Phase.index]; omega
        · rw [e1]; rintro (h | h | h) <;> cases h
        · rw [e1]; intro h; cases h
        · rw [e1]; intro h; cases h
      · subst hb
        unfold drawBudget
        simp only [screenW, spriteFetchDots, e1, e3, e4, Pipeline.elapsed, q2, Phase.index, reduceCtorEq, if_false]
        split_ifs <;> omega
    | window e1 e2 e3 e4 e5 e6 =>
      simp only [screenW] at e6
      simp only [s2] at e4
      simp only at e1 e2 e3 e5
      refine .inl ⟨e3, ?_, ?_⟩
      · refine ⟨q7, ⟨q11, by rw [e3]; decide, hs.3, q13, fun hc => by rw [e3] at hc; omega⟩, by rw [e1]; decide, e2, e3,
          by rw [q2]; decide, by rw [q4]; exact hfx, ?_, ?_, ?_, ?_, ?_, q9, q10⟩
        · simp [Pipeline.elapsed, e1, q2, Phase.index]
        · simp [Pipeline.elapsed, e1, q2, Phase.index]; omega
        · rw [e1]; rintro (h | h | h) <;> cases h
        · rw [e1]; intro h; cases h
        · rw [e1]; intro h; cases h
      · subst hb
        unfold drawBudget
        simp only [screenW, spriteFetchDots, e1, e3, e4, e5, Pipeline.elapsed, q2, Phase.index, reduceCtorEq, if_false]
        split_ifs <;> simp_all <;> omega
    | sprite e1 e2 e3 e4 e5 e6 e7 e8 e9 =>
      simp only [screenW] at e5
      simp only [s1] at e6
      simp only [s2] at e4
      simp only [s3] at e7
      simp only [s4] at e8
      simp only at e1 e2 e3
      refine .inr ⟨e3, q7, ?_, ?_, ?_⟩
      · refine ⟨by rw [q2]; decide, fun _ => q2, by rw [q4]; exact hfx, fun h => absurd e1 h, fun _ => ⟨e2, e5, q8⟩,
          fun h => absurd e1 h, ?_, ?_, ?_, q9, q10⟩
        · rw [e1]; rintro (h | h | h) <;> cases h
        · rw [e1]; intro h; cases h
        · rw [e1]; intro h; cases h
      · exact ⟨q11, by simp only [e3]; decide, hs.3, q13, fun _ => ⟨e8, e9⟩⟩
      · subst hb
        unfold drawBudget
        simp only [screenW, spriteFetchDots, e1, e3, e4, if_true]
        split_ifs <;> omega

/-- One dot of the fetcher on a legal pipeline with no sprite fetch in progress: a state ready for the mixer, or a
sprite fetch just begun; the budget has fallen. -/
theorem fetcherStep_legal (s : State) (h : DrawLegal s) (ho : s.pipe.outputX < 160) (hi : s.pipe.sfetchLeft = 0) :
    ∃ p, fetcherStep s = .ok { s with pipe := p } ∧ p.outputX = s.pipe.outputX ∧
      (s.pipe.inWindow = true → p.inWindow = true) ∧
      ((p.sfetchLeft = 0 ∧ Fetched { s with pipe := p } ∧
          drawBudget { s with pipe := p } + (if p.pushX = 160 then 0 else 1) ≤ drawBudget s) ∨
       (p.sfetchLeft = spriteFetchDots ∧ FifoAligned p ∧ FetcherLegal p ∧
          SpritesLegal { s with pipe := { p with sfetchLeft := p.sfetchLeft - 1 } } ∧
          drawBudget { s with pipe := { p with sfetchLeft := p.sfetchLeft - 1 } } + 1 ≤ drawBudget s)) := by
  have hf := h.fetcher
  have hlt := hf.phaseDot_lt
  simp only [fetchPhaseDots] at hlt
  have hpl := h.fifos.push_le
  simp only [screenW] at hpl
  have hfl := hf.fetch_le
  simp only [screenW] at hfl
  cases hph : s.pipe.phase with
  | getTile =>
    have hne : s.pipe.phase ≠ .push := by rw [hph]; decide
    simp only [fetcherStep, hph, fetchPhaseDots]
    by_cases hd : s.pipe.phaseDot + 1 < 2
    · rw [if_pos hd]
      have ha := advance_fetched s h hne .getTile (s.pipe.phaseDot + 1) s.pipe.fetchX s.pipe.mapAddr s.pipe.tileAddr
        s.pipe.tileLine s.pipe.lo s.pipe.hi (by simp [Pipeline.elapsed, hph, Phase.index]) (by decide) hd hfl
        (by rintro (h | h | h) <;> cases h) (by intro h; cases h) (by intro h; cases h)
      exact ⟨_, rfl, rfl, id, .inl ⟨hi, ha⟩⟩
    · rw [if_neg hd]
      have hd1 : s.pipe.phaseDot = 1 := by omega
      have hr := tileCoords_mapAddr_range s s.pipe.pushX
      have ha := advance_fetched s h hne .dataLow 0 s.pipe.pushX (tileCoords s s.pipe.pushX).mapAddr s.pipe.tileAddr
        (tileCoords s s.pipe.pushX).line s.pipe.lo s.pipe.hi (by simp [Pipeline.elapsed, hph, Phase.index, hd1])
        (by decide) (by omega) hpl (fun _ => rfl) (fun _ => hr) (by intro h; cases h)
      exact ⟨_, rfl, rfl, id, .inl ⟨hi, ha⟩⟩
  | dataLow =>
    have hne : s.pipe.phase ≠ .push := by rw [hph]; decide
    simp only [fetcherStep, hph, fetchPhaseDots]
    by_cases hd : s.pipe.phaseDot + 1 < 2
    · rw [if_pos hd]
      have ha := advance_fetched s h hne .dataLow (s.pipe.phaseDot + 1) s.pipe.fetchX s.pipe.mapAddr s.pipe.tileAddr
        s.pipe.tileLine s.pipe.lo s.pipe.hi (by simp [Pipeline.elapsed, hph, Phase.index]; omega) (by decide) hd hfl
        (fun _ => hf.fetch_eq (.inl hph)) (fun _ => hf.map_range hph) (by intro h; cases h)
      exact ⟨_, rfl, rfl, id, .inl ⟨hi, ha⟩⟩
    · rw [if_neg hd]
      have hd1 : s.pipe.phaseDot = 1 := by omega
      obtain ⟨a, a1, a2, a3, a4⟩ := dataLowAction_spec s (hf.map_range hph)
      rw [a4]
      have ha := advance_fetched s h hne .dataHigh 0 s.pipe.fetchX s.pipe.mapAddr a
        s.pipe.tileLine (Memory.read s.vram a.toNat) s.pipe.hi (by simp [Pipeline.elapsed, hph, Phase.index, hd1])
        (by decide) (by omega) hfl (fun _ => hf.fetch_eq (.inl hph)) (by intro h; cases h) (fun _ => ⟨a2, a3⟩)
      exact ⟨_, rfl, rfl, id, .inl ⟨hi, ha⟩⟩
  | dataHigh =>
    have hne : s.pipe.phase ≠ .push := by rw [hph]; decide
    simp only [fetcherStep, hph, fetchPhaseDots]
    by_cases hd : s.pipe.phaseDot + 1 < 2
    · rw [if_pos hd]
      have ha := advance_fetched s h hne .dataHigh (s.pipe.phaseDot + 1) s.pipe.fetchX s.pipe.mapAddr s.pipe.tileAddr
        s.pipe.tileLine s.pipe.lo s.pipe.hi (by simp [Pipeline.elapsed, hph, Phase.index]; omega) (by decide) hd hfl
        (fun _ => hf.fetch_eq (.inr (.inl hph))) (by intro h; cases h) (fun _ => hf.tile_range hph)
      exact ⟨_, rfl, rfl, id, .inl ⟨hi, ha⟩⟩
    · rw [if_neg hd]
      have hd1 : s.pipe.phaseDot = 1 := by omega
      rw [dataHighAction_spec s (hf.tile_range hph)]
      have ha := advance_fetched s h hne .idle 0 s.pipe.fetchX s.pipe.mapAddr s.pipe.tileAddr
        s.pipe.tileLine s.pipe.lo (Memory.read s.vram (s.pipe.tileAddr.toNat + 1))
        (by simp [Pipeline.elapsed, hph, Phase.index, hd1])
        (by decide) (by omega) hfl (fun _ => hf.fetch_eq (.inr (.inl hph))) (by intro h; cases h) (by intro h; cases h)
      exact ⟨_, rfl, rfl, id, .inl ⟨hi, ha⟩⟩
  | idle =>
    have hne : s.pipe.phase ≠ .push := by rw [hph]; decide
    simp only [fetcherStep, hph, fetchPhaseDots]
    by_cases hd : s.pipe.phaseDot + 1 < 2
    · rw [if_pos hd]
      have ha := advance_fetched s h hne .idle (s.pipe.phaseDot + 1) s.pipe.fetchX s.pipe.mapAddr s.pipe.tileAddr
        s.pipe.tileLine s.pipe.lo s.pipe.hi (by simp [Pipeline.elapsed, hph, Phase.index]; omega) (by decide) hd hfl
        (fun _ => hf.fetch_eq (.inr (.inr hph))) (by intro h; cases h) (by intro h; cases h)
      exact ⟨_, rfl, rfl, id, .inl ⟨hi, ha⟩⟩
    · rw [if_neg hd]
      have hd1 : s.pipe.phaseDot = 1 := by omega
      have hr := (hf.run_nil hne).1
      have h7 := hf.fifo_le hne
      have hfe := hf.fetch_eq (.inr (.inr hph))
      have hdl := s.pipe.discard.isLt
      have hlen := decodeRun_length { s.pipe with phaseDot := 0, phase := .push }
      simp only [Pipeline.elapsed, hph, Phase.index, hd1] at h7
      simp only at hlen
      have hrl : (decodeIfEmpty { s with pipe.phaseDot := 0, pipe.phase := .push }).pipe.run.length =
          8 - if s.pipe.fetchX = 0 ∧ s.pipe.inWindow = false then s.pipe.discard.toNat else 0 := by
        rw [← hlen]; simp [decodeIfEmpty, hr]
      have hfi := h.fifos
      have hsp := h.sprites
      obtain ⟨p, p1, p2, p3, p4⟩ := pushStep_legal { s with pipe.phaseDot := 0, pipe.phase := .push }
        ⟨hfi.1, hfi.2, hfi.3, hfi.4, hfi.5⟩ ⟨hsp.1, hsp.2, hsp.3, hsp.4, hsp.5⟩ rfl rfl hi ho hfl hf.bg_pixels hf.sp_pixels
        (by rw [hrl]; simp only; omega) (by rw [hrl]; split <;> omega) (drawBudget s) (by
          rw [hrl]
          unfold drawBudget
          simp only [screenW, spriteFetchDots, Pipeline.elapsed, hph, Phase.index, hd1, reduceCtorEq, if_false, hfe]
          split_ifs <;> omega)
      exact ⟨p, by rw [p1], p2, p3, p4⟩
  | push =>
    obtain ⟨r1, r2, r3⟩ := hf.run_held hph
    have hrl : (decodeIfEmpty s).pipe.run.length = s.pipe.run.length := by simp [decodeIfEmpty, r1]
    simp only [fetcherStep, hph]
    obtain ⟨p, p1, p2, p3, p4⟩ := pushStep_legal s h.fifos h.sprites hph (hf.push_phaseDot hph) hi ho hfl hf.bg_pixels
      hf.sp_pixels (by rw [hrl]; exact r3) (by rw [hrl]; exact List.length_pos_of_ne_nil r1) (drawBudget s) (by
        rw [hrl]
        unfold drawBudget
        simp only [screenW, spriteFetchDots, hph, if_true])
    exact ⟨p, by rw [p1], p2, p3, p4⟩

/-- The stall dot of a sprite fetch on a legal pipeline (R121, R142): one dot less to go, and on the last one the
overlay into the sprite FIFO. -/
theorem spriteStallDot_legal (s : State) (h : DrawLegal s) (hsel : SelLegal s) (hp : 0 < s.pipe.sfetchLeft) :
    ∃ q, spriteStallDot s = .ok { s with pipe.sfetchLeft := s.pipe.sfetchLeft - 1, pipe.spFifo := q } ∧
      (1 < s.pipe.sfetchLeft → q = s.pipe.spFifo) ∧
      FifoAligned { s.pipe with sfetchLeft := s.pipe.sfetchLeft - 1, spFifo := q } ∧ (∀ e ∈ q, e.legal) := by
  obtain ⟨hcur, htrig⟩ := h.sprites.fetching hp
  have hf := h.fifos
  have h1 := hf.push_le
  have h2 := hf.bg_length
  have h3 := hf.bg_le_sp
  have h4 := hf.sp_le
  simp only [screenW] at h1 h4
  unfold spriteStallDot
  simp only
  by_cases hz : s.pipe.sfetchLeft - 1 = 0
  · rw [if_pos hz]
    obtain ⟨q, e1, e2, e3, e4⟩ := spriteFetchComplete_spec { s with pipe.sfetchLeft := s.pipe.sfetchLeft - 1 }
      (by simp only [htrig]; omega) (by simp only [htrig]; omega) h4
    have ha := overlay_aligned (p := { s.pipe with sfetchLeft := s.pipe.sfetchLeft - 1 }) ⟨hf.1, hf.2, hf.3, hf.4, hf.5⟩
      h.fetcher.sp_pixels (hsel.records _ hcur).oam_lt e2 e3 _ e4
    exact ⟨q, e1, fun hc => by omega, ha.1, ha.2⟩
  · rw [if_neg hz]
    exact ⟨s.pipe.spFifo, rfl, fun _ => rfl, ⟨hf.1, hf.2, hf.3, hf.4, hf.5⟩, h.fetcher.sp_pixels⟩

/-- One dot of the pipeline, said once (R121): on a legal pipeline it does not fault; only the pipeline and at most one
byte of the frame buffer change; the pipeline stays legal; while pixels are missing the budget falls. -/
theorem pipelineDot_legal (s : State) (h : DrawLegal s) (hsel : SelLegal s) (hly : s.ly.toNat < 144) :
    ∃ p f, pipelineDot s = .ok { s with pipe := p, fb := f } ∧ FifoAligned p ∧ FetcherLegal p ∧
      SpritesLegal { s with pipe := p, fb := f } ∧
      (f = s.fb ∨ s.pipe.outputX < 160 ∧ ∃ v, f = FrameBuffer.write s.fb (s.ly.toNat * screenW + s.pipe.outputX) v) ∧
      s.pipe.outputX ≤ p.outputX ∧ (s.pipe.inWindow = true → p.inWindow = true) ∧
      (s.pipe.outputX < 160 → drawBudget { s with pipe := p, fb := f } + 1 ≤ drawBudget s) := by
  have hpl := h.fifos.push_le
  have hbl := h.fifos.bg_length
  simp only [screenW] at hpl
  unfold pipelineDot
  simp only [screenW]
  by_cases ho : s.pipe.outputX = 160
  · rw [if_pos ho]
    exact ⟨s.pipe, s.fb, rfl, h.fifos, h.fetcher, h.sprites, .inl rfl, le_rfl, id, fun hc => by omega⟩
  · rw [if_neg ho]
    have ho' : s.pipe.outputX < 160 := by omega
    by_cases hl : 0 < s.pipe.sfetchLeft
    · rw [if_pos hl]
      obtain ⟨q, e1, e2, e3, e4⟩ := spriteStallDot_legal s h hsel hl
      have hf := h.fetcher
      have hs := h.sprites
      have hphase : s.pipe.phase = .push := by
        by_contra hc
        have := (hf.run_nil hc).2
        omega
      refine ⟨_, s.fb, e1, e3, ⟨hf.1, hf.2, hf.3, fun hc => absurd hphase hc, hf.5, fun hc => absurd hphase hc, hf.7, hf.8,
        hf.9, hf.10, e4⟩, ⟨hs.1, ?_, hs.3, hs.4, fun hc => hs.5 (by simp only at hc; omega)⟩, .inl rfl, le_rfl, id, ?_⟩
      · have := hs.2
        simp only
        omega
      · intro _
        unfold drawBudget
        simp only [screenW, hphase, if_true, Pipeline.elapsed]
        split_ifs <;> omega
    · rw [if_neg hl]
      obtain ⟨p, p1, p2, p3, p4⟩ := fetcherStep_legal s h ho' (by omega)
      rw [p1]
      simp only [bind, Except.bind]
      rcases p4 with ⟨q1, q2, q3⟩ | ⟨q1, q2, q3, q4, q5⟩
      · rw [if_neg (by omega)]
        obtain ⟨r, f, r1, r2, r3, r4, r5, r6, r7, r8⟩ := mixerDot_legal { s with pipe := p } q2 hly (by simp only; omega)
        refine ⟨r, f, r1, r2, r3, r4, ?_, by simp only at r6; omega, fun hw => r7.trans (p3 hw), fun _ => ?_⟩
        · simp only [p2] at r5
          exact r5.imp id fun h => ⟨ho', h⟩
        · simp only at r8
          split_ifs at q3 r8 <;> omega
      · rw [if_pos (by rw [q1]; decide)]
        refine ⟨_, s.fb, rfl, ⟨q2.1, q2.2, q2.3, q2.4, q2.5⟩, ?_, q4, .inl rfl, by simp only; omega, p3, fun _ => q5⟩
        have hph : p.phase = .push := by
          by_contra hc
          have := (q3.run_nil hc).2
          rw [q1] at this
          cases this
        exact ⟨q3.1, q3.2, q3.3, fun hc => absurd hph hc, q3.5, fun hc => absurd hph hc, q3.7, q3.8, q3.9, q3.10, q3.11⟩

end Sys2Proof.Machine
end

