-- ==== Sys2Proof/Laws/Schedule.lean ====
section
/-! SUPPORT. What each part of a dot does to the schedule (R98 to R108): from a legal state no part faults, and each
leaves the state that the next part starts from. -/

namespace Sys2Proof.Machine

/-! ### The scanner -/

theorem insertSprite_perm (a : SpriteAttr) (l : List SpriteAttr) : (insertSprite a l).Perm (a :: l) := by
  induction l with
  | nil => exact List.Perm.refl _
  | cons b l ih =>
    rw [insertSprite]
    split
    · exact List.Perm.refl _
    · exact (List.Perm.cons b ih).trans (List.Perm.swap a b l)

theorem sortSprites_perm (l : List SpriteAttr) : (sortSprites l).Perm l := by
  induction l with
  | nil => exact List.Perm.refl _
  | cons a l ih => exact (insertSprite_perm a _).trans (List.Perm.cons a ih)

theorem before_iff (a b : SpriteAttr) : a.before b = true ↔ a.x < b.x ∨ (a.x = b.x ∧ a.oam ≤ b.oam) := by
  simp [SpriteAttr.before]

theorem insertSprite_sorted (a : SpriteAttr) {l : List SpriteAttr}
    (h : l.Pairwise fun b c => b.x < c.x ∨ (b.x = c.x ∧ b.oam ≤ c.oam)) :
    (insertSprite a l).Pairwise fun b c => b.x < c.x ∨ (b.x = c.x ∧ b.oam ≤ c.oam) := by
  induction l with
  | nil => exact List.pairwise_singleton _ _
  | cons b l ih =>
    rw [insertSprite]
    have hb := (List.pairwise_cons.1 h).1
    split
    · rename_i hab
      rw [before_iff] at hab
      refine List.pairwise_cons.2 ⟨fun c hc => ?_, h⟩
      rcases List.mem_cons.1 hc with rfl | hc
      · exact hab
      · have := hb c hc
        omega
    · rename_i hab
      rw [before_iff] at hab
      refine List.pairwise_cons.2 ⟨fun c hc => ?_, ih (List.pairwise_cons.1 h).2⟩
      rcases List.mem_cons.1 ((insertSprite_perm a l).subset hc) with rfl | hc
      · omega
      · exact hb c hc

/-- The sorted list is in ascending (x, oam) order (R117). -/
theorem sortSprites_sorted (l : List SpriteAttr) :
    (sortSprites l).Pairwise fun b c => b.x < c.x ∨ (b.x = c.x ∧ b.oam ≤ c.oam) := by
  induction l with
  | nil => exact List.Pairwise.nil
  | cons a l ih => exact insertSprite_sorted a ih

/-- One scan dot inside the table (R114): no fault; only the scratch bytes and the list change, and the list by at most
the entry of this dot, which covers the line. -/
theorem oamScanDot_spec (d : Nat) (s : State) (hd : d < 80) :
    ∃ y x l, oamScanDot d s = .ok { s with scanY := y, scanX := x, sel := l } ∧
      ((l = s.sel) ∨ (s.sel.length < 10 ∧ ∃ a : SpriteAttr, l = s.sel ++ [a] ∧ a.covers s.ly = true ∧ a.Legal ∧
        a.oam = d / 2 ∧ d % 2 = 1)) := by
  unfold oamScanDot
  simp only
  split
  · rw [readOam_ok (by omega), readOam_ok (by omega)]
    exact ⟨_, _, s.sel, rfl, .inl rfl⟩
  · rename_i hodd
    rw [readOam_ok (by omega), readOam_ok (by omega)]
    simp only [bind, Except.bind, pure, Except.pure]
    unfold evaluateSprite
    simp only [maxSpritesPerLine]
    split
    · rename_i hc
      refine ⟨s.scanY, s.scanX, _, rfl, .inr ⟨hc.1, _, rfl, hc.2, ?_, rfl, by omega⟩⟩
      have h1 := s.scanY.isLt
      have h2 := s.scanX.isLt
      refine ⟨⟨?_, ?_⟩, ⟨?_, ?_⟩, ?_, ?_⟩
      · simp only [spriteOf]; omega
      · simp only [spriteOf]; omega
      · simp only [spriteOf]; omega
      · simp only [spriteOf]; omega
      · simp only [spriteOf, oamEntries]; omega
      · simp only [spriteOf, State.objHeight]
        split
        · exact .inr rfl
        · exact .inl rfl
    · exact ⟨s.scanY, s.scanX, s.sel, rfl, .inl rfl⟩

/-! ### The parts of a dot -/

/-- What the mode says of the position while a dot runs, after its line start (R98). -/
def Running (s : State) : Prop :=
  match s.mode with
  | .oamScan =>
    s.ly.toNat < 144 ∧ s.lineDot < 80 ∧ (∀ a ∈ s.sel, a.covers s.ly = true) ∧ ∀ a ∈ s.sel, a.oam < s.lineDot / 2
  | .draw =>
    s.ly.toNat < 144 ∧ s.lineDot = 80 + s.drawDots ∧ (∀ a ∈ s.sel, a.covers s.ly = true) ∧ DrawLegal s
  | .hblank => s.ly.toNat < 144 ∧ 252 ≤ s.lineDot
  | .vblank => 144 ≤ s.ly.toNat

/-- What the mode says of the position before the end of a dot (R106). -/
def Ran (s : State) : Prop :=
  match s.mode with
  | .oamScan =>
    s.ly.toNat < 144 ∧ s.lineDot < 79 ∧ (∀ a ∈ s.sel, a.covers s.ly = true) ∧
      ∀ a ∈ s.sel, a.oam < (s.lineDot + 1) / 2
  | .draw =>
    s.ly.toNat < 144 ∧ s.lineDot + 1 = 80 + s.drawDots ∧ (∀ a ∈ s.sel, a.covers s.ly = true) ∧ DrawLegal s
  | .hblank => s.ly.toNat < 144 ∧ 252 ≤ s.lineDot + 1
  | .vblank => 144 ≤ s.ly.toNat

/-- The part of the invariant that no mode handler touches. -/
structure Steady (s : State) : Prop where
  ly_lt : s.ly.toNat < 154
  dot_lt : s.lineDot < 456
  window_le : s.windowLine ≤ s.ly.toNat ∧ s.windowLine ≤ 144
  on : s.engineOn = true
  follows : s.lcdEnable = true
  sel : SelLegal s
  memory : MemoryLegal s

/-- The line start of a dot from the invariant (R99 to R102). -/
theorem lineStartIfDue_spec {s : State} (h : Inv s) (hon : s.engineOn = true) :
    Steady (lineStartIfDue s) ∧ Running (lineStartIfDue s) ∧ (lineStartIfDue s).lineDot = s.lineDot ∧
      (lineStartIfDue s).ly = s.ly := by
  have hfol : s.lcdEnable = true := by rw [← h.engine.follows]; exact hon
  have hw := h.window_le
  have hl := h.ly_lt
  have hd := h.dot_lt
  simp only [screenH, linesPerFrame, dotsPerLine] at hw hl hd
  unfold lineStartIfDue
  by_cases hz : s.lineDot = 0
  · rw [if_pos hz]
    have hm := h.mode
    unfold lineStart
    simp only [screenH]
    have hly : (lycCompare s).ly = s.ly := by simp [lycCompare]
    rw [hly]
    by_cases h1 : s.ly.toNat < 144
    · rw [if_pos h1]
      refine ⟨⟨?_, ?_, ?_, ?_, ?_, ?_, ?_⟩, ?_, ?_, ?_⟩
      · simpa [enterOamScan, lycCompare] using hl
      · simp [enterOamScan, lycCompare, hz]
      · simpa [enterOamScan, lycCompare] using hw
      · simpa [enterOamScan, lycCompare] using hon
      · simpa [State.lcdEnable, enterOamScan, lycCompare] using hfol
      · exact ⟨by simp [enterOamScan], by simp [enterOamScan]⟩
      · have hm := h.memory
        exact ⟨by simpa [enterOamScan, lycCompare] using hm.1, by simpa [enterOamScan, lycCompare] using hm.2,
          by simpa [enterOamScan, lycCompare] using hm.3, by simpa [enterOamScan, lycCompare] using hm.4⟩
      · have hmode : (enterOamScan (lycCompare s)).mode = .oamScan := by simp [enterOamScan]
        unfold Running
        rw [hmode]
        refine ⟨by simpa [enterOamScan, lycCompare] using h1, by simp [enterOamScan, lycCompare, hz], ?_, ?_⟩
        · simp [enterOamScan]
        · simp [enterOamScan]
      · simp [enterOamScan, lycCompare]
      · simp [enterOamScan, lycCompare]
    · rw [if_neg h1]
      have hsteady : ∀ t : State, t.ly = s.ly → t.lineDot = s.lineDot → t.windowLine = s.windowLine →
          t.engineOn = s.engineOn → t.lcdc = s.lcdc → t.sel = s.sel → t.vram = s.vram → t.oam = s.oam → t.fb = s.fb →
          (∀ f ∈ t.presented, f = s.fb ∨ f ∈ s.presented) → Steady t := by
        intro t e1 e2 e3 e4 e5 e6 e7 e8 e9 e10
        refine ⟨by rw [e1]; exact hl, by rw [e2]; exact hd, by rw [e3, e1]; exact hw, by rw [e4]; exact hon,
          by rw [State.lcdEnable, e5]; exact hfol, ⟨by rw [e6]; exact h.sel.1, by rw [e6]; exact h.sel.2⟩,
          ⟨by rw [e7]; exact h.memory.1, by rw [e8]; exact h.memory.2, by rw [e9]; exact h.memory.3, fun f hf => ?_⟩⟩
        rcases e10 f hf with rfl | hf
        · exact h.memory.3
        · exact h.memory.4 f hf
      by_cases h2 : s.ly.toNat = 144
      · rw [if_pos h2]
        have hst : Steady (enterVblank (lycCompare s)) := by
          apply hsteady <;> simp [enterVblank, lycCompare]
        refine ⟨hst, ?_, by simp [enterVblank, lycCompare], by simp [enterVblank, lycCompare]⟩
        · have hmode : (enterVblank (lycCompare s)).mode = .vblank := by simp [enterVblank]
          unfold Running
          rw [hmode]
          simp [enterVblank, lycCompare, h2]
      · rw [if_neg h2]
        have hv : s.mode = .vblank := by
          unfold ModeLegal at hm
          simp only [screenH] at hm
          split at hm <;> rename_i hmode
          · omega
          · omega
          · omega
          · exact hmode
        have hst : Steady (lycCompare s) := by
          apply hsteady <;> simp +contextual [lycCompare]
        refine ⟨hst, ?_, by simp [lycCompare], by simp [lycCompare]⟩
        · have hmode : (lycCompare s).mode = .vblank := by simpa [lycCompare] using hv
          unfold Running
          rw [hmode]
          simp [lycCompare]
          omega
  · rw [if_neg hz]
    refine ⟨⟨hl, hd, hw, hon, hfol, h.sel, h.memory⟩, ?_, rfl, rfl⟩
    have hm := h.mode
    unfold ModeLegal at hm
    unfold Running
    simp only [screenH, oamScanDots, drawMinDots] at hm
    cases hmode : s.mode with
    | oamScan => rw [hmode] at hm; exact ⟨hm.1, hm.2.2.1, hm.2.2.2.1, hm.2.2.2.2⟩
    | draw => rw [hmode] at hm; exact hm
    | hblank => rw [hmode] at hm; simp only at hm ⊢; omega
    | vblank => rw [hmode] at hm; simp only at hm ⊢; omega

/-- The mode handler of a dot (R98, R103, R104, R105). -/
theorem modeDot_spec {s : State} (h : Steady s) (hr : Running s) :
    ∃ t, modeDot s = .ok t ∧ Steady t ∧ Ran t ∧ t.lineDot = s.lineDot ∧ t.ly = s.ly ∧ t.winLineOk = s.winLineOk ∧
      t.windowLine = s.windowLine ∧ (s.mode = .draw → t.drawDots = s.drawDots + 1 ∧
        (t.mode = .draw ∨ (t.mode = .hblank ∧ 172 ≤ t.drawDots ∧ t.drawDots ≤ 242))) := by
  unfold modeDot
  unfold Running at hr
  cases hmode : s.mode with
  | hblank =>
    rw [hmode] at hr
    exact ⟨s, rfl, h, by unfold Ran; rw [hmode]; exact ⟨hr.1, by omega⟩, rfl, rfl, rfl, rfl, fun hc => by cases hc⟩
  | vblank =>
    rw [hmode] at hr
    exact ⟨s, rfl, h, by unfold Ran; rw [hmode]; exact hr, rfl, rfl, rfl, rfl, fun hc => by cases hc⟩
  | oamScan =>
    rw [hmode] at hr
    obtain ⟨hr1, hr2, hr3, hr4⟩ := hr
    obtain ⟨y, x, l, e1, e2⟩ := oamScanDot_spec s.lineDot s hr2
    have hlen : l.length ≤ 10 := by
      have := h.sel.length_le
      simp only [maxSpritesPerLine] at this
      rcases e2 with rfl | ⟨h1, a, rfl, _⟩
      · exact this
      · rw [List.length_append, List.length_singleton]; omega
    have hleg : ∀ a ∈ l, a.Legal := by
      rcases e2 with rfl | ⟨h1, a, rfl, _, ha, _⟩
      · exact h.sel.2
      · intro b hb
        rcases List.mem_append.1 hb with hb | hb
        · exact h.sel.2 b hb
        · rw [List.mem_singleton.1 hb]; exact ha
    have hcov : ∀ a ∈ l, a.covers s.ly = true := by
      rcases e2 with rfl | ⟨h1, a, rfl, ha, _⟩
      · exact hr3
      · intro b hb
        rcases List.mem_append.1 hb with hb | hb
        · exact hr3 b hb
        · rw [List.mem_singleton.1 hb]; exact ha
    have hoam : ∀ a ∈ l, a.oam < (s.lineDot + 1) / 2 := by
      rcases e2 with rfl | ⟨h1, a, rfl, _, _, ha, hodd⟩
      · intro b hb
        have := hr4 b hb
        omega
      · intro b hb
        rcases List.mem_append.1 hb with hb | hb
        · have := hr4 b hb
          omega
        · rw [List.mem_singleton.1 hb, ha]; omega
    unfold oamDot
    rw [e1]
    simp only [bind, Except.bind, pure, Except.pure, oamScanDots]
    by_cases hlast : s.lineDot = 79
    · rw [if_pos hlast]
      have hperm := sortSprites_perm l
      have hdl := (s.scx.extractLsb' 0 3).isLt
      refine ⟨_, rfl, ⟨?_, ?_, ?_, ?_, ?_, ⟨?_, ?_⟩, ⟨?_, ?_, ?_, ?_⟩⟩, ?_, by simp [endOamScan], by simp [endOamScan],
        by simp [endOamScan], by simp [endOamScan], fun hc => by cases hc⟩
      · simpa [endOamScan] using h.1
      · simpa [endOamScan] using h.2
      · simpa [endOamScan] using h.3
      · simpa [endOamScan] using h.4
      · simpa [endOamScan, State.lcdEnable] using h.5
      · simp only [endOamScan, fetcherReset_fields, setMode_fields, sortSelected_fields]
        rw [hperm.length_eq]; exact hlen
      · simp only [endOamScan, fetcherReset_fields, setMode_fields, sortSelected_fields]
        exact fun a ha => hleg a (hperm.subset ha)
      · simpa [endOamScan] using h.memory.1
      · simpa [endOamScan] using h.memory.2
      · simpa [endOamScan] using h.memory.3
      · simpa [endOamScan] using h.memory.4
      · have hm : ∀ t, (endOamScan t).mode = .draw := fun t => by simp [endOamScan]
        unfold Ran
        rw [hm]
        simp only [endOamScan, fetcherReset_fields, setMode_fields, sortSelected_fields]
        refine ⟨hr1, by omega, fun a ha => hcov a (hperm.subset ha), ?_⟩
        refine ⟨⟨?_, ?_, ?_, ?_, ?_⟩, ⟨?_, ?_, ?_, ?_, ?_, ?_, ?_, ?_, ?_, ?_, ?_⟩, ⟨?_, ?_, ?_, ?_, ?_⟩, ?_, ?_⟩
        all_goals simp only [fetcherReset_fields, setMode_fields, sortSelected_fields, Pipeline.reset]
        all_goals try simp [Pipeline.elapsed, Phase.index]
        · exact (sortSprites_sorted l).imp fun hab => by omega
        · intro a _
          simp [SpriteAttr.triggerX]
        · simp only [drawBudget, screenW, fetcherReset_fields, setMode_fields, sortSelected_fields, Pipeline.reset,
            Pipeline.elapsed, Phase.index, spriteFetchDots]
          have := hperm.length_eq
          simp only [reduceCtorEq, if_false, Nat.sub_zero]
          split_ifs <;> omega
    · rw [if_neg hlast]
      refine ⟨_, rfl, ⟨h.1, h.2, h.3, h.4, h.5, ⟨hlen, hleg⟩, ⟨h.memory.1, h.memory.2, h.memory.3, h.memory.4⟩⟩, ?_, rfl, rfl,
        rfl, rfl, fun hc => by cases hc⟩
      unfold Ran
      simp only [hmode]
      exact ⟨hr1, by omega, hcov, hoam⟩
  | draw =>
    rw [hmode] at hr
    obtain ⟨hr1, hr2, hr3, hr4⟩ := hr
    obtain ⟨p, f, e1, e2, e3, e4, e5, e6, _, e7⟩ := pipelineDot_legal s hr4 h.sel hr1
    have hfb : FrameBuffer.wf f := by
      rcases e5 with rfl | ⟨h1, v, rfl⟩
      · exact h.memory.3
      · exact fb_write_wf v h.memory.3 (by simp only [screenW, screenH]; omega)
    unfold drawDot
    simp only
    rw [e1]
    simp only [bind, Except.bind, pure, Except.pure]
    unfold endDrawIfDone
    have hpl := e2.push_le
    have hbl := e2.bg_length
    simp only [screenW, drawMinDots] at hpl ⊢
    have hbud := hr4.budget
    have hwait := hr4.waiting
    simp only [screenW, drawMinDots] at hbud hwait
    by_cases hdone : p.outputX = 160 ∧ 172 ≤ s.drawDots + 1
    · rw [if_pos hdone]
      refine ⟨_, rfl, ⟨?_, ?_, ?_, ?_, ?_, ⟨?_, ?_⟩, ⟨?_, ?_, ?_, ?_⟩⟩, ?_, by simp, by simp, by simp, by simp, ?_⟩
      · simpa using h.1
      · simpa using h.2
      · simpa using h.3
      · simpa using h.4
      · simpa [State.lcdEnable] using h.5
      · simpa using h.sel.1
      · simpa using h.sel.2
      · simpa using h.memory.1
      · simpa using h.memory.2
      · simpa using hfb
      · simpa using h.memory.4
      · have hm : ∀ e k t, (requestIf e k (setMode .hblank t)).mode = .hblank := fun e k t => by simp
        unfold Ran
        rw [hm]
        simp only [requestIf_fields, setMode_fields]
        exact ⟨hr1, by omega⟩
      · intro _
        simp only [requestIf_fields, setMode_fields, true_and]
        refine .inr ⟨by omega, ?_⟩
        by_cases ho : s.pipe.outputX < 160
        · have h1 := hbud ho
          have h2 := e7 ho
          omega
        · have h3 := hr4.fifos.push_le
          have h4 := hr4.fifos.bg_length
          simp only [screenW] at h3
          have := hwait (by omega)
          omega
    · rw [if_neg hdone]
      refine ⟨_, rfl, ⟨h.1, h.2, h.3, h.4, h.5, ⟨h.sel.1, h.sel.2⟩, ⟨h.memory.1, h.memory.2, hfb, h.memory.4⟩⟩, ?_, rfl, rfl,
        rfl, rfl, fun _ => ⟨rfl, .inl hmode⟩⟩
      unfold Ran
      simp only [hmode]
      refine ⟨hr1, by omega, hr3, ⟨e2, e3, ⟨e4.1, e4.2, e4.3, e4.4, e4.5⟩, ?_, ?_⟩⟩
      · intro ho
        simp only [screenW] at ho
        have h1 := hbud (by omega)
        have h2 := e7 (by omega)
        have h3 : drawBudget { s with pipe := p, fb := f, drawDots := s.drawDots + 1 } =
            drawBudget { s with pipe := p, fb := f } := rfl
        rw [hmode] at h3
        simp only at h2 ⊢
        rw [hmode] at h2
        omega
      · intro ho
        simp only [screenW, drawMinDots] at ho ⊢
        omega

/-- The end of a dot (R106, R107, R108): no overrun from a legal state, and the invariant holds again. -/
theorem endOfDot_spec {s : State} (h : Steady s) (hr : Ran s) :
    ∃ t, endOfDot s = .ok t ∧ Inv t ∧
      (s.lineDot < 455 → t = { s with lineDot := s.lineDot + 1 }) ∧
      (s.lineDot = 455 → t.lineDot = 0 ∧ (s.ly.toNat = 153 → t.ly = 0) ∧
        (s.ly.toNat < 153 → t.ly.toNat = s.ly.toNat + 1)) := by
  have hd := h.dot_lt
  have hl := h.ly_lt
  have hw := h.window_le
  unfold endOfDot
  simp only [dotsPerLine]
  by_cases he : s.lineDot + 1 = 456
  · rw [if_pos he]
    have hnd : s.mode ≠ .draw := by
      intro hm
      unfold Ran at hr
      rw [hm] at hr
      obtain ⟨_, h2, _, h4⟩ := hr
      have h5 := h4.budget
      have h6 := h4.waiting
      have h7 := h4.fifos.push_le
      have h8 := h4.fifos.bg_length
      simp only [screenW, drawMinDots] at h5 h6 h7
      omega
    have hno : s.mode ≠ .oamScan := by
      intro hm
      unfold Ran at hr
      rw [hm] at hr
      omega
    rw [if_neg hnd]
    refine ⟨_, rfl, ?_, fun hc => by omega, fun _ => ?_⟩
    · unfold endOfLine
      simp only [screenH, linesPerFrame]
      by_cases hlast : s.ly.toNat + 1 = 154
      · rw [if_pos hlast]
        refine ⟨by simp, by simp, by simp, ⟨h.4.trans h.5.symm, fun hc => absurd h.4 (by simp only at hc; simp [hc])⟩,
          ⟨h.sel.1, h.sel.2⟩, ?_, ⟨h.memory.1, h.memory.2, h.memory.3, h.memory.4⟩⟩
        unfold ModeLegal
        unfold Ran at hr
        cases hmode : s.mode with
        | oamScan => exact absurd hmode hno
        | draw => exact absurd hmode hnd
        | hblank => rw [hmode] at hr; omega
        | vblank => simp
      · rw [if_neg hlast]
        have hly : (s.ly + 1).toNat = s.ly.toNat + 1 := by
          rw [BitVec.toNat_add]
          simp only [BitVec.ofNat_eq_ofNat, BitVec.toNat_ofNat]
          omega
        refine ⟨by simp only [hly, linesPerFrame]; omega, by simp, ?_,
          ⟨h.4.trans h.5.symm, fun hc => absurd h.4 (by simp only at hc; simp [hc])⟩,
          ⟨h.sel.1, h.sel.2⟩, ?_, ⟨h.memory.1, h.memory.2, h.memory.3, h.memory.4⟩⟩
        · simp only [hly, screenH]
          split <;> omega
        · unfold ModeLegal
          unfold Ran at hr
          cases hmode : s.mode with
          | oamScan => exact absurd hmode hno
          | draw => exact absurd hmode hnd
          | hblank =>
            rw [hmode] at hr
            simp only [hly, screenH] at hr ⊢
            exact .inl ⟨trivial, by omega⟩
          | vblank =>
            rw [hmode] at hr
            simp only [hly, screenH] at hr ⊢
            omega
    · unfold endOfLine
      simp only [screenH, linesPerFrame]
      by_cases hlast : s.ly.toNat + 1 = 154
      · rw [if_pos hlast]
        exact ⟨rfl, fun _ => rfl, fun hc => by omega⟩
      · rw [if_neg hlast]
        refine ⟨rfl, fun hc => by omega, fun _ => ?_⟩
        simp only
        rw [BitVec.toNat_add]
        simp only [BitVec.ofNat_eq_ofNat, BitVec.toNat_ofNat]
        omega
  · rw [if_neg he]
    refine ⟨_, rfl, ?_, fun _ => rfl, fun hc => by omega⟩
    refine ⟨hl, by simp only [dotsPerLine]; omega, hw,
      ⟨h.4.trans h.5.symm, fun hc => absurd h.4 (by simp only at hc; simp [hc])⟩,
      ⟨h.sel.1, h.sel.2⟩, ?_, ⟨h.memory.1, h.memory.2, h.memory.3, h.memory.4⟩⟩
    unfold ModeLegal
    unfold Ran at hr
    cases hmode : s.mode with
    | oamScan =>
      rw [hmode] at hr
      simp only [screenH, oamScanDots]
      exact ⟨hr.1, by omega, by omega, hr.2.2.1, hr.2.2.2⟩
    | draw =>
      rw [hmode] at hr
      obtain ⟨h1, h2, h3, h4⟩ := hr
      exact ⟨h1, by simp only [oamScanDots]; omega, h3, ⟨h4.1, h4.2, ⟨h4.3.1, h4.3.2, h4.3.3, h4.3.4, h4.3.5⟩, h4.4, h4.5⟩⟩
    | hblank =>
      rw [hmode] at hr
      simp only [screenH, oamScanDots, drawMinDots]
      omega
    | vblank =>
      rw [hmode] at hr
      simp only [screenH]
      omega

/-- A dot, said once: from the invariant with the engine on it does not fault, keeps the invariant, and moves the
position in the frame on by one. -/
theorem dotStep_spec {s : State} (h : Inv s) (hon : s.engineOn = true) :
    ∃ t, dotStep s = .ok t ∧ Inv t ∧ t.engineOn = true ∧ framePos t = (framePos s + 1) % dotsPerFrame := by
  obtain ⟨h1, h2, h3, h4⟩ := lineStartIfDue_spec h hon
  obtain ⟨u, u1, u2, u3, u4, u5, _⟩ := modeDot_spec h1 h2
  obtain ⟨t, t1, t2, t3, t4⟩ := endOfDot_spec u2 u3
  have hl := u2.ly_lt
  have hd := u2.dot_lt
  have hok : dotStep s = .ok t := by
    unfold dotStep
    rw [if_pos hon, u1]
    exact t1
  refine ⟨t, hok, t2, (dotStep_kept hok).engineOn.trans hon, ?_⟩
  have e1 : s.lineDot = u.lineDot := by rw [u4, h3]
  have e2 : s.ly = u.ly := by rw [u5, h4]
  unfold framePos dotsPerFrame
  simp only [dotsPerLine, linesPerFrame]
  rw [e1, e2]
  by_cases hlt : u.lineDot < 455
  · rw [t3 hlt]
    simp only
    omega
  · obtain ⟨f1, f2, f3⟩ := t4 (by omega)
    rw [f1]
    by_cases hl3 : u.ly.toNat = 153
    · have hdd : u.lineDot = 455 := by omega
      rw [f2 hl3, hl3, hdd]
      rfl
    · rw [f3 (by omega)]
      omega

/-- A run of dots from the invariant with the engine on. -/
theorem runDots_spec (n : Nat) {s : State} (h : Inv s) (hon : s.engineOn = true) :
    ∃ t, runDots n s = .ok t ∧ Inv t ∧ t.engineOn = true ∧ framePos t = (framePos s + n) % dotsPerFrame := by
  induction n generalizing s with
  | zero =>
    refine ⟨s, rfl, h, hon, ?_⟩
    have h1 := h.ly_lt
    have h2 := h.dot_lt
    unfold framePos dotsPerFrame
    simp only [linesPerFrame, dotsPerLine] at h1 h2 ⊢
    omega
  | succ n ih =>
    obtain ⟨u, u1, u2, u3, u4⟩ := dotStep_spec h hon
    obtain ⟨t, t1, t2, t3, t4⟩ := ih u2 u3
    refine ⟨t, ?_, t2, t3, ?_⟩
    · rw [runDots, u1]
      exact t1
    · rw [t4, u4]
      simp only [dotsPerFrame, linesPerFrame, dotsPerLine]
      omega

end Sys2Proof.Machine
end

