-- ==== Sys2Proof/Tests/Slice0.lean ====
section
/-! SUPPORT. Tests with expected results from the spec (its rules' examples and the vectors of
spec/95_test_vectors.md), the smoke test of `wellFormed`, and for every statement a witness of its hypotheses. -/

namespace Sys2Proof.Tests

open Sys2Proof.Machine

/-! ### Helpers -/

/-- A field of the next state. -/
def nextOf {α : Type} (f : State → α) : Host.Outcome State Fault Refusal → Option α
  | .next t => some (f t)
  | _ => none

/-- A field of the state after some dots. -/
def okOf {α : Type} (f : State → α) : Except Fault State → Option α
  | .ok t => some (f t)
  | .error _ => none

/-- The engine on at line 0, line dot 0, with the tile of vector W8 at the map's origin (R138). -/
def lit : State :=
  { State.reset with
    lcdc := 0x91, engineOn := true, bgp := 0xE4, vram := [(0x8010, 0x3C), (0x8011, 0x7E), (0x9800, 0x01)] }

/-- The engine on at line 0, with the sprite of R150's example: entry 0, raw y 16, raw x 8, tile 0, attribute 0. -/
def litSprite : State := { lit with lcdc := 0x93, oam := [(0, 16), (1, 8)] }

/-- The engine on at the start of a line. -/
def atLine (ly : Byte) (m : Mode) : State := { lit with ly := ly, mode := m }

/-- A pipeline at Draw entry, waiting in its first Push, with a run of eight pixels. -/
def pushing : State :=
  { lit with mode := .draw, pipe := { Pipeline.reset with phase := .push, run := [0, 1, 2, 3, 0, 1, 2, 3] } }

/-! ### Well-formedness and decoding -/

theorem test_tick_256_ill_formed : Instr.wellFormed (.tick 256) = false := by decide

theorem test_tick_255_well_formed : Instr.wellFormed (.tick 255) = true := by decide

/-- R69, R57, the word written out bit by bit: op 00, addr 0xFF40, data 0. -/
theorem test_decode_rd_lcdc :
    decode (BitVec.ofBoolListBE [false, false, true, true, true, true, true, true, true, true, false, true, false, false,
      false, false, false, false, false, false, false, false, false, false, false, false]) = .ok .rdLcdc := by decide

/-- Op 01, addr 0xFF45, data 0x90. -/
theorem test_decode_wr_lyc :
    decode (BitVec.ofBoolListBE [false, true, true, true, true, true, true, true, true, true, false, true, false, false,
      false, true, false, true, true, false, false, true, false, false, false, false]) = .ok (.wrLyc 0x90) := by decide

/-- Op 10, addr 0, data 114 (vector E5). -/
theorem test_decode_tick :
    decode (BitVec.ofBoolListBE [true, false, false, false, false, false, false, false, false, false, false, false, false,
      false, false, false, false, false, false, true, true, true, false, false, true, false]) = .ok (.tick 114) := by
  decide

/-- Each remaining read, from its row of spec/opcode_table.json. -/
theorem test_decode_reads :
    [0x0FF4100, 0x0FF4200, 0x0FF4300, 0x0FF4400, 0x0FF4500, 0x0FF4700, 0x0FF4800, 0x0FF4900, 0x0FF4A00, 0x0FF4B00].map
      (decodeTableWord 32) =
    [.rdStat, .rdScy, .rdScx, .rdLy, .rdLyc, .rdBgp, .rdObp0, .rdObp1, .rdWy, .rdWx].map some := by decide

/-- Each write, from its row of spec/opcode_table.json, with the byte 0x91. -/
theorem test_decode_writes :
    [0x1FF4091, 0x1FF4191, 0x1FF4291, 0x1FF4391, 0x1FF4491, 0x1FF4591].map (decodeTableWord 32) =
    [.wrLcdc 0x91, .wrStat 0x91, .wrScy 0x91, .wrScx 0x91, .wrLy 0x91, .wrLyc 0x91].map some := by decide

theorem test_decode_palette_writes :
    [0x1FF4791, 0x1FF4891, 0x1FF4991, 0x1FF4A91, 0x1FF4B91].map (decodeTableWord 32) =
    [.wrBgp 0x91, .wrObp0 0x91, .wrObp1 0x91, .wrWy 0x91, .wrWx 0x91].map some := by decide

/-- Vectors E8 to E14, and a value above 26 bits. -/
theorem test_decode_refused :
    [0x3FF4000, 0x0FF4001, 0x2FF4000, 0x1FF4600, 0x0FF4600, 0x1FF4C00, 0x1801000, 0x4FF4000].map (decodeTableWord 32) =
      List.replicate 8 none := by decide

theorem test_row_match : (encode (.wrStat 0xFF)) &&& (Instr.wrStat 0xFF).rowMask = 0x1FF4100#26 := by decide

/-! ### Steps from reset -/

/-- Vector G1, as a step from reset: a read of STAT returns 0x80. -/
theorem test_step_rd_stat : nextOf State.returned (step (State.reset.withFetchWord 32 0x0FF4100)) = some (some 0x80) := by
  decide

/-- R75: enabling from reset starts the engine at line 0. -/
theorem test_step_wr_lcdc :
    nextOf (fun t => (t.lcdc, t.engineOn, t.ly, t.lineDot)) (step (State.reset.withFetchWord 32 0x1FF4091)) =
      some (0x91, true, 0, 0) := by decide

/-- R97: `TICK 114` with the engine off does nothing. -/
theorem test_step_tick_off :
    nextOf (fun t => (t.ly, t.lineDot)) (step (State.reset.withFetchWord 32 0x2000072)) = some (0, 0) := by decide +kernel

theorem test_step_refuses :
    (match step (State.reset.withFetchWord 32 0x3FF4000) with | .refused (.reservedWord .reservedOp) => true | _ => false) =
      true := by decide

/-! ### Registers (spec/95_test_vectors.md, section 3) -/

/-- Vector G3: after `WR STAT, 0xFF` a read of STAT returns 0xF8. -/
theorem test_wr_stat_ff :
    (match exec (.wrStat 0xFF) State.reset with | .next t => nextOf State.returned (exec .rdStat t) | _ => none) =
      some (some 0xF8) := by decide

/-- R76's example: Draw, the LYC flag 1, the enables 0: 0x87. -/
theorem test_rd_stat_draw :
    nextOf State.returned (exec .rdStat { lit with mode := .draw, statLycFlag := true }) = some (some 0x87) := by decide

/-- Vector G4. -/
theorem test_wr_ly_ignored : nextOf State.ly (exec (.wrLy 0x55) { lit with ly := 7 }) = some 7 := by decide

/-- R73's example: with the engine on at LY = 50, `WR LCDC, 0x11` makes LY 0 and stops the engine. -/
theorem test_lcd_disable :
    nextOf (fun t => (t.ly, t.engineOn, t.mode, t.lcdc)) (exec (.wrLcdc 0x11) { lit with ly := 50, mode := .draw }) =
      some (0, false, .hblank, 0x11) := by decide

/-- R85's example: writing the current LY to LYC leaves the flag. -/
theorem test_wr_lyc_flag :
    nextOf (fun t => (t.lyc, t.statLycFlag)) (exec (.wrLyc 5) { lit with ly := 5, lineDot := 200 }) = some (5, false) := by
  decide

/-- Vector G5's shape, for the palettes and the window: each write reaches its own register. -/
theorem test_writes_reach_their_register :
    [nextOf State.scy (exec (.wrScy 1) lit), nextOf State.scx (exec (.wrScx 2) lit), nextOf State.bgp (exec (.wrBgp 3) lit),
      nextOf State.obp0 (exec (.wrObp0 4) lit), nextOf State.obp1 (exec (.wrObp1 5) lit), nextOf State.wy (exec (.wrWy 6) lit),
      nextOf State.wx (exec (.wrWx 7) lit)] = [some 1, some 2, some 3, some 4, some 5, some 6, some 7] := by decide

theorem test_reads_return_their_register :
    let s : State := { lit with lcdc := 9, scy := 1, scx := 2, ly := 8, lyc := 10, bgp := 3, obp0 := 4, obp1 := 5, wy := 6, wx := 7 }
    [Instr.rdLcdc, .rdScy, .rdScx, .rdLy, .rdLyc, .rdBgp, .rdObp0, .rdObp1, .rdWy, .rdWx].map
      (fun i => nextOf State.returned (exec i s)) =
    [some (some 9), some (some 1), some (some 2), some (some 8), some (some 10), some (some 3), some (some 4),
      some (some 5), some (some 6), some (some 7)] := by decide

/-! ### The schedule -/

/-- R97's example: from LCD enable `TICK 20` leaves mode 3 at line dot 80. -/
theorem test_tick_20 : nextOf (fun t => (t.mode, t.lineDot)) (exec (.tick 20) lit) = some (.draw, 80) := by decide

/-- Vector W8, R138: the first eight samples of the line, at the end of Draw dot 15. -/
theorem test_first_tile :
    nextOf (fun t => (List.range 8).map (Memory.get? t.fb)) (exec (.tick 24) lit) =
      some ([0xFF, 0x3F, 0x00, 0x00, 0x00, 0x00, 0x3F, 0xFF].map some) := by decide

/-- R136: with SCX = 0 Draw lasts 172 dots, so it ends with line dot 251. -/
theorem test_draw_172 :
    okOf (fun t => (t.mode, t.pipe.outputX)) (runDots 251 lit) = some (.draw, 160) ∧
      okOf (fun t => (t.mode, t.pipe.outputX)) (runDots 252 lit) = some (.hblank, 160) := by decide +kernel

/-- R184's table: with SCX = 7 and the window at WX = 8 Draw lasts 182 dots. -/
theorem test_window_draw_182 :
    okOf (fun t => (t.mode, okOf State.mode (dotStep t))) (runDots 261 { lit with lcdc := 0xB1, scx := 7, wx := 8 }) =
      some (.draw, some .hblank) := by decide +kernel

/-- R123, R136: with SCX = 0 the Push at Draw dot 159 drains the last pixel, and GetTile acts again at Draw dot 161, with
five pixels still to be written. -/
theorem test_fetch_x_160 :
    okOf (fun t => (t.pipe.fetchX, t.pipe.pushX, t.pipe.outputX)) (runDots 242 lit) = some (160, 160, 155) := by
  decide +kernel

/-- R137's example: with WX = 7 the window triggers at Draw dot 7, x = 0, and pixel 0 comes with its Push at Draw dot 15. -/
theorem test_window_trigger :
    okOf (fun t => (t.pipe.inWindow, t.pipe.pushX)) (runDots 88 { lit with lcdc := 0xB1, wx := 7 }) = some (true, 0) ∧
      okOf (fun t => (t.pipe.pushX, t.pipe.outputX)) (runDots 96 { lit with lcdc := 0xB1, wx := 7 }) = some (8, 1) := by
  decide +kernel

/-- R150's example: the sprite's fetch takes Draw dots 7 to 12, and pixel 0 is written at Draw dot 13. -/
theorem test_sprite_stall :
    okOf (fun t => (t.pipe.sfetchLeft, t.pipe.outputX)) (runDots 88 litSprite) = some (5, 0) ∧
      okOf (fun t => (t.pipe.sfetchLeft, t.pipe.spFifo.length, t.pipe.outputX)) (runDots 93 litSprite) = some (0, 8, 0) ∧
      okOf (fun t => t.pipe.outputX) (runDots 94 litSprite) = some 1 := by decide

/-- R119's example: twelve entries that qualify, the first ten selected. -/
theorem test_first_ten :
    okOf (fun t => t.sel.map SpriteAttr.oam)
      (runDots 80 { lit with oam := (List.range 12).flatMap fun i => [(4 * i, 16), (4 * i + 1, BitVec.ofNat 8 (8 + 8 * i))] }) =
      some [0, 1, 2, 3, 4, 5, 6, 7, 8, 9] := by decide

/-- R102: line 144's first dot requests VBLANK and hands the frame over. -/
theorem test_vblank :
    okOf (fun t => (t.mode, t.iflag, t.presented)) (dotStep (atLine 144 .hblank)) = some (.vblank, 0x01, [[]]) := by decide

/-- R99, R165: the LYC request at a line start, with the flag. -/
theorem test_lyc_request :
    okOf (fun t => (t.statLycFlag, t.iflag)) (dotStep { atLine 5 .hblank with lyc := 5, statLycInt := true }) =
      some (true, 0x02) := by decide

/-- R108: line 153 wraps to 0. -/
theorem test_frame_wrap :
    okOf (fun t => (t.ly, t.lineDot, t.windowLine)) (dotStep { atLine 153 .vblank with lineDot := 455, windowLine := 9 }) =
      some (0, 0, 0) := by decide

/-! ### Pixels -/

/-- R160: colour 2 of the background with a sprite pixel of colour 1 through OBP1, without and with `bg_prio`. -/
theorem test_mix_examples :
    let s : State := { lit with obp1 := 0xE4 }
    sample s (mix true ⟨2, false, .bg⟩ (.pixel 1 .obj1 0 false 0)) = 0x7F ∧
      sample s (mix true ⟨2, false, .bg⟩ (.pixel 1 .obj1 0 true 0)) = 0x3F := by decide

/-- R160: `BGP = 0x1B` maps the colours 0 to 3 to 0x00, 0x3F, 0x7F, 0xFF. -/
theorem test_bgp_1b :
    [0, 1, 2, 3].map (fun c => sample { lit with bgp := 0x1B } (some (c, .bg))) = [0x00, 0x3F, 0x7F, 0xFF] := by decide

/-- R63: tile 0x80 is at 0x8800 in both modes, tile 0 at 0x9000 in the signed one. -/
theorem test_tile_base : tileBase true 0x80 = 0x8800 ∧ tileBase false 0x80 = 0x8800 ∧ tileBase false 0 = 0x9000 := by decide

/-! ### The invariant in the witnesses -/

/-- A state at the start of a line, the mode that of the line before it, meets the invariant. -/
theorem line_inv {s : State} (h1 : s.lineDot = 0) (h2 : s.ly.toNat < 154) (h3 : s.windowLine = 0)
    (h4 : s.engineOn = true ∧ s.lcdEnable = true) (h5 : s.sel = [])
    (h6 : (s.mode = .hblank ∧ s.ly.toNat ≤ 144) ∨ (s.mode = .vblank ∧ (144 < s.ly.toNat ∨ s.ly.toNat = 0)))
    (h7 : Memory.wf 0x8000 0x9FFF s.vram ∧ Memory.wf 0 159 s.oam ∧ FrameBuffer.wf s.fb ∧ s.presented = []) : Inv s := by
  refine ⟨h2, by rw [h1]; decide, by rw [h3]; exact ⟨Nat.zero_le _, by decide⟩, ⟨h4.1.trans h4.2.symm, fun h => ?_⟩,
    ⟨by rw [h5]; decide, fun a ha => by rw [h5] at ha; cases ha⟩, ?_, ⟨h7.1, h7.2.1, h7.2.2.1, fun f hf => ?_⟩⟩
  · rw [h4.1] at h; cases h
  · unfold ModeLegal
    rcases h6 with ⟨h6, h8⟩ | ⟨h6, h8⟩ <;> rw [h6]
    · exact .inl ⟨h1, h8⟩
    · rcases h8 with h8 | h8
      · exact .inl ⟨Nat.le_of_lt h8, fun h => absurd h (Nat.ne_of_gt h8)⟩
      · exact .inr ⟨h8, h1⟩
  · rw [h7.2.2.2] at hf; cases hf

theorem lit_inv : Inv lit :=
  line_inv rfl (by decide) rfl (by decide) rfl (.inl ⟨rfl, by decide⟩) (by decide)

theorem litSprite_inv : Inv litSprite :=
  line_inv rfl (by decide) rfl (by decide) rfl (.inl ⟨rfl, by decide⟩) (by decide)

theorem off_inv : Inv State.reset := by
  refine ⟨by decide, by decide, by decide, ⟨by decide, fun _ => by decide⟩, ⟨by decide, fun a ha => by cases ha⟩, ?_,
    ⟨by decide, by decide, by decide, fun f hf => by cases hf⟩⟩
  unfold ModeLegal
  exact .inl ⟨rfl, by decide⟩

/-- A state some dots after one of the invariant, with what is asked of it. -/
theorem reached {s : State} (hs : Inv s) (hon : s.engineOn = true) (n : Nat) (p : State → Bool)
    (h : okOf p (runDots n s) = some true) : ∃ t, Inv t ∧ t.engineOn = true ∧ p t = true := by
  obtain ⟨t, h1, h2, h3, _⟩ := runDots_spec n hs hon
  rw [h1] at h
  exact ⟨t, h2, h3, by simpa [okOf] using h⟩

/-! ### Witnesses of the hypotheses, by statement -/

theorem witness_DecodeOfEncode : Instr.wellFormed (.tick 255) = true ∧ Instr.wellFormed (.wrWx 0xFF) = true := by decide

theorem witness_EncodeOfDecode :
    decode 0x20000FF#26 = .ok (.tick 255) ∧ decode 0x1FF4BFF#26 = .ok (.wrWx 0xFF) ∧ decode 0x0FF4B00#26 = .ok .rdWx := by
  decide

/-- A word of each of the three kinds of row, and one that matches its row. -/
theorem witness_DecodeReadsFieldsAndRows :
    decode 0x2000000#26 = .ok (.tick 0) ∧ decode 0x0FF4000#26 = .ok (.rd .lcdc) ∧ decode 0x1FF4BFF#26 = .ok (.wr .wx 0xFF) ∧
      0x1FF4BFF#26 &&& (Instr.wrWx 0).rowMask = (Instr.wrWx 0).rowMatch := by decide

/-- A word of each of the four kinds, the addresses at the edges of the map and in its gap, and a step on one. -/
theorem witness_ReservedWordsRefused :
    (0x3000000#26).toNat / 2 ^ 24 = 3 ∧
    (∀ a ∈ [0xFF3F, 0xFF46, 0xFF4C],
      a ∉ [0xFF40, 0xFF41, 0xFF42, 0xFF43, 0xFF44, 0xFF45, 0xFF47, 0xFF48, 0xFF49, 0xFF4A, 0xFF4B]) ∧
    (0x1FF4600#26).toNat / 2 ^ 24 < 2 ∧ (0x1FF4600#26).toNat / 2 ^ 8 % 2 ^ 16 = 0xFF46 ∧
    (0x0FF4001#26).toNat / 2 ^ 24 = 0 ∧ (0x0FF4001#26).toNat % 2 ^ 8 ≠ 0 ∧
    (0x2000100#26).toNat / 2 ^ 24 = 2 ∧ (0x2000100#26).toNat / 2 ^ 8 % 2 ^ 16 ≠ 0 ∧
    ({ lit with pending := [.word 0x3000000#26] } : State).pending = [.word 0x3000000#26] ∧
    decode 0x3000000#26 = .error .reservedOp := by decide

theorem witness_StepRunsDecodedInstruction :
    ({ lit with pending := [.word 0x2000072#26] } : State).pending = [.word 0x2000072#26] ∧
      decode 0x2000072#26 = .ok (.tick 114) ∧ Instr.wellFormed (.tick 114) = true ∧ lit.pending = [] := by decide

theorem witness_PseudoExpansionRunsTheCount : Instr.tick 216 ∈ Pseudo.expandTick 17556 := by decide

/-- Every write of the statement answers a next state. -/
theorem witness_PlainRegisterReads :
    (∃ t, exec (.wrLcdc 0x11) lit = .next t) ∧ (∃ t, exec (.wrScy 1) lit = .next t) ∧ (∃ t, exec (.wrScx 1) lit = .next t) ∧
    (∃ t, exec (.wrLyc 1) lit = .next t) ∧ (∃ t, exec (.wrBgp 1) lit = .next t) ∧ (∃ t, exec (.wrObp0 1) lit = .next t) ∧
    (∃ t, exec (.wrObp1 1) lit = .next t) ∧ (∃ t, exec (.wrWy 1) lit = .next t) ∧ (∃ t, exec (.wrWx 1) lit = .next t) :=
  ⟨⟨_, rfl⟩, ⟨_, rfl⟩, ⟨_, rfl⟩, ⟨_, rfl⟩, ⟨_, rfl⟩, ⟨_, rfl⟩, ⟨_, rfl⟩, ⟨_, rfl⟩, ⟨_, rfl⟩⟩

theorem witness_ReadStatReturnsFields : Inv State.reset ∧ State.reset.engineOn = false := ⟨off_inv, rfl⟩

theorem witness_WriteStatStoresEnables :
    State.reset.mode = .hblank ∧ State.reset.statLycFlag = false ∧ ∃ t, exec (.wrStat 0xFF) State.reset = .next t :=
  ⟨rfl, rfl, _, rfl⟩

/-- A dot and an LCDC write that change LY, the engine off, and the enable. -/
theorem witness_LyReadsAndChanges :
    (∃ t, dotStep { atLine 50 .hblank with lineDot := 455 } = .ok t ∧ t.ly ≠ 50) ∧
    (∃ t, exec (.wrLcdc 0x11) (atLine 50 .hblank) = .next t ∧ t.ly ≠ 50) ∧
    (Inv State.reset ∧ State.reset.engineOn = false) ∧
    (0x80#8).getLsbD 7 = true ∧ ∃ t, exec (.wrLcdc 0x80) State.reset = .next t :=
  ⟨⟨_, rfl, by decide⟩, ⟨_, rfl, by decide⟩, ⟨off_inv, rfl⟩, by decide, _, rfl⟩

theorem witness_WriteLcdcStoresOrEnables :
    lit.lcdc.getLsbD 7 = (0x93#8).getLsbD 7 ∧ State.reset.lcdc.getLsbD 7 = false ∧ (0x91#8).getLsbD 7 = true := by decide

theorem witness_LcdDisableResetsSchedule : lit.lcdc.getLsbD 7 = true ∧ (0x11#8).getLsbD 7 = false := by decide

theorem witness_LcdCycleIdempotent :
    lit.lcdc.getLsbD 7 = true ∧ (0x11#8).getLsbD 7 = false ∧ (0x91#8).getLsbD 7 = true := by decide

theorem witness_RegisterOpsTakeNoDots :
    (∀ m, Instr.wrScy 1 ≠ .tick m) ∧ (∀ v, Instr.wrScy 1 ≠ .wrLcdc v) :=
  ⟨(fun _ h => by cases h), (fun _ h => by cases h)⟩

theorem witness_TickRunsFourDotsEach :
    (∃ t, runDots (4 * 20) { lit with returned := none } = .ok t) ∧ State.reset.engineOn = false ∧ Inv State.reset ∧
      (0x91#8).getLsbD 7 = true ∧ ∃ t, exec (.wrLcdc 0x91) State.reset = .next t := by
  refine ⟨?_, rfl, off_inv, by decide, _, rfl⟩
  obtain ⟨t, h, _⟩ := runDots_spec 80 lit_inv rfl
  exact ⟨t, h⟩

theorem witness_TickCompletes : Inv lit ∧ lit.engineOn = true := ⟨lit_inv, rfl⟩

theorem witness_TickSplitsAnywhere : ∃ t, exec (.tick 20) lit = .next t := by
  obtain ⟨t, h, _⟩ := runDots_spec 80 lit_inv rfl
  exact ⟨t, by rw [exec, execTick]; exact congrArg outcomeOf h⟩

theorem witness_StepKeepsInv : Inv lit ∧ ∃ t, step lit = .next t := ⟨lit_inv, _, rfl⟩

theorem witness_NoOperationFails :
    Inv lit ∧ Inv (State.reset.withFetchWord 26 0x3000000) ∧
      step (State.reset.withFetchWord 26 0x3000000) = .refused (.reservedWord .reservedOp) :=
  ⟨lit_inv, ⟨off_inv.1, off_inv.2, off_inv.3, ⟨off_inv.engine.1, off_inv.engine.2⟩, ⟨off_inv.sel.1, off_inv.sel.2⟩,
    off_inv.mode, ⟨off_inv.memory.1, off_inv.memory.2, off_inv.memory.3, off_inv.memory.4⟩⟩, rfl⟩

theorem witness_PowerOnState : ∃ t, exec (.wrLcdc 0x91) State.reset = .next t ∧ t.engineOn = true := ⟨_, rfl, rfl⟩

/-- A Draw that is still running in line dot 455 (a state no run reaches), and a legal state in Draw. -/
theorem witness_DrawOverrunUnreachable :
    (∃ t, drawDot { lit with mode := .draw, lineDot := 455, pipe.outputX := 160 } = .ok t ∧ t.mode = .draw) ∧
      ∃ t, Inv t ∧ t.mode = .draw := by
  refine ⟨⟨_, rfl, rfl⟩, ?_⟩
  obtain ⟨t, h1, _, h2⟩ := reached lit_inv rfl 80 (fun t => decide (t.mode = .draw)) (by decide)
  exact ⟨t, h1, of_decide_eq_true h2⟩

/-- The start of lines 0, 143, 144, 145 and 153. -/
theorem witness_LineStartDot :
    Inv lit ∧ Inv (atLine 143 .hblank) ∧ Inv (atLine 144 .hblank) ∧ Inv (atLine 145 .vblank) ∧ Inv (atLine 153 .vblank) :=
  ⟨lit_inv, line_inv rfl (by decide) rfl (by decide) rfl (.inl ⟨rfl, by decide⟩) (by decide),
    line_inv rfl (by decide) rfl (by decide) rfl (.inl ⟨rfl, by decide⟩) (by decide),
    line_inv rfl (by decide) rfl (by decide) rfl (.inr ⟨rfl, .inl (by decide)⟩) (by decide),
    line_inv rfl (by decide) rfl (by decide) rfl (.inr ⟨rfl, .inl (by decide)⟩) (by decide)⟩

theorem witness_BlankDotOnlyCounts :
    let s : State := { lit with mode := .hblank, lineDot := 454 }
    let v : State := { atLine 144 .vblank with lineDot := 455 }
    (s.engineOn = true ∧ s.mode = .hblank ∧ s.lineDot ≠ 0 ∧ s.lineDot ≠ 455) ∧
      (v.engineOn = true ∧ v.mode = .vblank ∧ v.lineDot = 455) := by decide

/-- The last dot of a visible line and of lines 143, 144 and 153. -/
theorem witness_EndOfLineDot :
    ∀ c ∈ [((0 : Byte), Mode.hblank), (143, .hblank), (144, .vblank), (153, .vblank)],
      Inv { atLine c.1 c.2 with lineDot := 455 } ∧ (atLine c.1 c.2).engineOn = true := by
  intro c hc
  simp only [List.mem_cons, List.not_mem_nil, or_false] at hc
  rcases hc with rfl | rfl | rfl | rfl
  · exact ⟨⟨by decide, by decide, by decide, ⟨by decide, by decide⟩, ⟨by decide, fun a ha => by cases ha⟩, .inr ⟨by decide, by decide⟩,
      ⟨by decide, by decide, by decide, fun f hf => by cases hf⟩⟩, rfl⟩
  · exact ⟨⟨by decide, by decide, by decide, ⟨by decide, by decide⟩, ⟨by decide, fun a ha => by cases ha⟩, .inr ⟨by decide, by decide⟩,
      ⟨by decide, by decide, by decide, fun f hf => by cases hf⟩⟩, rfl⟩
  · exact ⟨⟨by decide, by decide, by decide, ⟨by decide, by decide⟩, ⟨by decide, fun a ha => by cases ha⟩, .inl ⟨by decide, by decide⟩,
      ⟨by decide, by decide, by decide, fun f hf => by cases hf⟩⟩, rfl⟩
  · exact ⟨⟨by decide, by decide, by decide, ⟨by decide, by decide⟩, ⟨by decide, fun a ha => by cases ha⟩, .inl ⟨by decide, by decide⟩,
      ⟨by decide, by decide, by decide, fun f hf => by cases hf⟩⟩, rfl⟩

/-- An even and an odd scan dot at the end of the table. -/
theorem witness_OamScanDotEvaluates : 78 < 80 ∧ 78 % 2 = 0 ∧ 79 < 80 ∧ 79 % 2 = 1 := by decide

theorem witness_EndOfScanDot :
    (∃ t, Inv t ∧ t.engineOn = true ∧ t.mode = .oamScan ∧ t.lineDot = 79) ∧
      Inv lit ∧ lit.engineOn = true ∧ lit.ly.toNat < 144 ∧ lit.lineDot < 79 := by
  obtain ⟨t, h1, h2, h3⟩ := reached lit_inv rfl 79 (fun t => decide (t.mode = .oamScan ∧ t.lineDot = 79)) (by decide)
  exact ⟨⟨t, h1, h2, of_decide_eq_true h3⟩, lit_inv, rfl, by decide, by decide⟩

/-- The first dot of Draw, and the one that ends it. -/
theorem witness_DrawDotEndsDraw :
    (∃ t, Inv t ∧ t.engineOn = true ∧ t.mode = .draw ∧ t.drawDots = 0) ∧
      ∃ t, Inv t ∧ t.engineOn = true ∧ t.mode = .draw ∧ t.drawDots = 171 ∧ t.pipe.outputX = 160 := by
  obtain ⟨t, h1, h2, h3⟩ := reached lit_inv rfl 80 (fun t => decide (t.mode = .draw ∧ t.drawDots = 0)) (by decide)
  obtain ⟨u, k1, k2, k3⟩ :=
    reached lit_inv rfl 251 (fun t => decide (t.mode = .draw ∧ t.drawDots = 171 ∧ t.pipe.outputX = 160)) (by decide +kernel)
  exact ⟨⟨t, h1, h2, of_decide_eq_true h3⟩, ⟨u, k1, k2, of_decide_eq_true k3⟩⟩

/-- A dot that sets VBLANK, and one that requests nothing. -/
theorem witness_RequestsOnlyAtEvents :
    (Inv (atLine 144 .hblank) ∧ (atLine 144 .hblank).engineOn = true ∧
      ∃ t, dotStep (atLine 144 .hblank) = .ok t ∧ t.iflag = 0x01) ∧
    (Inv (atLine 145 .vblank) ∧ (atLine 145 .vblank).engineOn = true ∧
      ∃ t, dotStep (atLine 145 .vblank) = .ok t ∧ t.iflag = 0x00) :=
  ⟨⟨witness_LineStartDot.2.2.1, rfl, _, rfl, by decide⟩, witness_LineStartDot.2.2.2.1, rfl, _, rfl, by decide⟩

/-- The first and the last line of each kind. -/
theorem witness_LineTimeline :
    (Inv lit ∧ lit.lineDot = 0) ∧ (Inv (atLine 143 .hblank) ∧ (atLine 143 .hblank).ly.toNat < 144) ∧
      (Inv (atLine 144 .hblank) ∧ 144 ≤ (atLine 144 .hblank).ly.toNat) ∧ Inv (atLine 153 .vblank) :=
  ⟨⟨lit_inv, rfl⟩, ⟨witness_LineStartDot.2.1, by decide⟩, ⟨witness_LineStartDot.2.2.1, by decide⟩,
    witness_LineStartDot.2.2.2.2⟩

theorem witness_DrawCadenceBackgroundOnly :
    lit.engineOn = true ∧ lit.lineDot = 0 ∧ lit.ly.toNat < 144 ∧ lit.lcdc.getLsbD 1 = false ∧ lit.lcdc.getLsbD 5 = false := by
  decide

/-- A line with one sprite, and lines on which a window starts: at its first and its last x, and just off the screen. -/
theorem witness_DrawLengthWithSprites :
    (litSprite.engineOn = true ∧ litSprite.lineDot = 0 ∧ litSprite.ly.toNat < 144 ∧ litSprite.lcdc.getLsbD 5 = false ∧
      ((qualifying litSprite).filter fun a => decide (a.x < 160)).length = 1) ∧
      (∀ wx ∈ [(0 : Byte), 7, 166, 167], let s : State := { lit with lcdc := 0xB1, wx := wx }
        s.engineOn = true ∧ s.lineDot = 0 ∧ s.ly.toNat < 144 ∧ s.lcdc.getLsbD 5 = true ∧ s.wy.toNat ≤ s.ly.toNat ∧
          (s.wx.toNat < 167 ↔ wx ≠ 167)) := by decide

theorem witness_FirstFrameAfterEnable :
    Inv State.reset ∧ State.reset.engineOn = false ∧ (0x91#8).getLsbD 7 = true ∧
      ∃ t, exec (.wrLcdc 0x91) State.reset = .next t := ⟨off_inv, rfl, by decide, _, rfl⟩

theorem witness_OneHandOffPerFrame : Inv lit ∧ lit.engineOn = true := ⟨lit_inv, rfl⟩

theorem witness_ScanSelectsFirstTen : lit.engineOn = true ∧ lit.lineDot = 0 ∧ lit.ly.toNat < 144 := by decide

theorem witness_SortIsUniqueOrder :
    let a : SpriteAttr := { SpriteAttr.none with x := 3, oam := 0 }
    let b : SpriteAttr := { SpriteAttr.none with x := 3, oam := 1 }
    ([b, a].map SpriteAttr.oam).Nodup ∧ [a, b].Perm [b, a] ∧
      [a, b].Pairwise (fun a b => a.x < b.x ∨ (a.x = b.x ∧ a.oam ≤ b.oam)) := by decide

/-- Raw y at both ends of the range for line 0 and height 8, and 0. -/
theorem witness_CoversByRawY :
    (oamEntry { lit with oam := [(0, 9)] } 0).covers lit.ly = true ∧ (oamEntry { lit with oam := [(0, 16)] } 0).covers lit.ly = true ∧
      (oamEntry { lit with oam := [(0, 17)] } 0).covers lit.ly = false ∧ Memory.read lit.oam (4 * 0) = 0 := by decide

theorem witness_VramAddressesInRange : Inv lit := lit_inv

theorem witness_GetTileCoordinates :
    ({ lit with pipe.inWindow := true } : State).pipe.inWindow = true ∧ lit.pipe.inWindow = false := by decide

/-- Both ends of VRAM for either read. -/
theorem witness_TileDataReads :
    0x8000 ≤ (0x8000#16).toNat ∧ (0x9FFF#16).toNat ≤ 0x9FFF ∧ (0x9FFE#16).toNat ≤ 0x9FFE := by decide

/-- A state of each phase and each of its dots. -/
theorem witness_FetcherPhases :
    (lit.pipe.phase = .getTile ∧ lit.pipe.phaseDot = 0) ∧
      (∀ ph : Phase, ({ lit with pipe.phase := ph, pipe.phaseDot := 1 } : State).pipe.phase = ph) ∧
      (∃ t, dataLowAction { lit with pipe.mapAddr := 0x9800 } = .ok t) ∧
      (∃ t, dataHighAction { lit with pipe.tileAddr := 0x8010 } = .ok t) :=
  ⟨by decide, fun _ => rfl, ⟨_, rfl⟩, ⟨_, rfl⟩⟩

theorem pushing_aligned : FifoAligned pushing.pipe := ⟨by decide, by decide, by decide, by decide, by decide⟩

/-- A Push of eight pixels with no sprite ahead, and with a sprite and the window right behind its last pixel. -/
theorem witness_PushDrainsTheRun :
    FifoAligned pushing.pipe ∧ pushing.lcdc.getLsbD 5 = false ∧ pushing.sel = [] ∧
      ((pushing.pipe.pushX : Int) + (min pushing.pipe.run.length (160 - pushing.pipe.pushX) : Nat) ≤ ((15#8).toNat : Int) - 7) ∧
      (pushing.pipe.pushX : Int) + (min pushing.pipe.run.length (160 - pushing.pipe.pushX) : Nat) ≤ max 8 0 :=
  ⟨pushing_aligned, by decide, rfl, by decide, by decide⟩

/-- The ordinary Push, its run decoded in it, that finds the window before its first pixel; one that finds it before its
pixel 3 with no sprite ahead, and with a sprite there while objects are disabled; a Push that holds a run and finds it
before its last pixel, a sprite waiting at that very pixel; and a state in which the window has triggered. -/
theorem witness_WindowTriggersOncePerLine :
    let first : State := { pushing with lcdc := 0xB1, winLineOk := true, wx := 7, pipe.run := [] }
    let fourth : State := { first with wx := 10 }
    let passing : State := { fourth with sel := [{ SpriteAttr.none with x := 1 }] }
    let held : State := { pushing with lcdc := 0xB3, winLineOk := true, wx := 14, sel := [{ SpriteAttr.none with x := 7 }] }
    (first.pipe.pushX < 160 ∧ windowTrigger first = true) ∧
      (FifoAligned fourth.pipe ∧ fourth.pipe.run = [] ∧ fourth.pipe.pushX + 3 < 160 ∧ fourth.pipe.inWindow = false ∧
        fourth.lcdc.getLsbD 5 = true ∧ fourth.winLineOk = true ∧
        (fourth.pipe.pushX : Int) + (3 : Nat) ≤ (fourth.wx.toNat : Int) - 7 ∧
        (fourth.wx.toNat : Int) - 7 ≤ (fourth.pipe.pushX : Int) + (3 : Nat) ∧
        3 < ((List.range 8).drop (if fourth.pipe.fetchX = 0 ∧ fourth.pipe.inWindow = false then
          fourth.pipe.discard.toNat else 0)).length ∧
        ∀ a ∈ fourth.sel.drop fourth.pipe.spPtr, (fourth.pipe.pushX : Int) + (3 : Nat) ≤ max a.x 0) ∧
      (FifoAligned passing.pipe ∧ passing.lcdc.getLsbD 1 = false ∧
        ∃ a ∈ passing.sel.drop passing.pipe.spPtr, max a.x 0 < (passing.pipe.pushX : Int) + (3 : Nat)) ∧
      (FifoAligned held.pipe ∧ held.pipe.run ≠ [] ∧ 7 < held.pipe.run.length ∧ held.lcdc.getLsbD 1 = true ∧
        (held.pipe.pushX : Int) + (7 : Nat) = (held.wx.toNat : Int) - 7 ∧
        ∀ a ∈ held.sel.drop held.pipe.spPtr, (held.pipe.pushX : Int) + (7 : Nat) ≤ max a.x 0) ∧
      ({ pushing with pipe.inWindow := true } : State).pipe.inWindow = true ∧
      ∃ t, dotStep { pushing with lineDot := 80, pipe.inWindow := true } = .ok t := by
  intro first fourth passing held
  exact ⟨by decide,
    ⟨⟨by decide, by decide, by decide, by decide, by decide⟩, by decide, by decide, by decide, by decide, by decide,
      by decide, by decide, by decide, by decide⟩,
    ⟨⟨by decide, by decide, by decide, by decide, by decide⟩, by decide, by decide⟩,
    ⟨⟨by decide, by decide, by decide, by decide, by decide⟩, by decide, by decide, by decide, by decide, by decide⟩,
    rfl, _, rfl⟩

/-- The list at its end, and its next sprite at the next pixel (the trigger x of a sprite left of the screen) and behind
it, objects enabled and disabled. -/
theorem witness_SpriteCheckStartsFetch :
    pushing.sel.length ≤ pushing.pipe.spPtr ∧
      (let a : SpriteAttr := { SpriteAttr.none with x := -8 }
       ({ pushing with sel := [a] } : State).sel[pushing.pipe.spPtr]? = some a ∧ max a.x 0 = (pushing.pipe.pushX : Int)) ∧
      (let a : SpriteAttr := { SpriteAttr.none with x := 1 }
       ({ pushing with sel := [a] } : State).sel[pushing.pipe.spPtr]? = some a ∧ max a.x 0 ≠ (pushing.pipe.pushX : Int)) ∧
      litSprite.lcdc.getLsbD 1 = true ∧ pushing.lcdc.getLsbD 1 = false := by decide

theorem witness_SpriteFetchTakesSixDots :
    ∃ s t, Inv s ∧ s.engineOn = true ∧ s.mode = .draw ∧ s.pipe.sfetchLeft = 0 ∧ dotStep s = .ok t ∧ 0 < t.pipe.sfetchLeft := by
  obtain ⟨s, h1, h2, h3⟩ := reached litSprite_inv rfl 87
    (fun s => decide (s.mode = .draw ∧ s.pipe.sfetchLeft = 0 ∧ okOf (fun t => decide (0 < t.pipe.sfetchLeft)) (dotStep s) = some true))
    (by decide +kernel)
  have h4 := of_decide_eq_true h3
  cases h5 : dotStep s with
  | error f => rw [h5] at h4; exact absurd h4.2.2 (by simp [okOf])
  | ok t =>
    rw [h5] at h4
    refine ⟨s, t, h1, h2, h4.1, h4.2.1, h5, ?_⟩
    have := h4.2.2
    simpa [okOf] using this

/-- The first and the last line of either half of a 16-line sprite, upright and flipped. -/
theorem witness_SpriteRowAddress :
    let a : SpriteAttr := { SpriteAttr.none with y := 0, height := 16 }
    let b : SpriteAttr := { SpriteAttr.none with y := 0, yflip := true }
    (a.height = 8 ∨ a.height = 16) ∧ (b.height = 8 ∨ b.height = 16) ∧
      (∀ l ∈ [0, 7, 8, 15], l < a.height ∧
        (l : Int) = if a.yflip then (a.height : Int) - 1 - (((BitVec.ofNat 8 l).toNat : Int) - a.y)
          else ((BitVec.ofNat 8 l).toNat : Int) - a.y) ∧
      (7 < b.height ∧ (7 : Int) = if b.yflip then (b.height : Int) - 1 - (((0#8).toNat : Int) - b.y)
        else ((0#8).toNat : Int) - b.y) := by decide

/-- A fetch at the first pixel of a sprite half left of the screen: a column on it and a place right of the sprite. -/
theorem witness_SpriteOverlayMerges :
    let s : State := { pushing with pipe.sfetchCur := { SpriteAttr.none with x := -4 } }
    FifoAligned s.pipe ∧ max s.pipe.sfetchCur.x 0 = (s.pipe.pushX : Int) ∧
      (s.pipe.sfetchCur.x + (4 : Nat) = ((s.pipe.outputX + 0 : Nat) : Int) ∧ s.pipe.outputX + 0 < 160) ∧
      (s.pipe.sfetchCur.x + (7 : Nat) = ((s.pipe.outputX + 3 : Nat) : Int) ∧ s.pipe.outputX + 3 < 160) ∧
      s.pipe.sfetchCur.x + 8 ≤ ((s.pipe.outputX + 4 : Nat) : Int) := by
  intro s
  exact ⟨⟨by decide, by decide, by decide, by decide, by decide⟩, by decide, ⟨by decide, by decide⟩, ⟨by decide, by decide⟩,
    by decide⟩

/-- Each case of the arbiter: a blank and a drawn background, a sprite of colour 0, one behind and one in front. -/
theorem witness_PriorityArbiter :
    (∃ bg : BgPixel, bg.blank = true) ∧ (∃ bg : BgPixel, bg.blank = false ∧ bg.color ≠ 0) ∧
      (∃ bg : BgPixel, bg.blank = false ∧ bg.color = 0) ∧ (∃ c : Colour, c = 0) ∧ ∃ c : Colour, c ≠ 0 :=
  ⟨⟨⟨0, true, .bg⟩, rfl⟩, ⟨⟨1, false, .bg⟩, rfl, by decide⟩, ⟨⟨0, false, .bg⟩, rfl, rfl⟩, ⟨0, rfl⟩, ⟨1, by decide⟩⟩

/-- The last pixel of the last line, and an empty FIFO. -/
theorem witness_MixerWritesOnePixel :
    let s : State :=
      { lit with ly := 143
                 pipe := { Pipeline.reset with pushX := 160, outputX := 159, bgFifo := [⟨1, false, .bg⟩]
                                               spFifo := [.blank 159] } }
    FifoAligned s.pipe ∧ s.ly.toNat < 144 ∧ s.pipe.bgFifo = [⟨1, false, .bg⟩] ∧ FifoAligned lit.pipe ∧ lit.pipe.bgFifo = [] := by
  intro s
  exact ⟨⟨by decide, by decide, by decide, by decide, by decide⟩, by decide, rfl,
    ⟨by decide, by decide, by decide, by decide, by decide⟩, rfl⟩

/-- A Push that a sprite fetch halts and one that it does not. -/
theorem witness_MixerWritesOnePixel_calls :
    (pushing.pipe.outputX ≠ 160 ∧ pushing.pipe.sfetchLeft = 0 ∧
      ∃ t, fetcherStep pushing = .ok t ∧ t.pipe.sfetchLeft = 0) ∧
      (let s : State := { pushing with lcdc := 0x93, sel := [{ SpriteAttr.none with x := -8 }] }
       s.pipe.outputX ≠ 160 ∧ s.pipe.sfetchLeft = 0 ∧
         ∃ t u, fetcherStep s = .ok t ∧ 0 < t.pipe.sfetchLeft ∧ pipelineDot s = .ok u) :=
  ⟨⟨by decide, by decide, _, rfl, by decide⟩, ⟨by decide, by decide, _, _, rfl, by decide, rfl⟩⟩

/-- The first and the last visible line, the background on and off. -/
theorem witness_LineShowsBackground :
    (lit.engineOn = true ∧ lit.lineDot = 0 ∧ lit.ly.toNat < 144 ∧ lit.lcdc.getLsbD 5 = false ∧ lit.lcdc.getLsbD 1 = false) ∧
      (atLine 143 .hblank).ly.toNat < 144 ∧ lit.lcdc.getLsbD 0 = true ∧ (0x90#8).getLsbD 0 = false := by decide

theorem witness_LineShowsComposition :
    (litSprite.engineOn = true ∧ litSprite.lineDot = 0 ∧ litSprite.ly.toNat < 144) ∧ (atLine 143 .hblank).ly.toNat < 144 := by
  decide

theorem witness_TickFrame : ∃ t, exec (.tick 20) lit = .next t := witness_TickSplitsAnywhere

/-- A dot of Draw, one of the scan, and a Tick that ends with the line, on a visible line and in VBlank. -/
theorem witness_TickWritesOnlyItsLine :
    (∃ s t, dotStep s = .ok t ∧ s.lineDot ≠ 0 ∧ s.mode = .draw) ∧
      (∃ t, dotStep lit = .ok t ∧ lit.lineDot = 0 ∧ Inv lit) ∧
      (Inv lit ∧ (∃ t, exec (.tick 114) lit = .next t) ∧ lit.lineDot + 4 * 114 ≤ 456) ∧
      Inv (atLine 144 .hblank) ∧ 144 ≤ (atLine 144 .hblank).ly.toNat := by
  refine ⟨⟨{ pushing with lineDot := 80 }, _, rfl, by decide, rfl⟩, ⟨_, rfl, rfl, lit_inv⟩, ⟨lit_inv, ?_, by decide⟩,
    witness_LineStartDot.2.2.1, by decide⟩
  obtain ⟨t, h, _⟩ := runDots_spec 456 lit_inv rfl
  exact ⟨t, by rw [exec, execTick]; exact congrArg outcomeOf h⟩

theorem witness_PalettesDoNotTouchTiming : ∃ t, exec (.tick 20) lit = .next t := witness_TickSplitsAnywhere

/-- From the middle of the scan to the end of the line, with other bytes in the entries already evaluated, and from the
end of the scan. -/
theorem witness_LatchedBytesAreNotReread :
    (∃ s t, Inv s ∧ s.lineDot = 40 ∧ s.lineDot + 416 ≤ 456 ∧ runDots 416 s = .ok t ∧
      ∀ a, s.ly.toNat < 144 → 2 * s.lineDot ≤ a → a < 160 → Memory.read [(79, 5)] a = Memory.read s.oam a) ∧
      ∃ s t, Inv s ∧ s.lineDot = 80 ∧ s.lineDot + 376 ≤ 456 ∧ runDots 376 s = .ok t := by
  obtain ⟨s, h1, h2, h3⟩ := reached lit_inv rfl 40 (fun s => decide (s.lineDot = 40 ∧ s.oam = [])) (by decide)
  obtain ⟨t, h4, _⟩ := runDots_spec 416 h1 h2
  obtain ⟨h5, h6⟩ := of_decide_eq_true h3
  obtain ⟨u, k1, k2, k3⟩ := reached lit_inv rfl 80 (fun s => decide (s.lineDot = 80)) (by decide)
  obtain ⟨v, k4, _⟩ := runDots_spec 376 k1 k2
  have k5 : u.lineDot = 80 := of_decide_eq_true k3
  refine ⟨⟨s, t, h1, h5, by omega, h4, fun a _ h7 _ => ?_⟩, u, v, k1, k5, by omega, k4⟩
  have h8 : ¬ 79 = a := by omega
  simp [h6, Memory.read, Memory.get?, h8]

/-- A dot outside Draw, the dots of Draw that read VRAM (the second of DataLow, the second of DataHigh, the sixth of a
sprite fetch), and one that does not. -/
theorem witness_LatchedBytesAreNotReread_vram :
    (Inv lit ∧ lit.mode ≠ .draw ∧ ∃ t, dotStep lit = .ok t) ∧
      ∀ c ∈ [(82, Phase.dataLow, 0, 0), (83, .dataLow, 1, 0), (85, .dataHigh, 1, 0), (92, .push, 0, 1)],
        ∃ s t, Inv s ∧ s.mode = .draw ∧ dotStep s = .ok t ∧ s.pipe.phase = c.2.1 ∧ s.pipe.phaseDot = c.2.2.1 ∧
          s.pipe.sfetchLeft = c.2.2.2 := by
  refine ⟨⟨lit_inv, by decide, _, rfl⟩, fun c hc => ?_⟩
  have key : ∀ c ∈ [(82, Phase.dataLow, 0, 0), (83, .dataLow, 1, 0), (85, .dataHigh, 1, 0), (92, .push, 0, 1)],
      okOf (fun s => decide (s.mode = .draw ∧ s.pipe.phase = c.2.1 ∧ s.pipe.phaseDot = c.2.2.1 ∧
        s.pipe.sfetchLeft = c.2.2.2)) (runDots c.1 litSprite) = some true := by decide +kernel
  obtain ⟨s, h1, h2, h3⟩ := reached litSprite_inv rfl c.1 _ (key c hc)
  obtain ⟨h4, h5, h6, h7⟩ := of_decide_eq_true h3
  obtain ⟨t, h8, _⟩ := dotStep_spec h1 h2
  exact ⟨s, t, h1, h4, h8, h5, h6, h7⟩

/-- A write at either end of either memory, and of the interrupt-flag register. -/
theorem witness_HostWritesLand :
    ({ lit with pending := [.writeVram 0x1FFF 7] } : State).pending = [.writeVram 0x1FFF 7] ∧
      ({ lit with pending := [.writeOam 159 7] } : State).pending = [.writeOam 159 7] ∧
      ({ lit with pending := [.writeInterruptFlag 7] } : State).pending = [.writeInterruptFlag 7] ∧
      Memory.wf 0x8000 0x9FFF lit.vram ∧ Memory.wf 0 159 lit.oam := by decide

end Sys2Proof.Tests
end

section
/-! PROOFS. The register operations (spec/40_registers.md): the plain reads and writes (O8, O9), and the reads and the
changes of LY (O12), each after the rules it rests on: what a write of LCDC does in each of its three cases, which
parts of a dot leave LY and the line dot alone, and which changes of the state the invariant does not see. -/

namespace Sys2Proof.Machine

/-! ### The plain writes and reads -/

/-- Settles O9: the meaning of each write is the one record update its rule's pseudocode gives. -/
theorem plainRegisterWrites : Obligations.PlainRegisterWrites := fun _ _ =>
  ⟨rfl, rfl, rfl, rfl, rfl, rfl, rfl, rfl⟩

/-- A write of LCDC that leaves bit 7 alone only stores the byte (R73). -/
theorem exec_wrLcdc_same {s : State} {v : Byte} (h : s.lcdEnable = v.getLsbD 7) :
    exec (.wrLcdc v) s = .next (returnNothing { s with lcdc := v }) := by
  show execWrLcdc v s = _
  unfold execWrLcdc
  rw [h]
  cases v.getLsbD 7 <;> rfl

/-- A write of LCDC that clears bit 7 is the LCD disable (R73, R74). -/
theorem exec_wrLcdc_disable {s : State} {v : Byte} (h : s.lcdEnable = true) (hv : v.getLsbD 7 = false) :
    exec (.wrLcdc v) s = .next (lcdDisable (returnNothing { s with lcdc := v })) :=
  if_pos ⟨h, hv⟩

/-- A write of LCDC that sets bit 7 is the LCD enable (R73, R75). -/
theorem exec_wrLcdc_enable {s : State} {v : Byte} (h : s.lcdEnable = false) (hv : v.getLsbD 7 = true) :
    exec (.wrLcdc v) s = .next (lcdEnable (returnNothing { s with lcdc := v })) := by
  show execWrLcdc v s = _
  unfold execWrLcdc
  rw [h, hv]
  rfl

/-- What a write of LCDC can do (R73): it stores the byte, disables the engine, or enables it. -/
theorem exec_wrLcdc_cases (s : State) (v : Byte) :
    (s.lcdEnable = v.getLsbD 7 ∧ exec (.wrLcdc v) s = .next (returnNothing { s with lcdc := v })) ∨
      (s.lcdEnable = true ∧ v.getLsbD 7 = false ∧
        exec (.wrLcdc v) s = .next (lcdDisable (returnNothing { s with lcdc := v }))) ∨
      (s.lcdEnable = false ∧ v.getLsbD 7 = true ∧
        exec (.wrLcdc v) s = .next (lcdEnable (returnNothing { s with lcdc := v }))) := by
  cases hs : s.lcdEnable <;> cases hv : v.getLsbD 7
  · exact .inl ⟨rfl, exec_wrLcdc_same (hs.trans hv.symm)⟩
  · exact .inr (.inr ⟨rfl, rfl, exec_wrLcdc_enable hs hv⟩)
  · exact .inr (.inl ⟨rfl, rfl, exec_wrLcdc_disable hs hv⟩)
  · exact .inl ⟨rfl, exec_wrLcdc_same (hs.trans hv.symm)⟩

/-- A write of LCDC completes and stores the byte whole, whatever it does to the engine (R73). -/
theorem exec_wrLcdc_stores (s : State) (v : Byte) : ∃ u, exec (.wrLcdc v) s = .next u ∧ u.lcdc = v := by
  obtain ⟨_, h⟩ | ⟨_, _, h⟩ | ⟨_, _, h⟩ := exec_wrLcdc_cases s v <;> exact ⟨_, h, rfl⟩

/-- An operation that stores `v` in a register, then the operation that returns that register. -/
theorem read_after_write (reg : State → Byte) {rd wr : Instr} {s t u : State} {v : Byte}
    (hrd : ∀ s, exec rd s = .next { s with returned := some (reg s) }) (hwr : exec wr s = .next u) (hu : reg u = v)
    (h : exec wr s = .next t) : exec rd t = .next { t with returned := some v } := by
  cases hwr.symm.trans h
  rw [hrd, hu]

/-- Settles O8: the words and the reads are the definitions' own equations; a read after a write gives the byte that
the write stored. -/
theorem plainRegisterReads : Obligations.PlainRegisterReads := by
  refine ⟨⟨rfl, rfl, rfl, rfl, rfl, rfl, rfl, rfl, rfl⟩, fun _ => ⟨rfl, rfl, rfl, rfl, rfl, rfl, rfl, rfl, rfl⟩,
    fun s _ v => ?_⟩
  obtain ⟨u, hlcdc, hu⟩ := exec_wrLcdc_stores s v
  obtain ⟨hscy, hscx, hlyc, hbgp, hobp0, hobp1, hwy, hwx⟩ := plainRegisterWrites s v
  exact ⟨read_after_write State.lcdc (fun _ => rfl) hlcdc hu, read_after_write State.scy (fun _ => rfl) hscy rfl,
    read_after_write State.scx (fun _ => rfl) hscx rfl, read_after_write State.lyc (fun _ => rfl) hlyc rfl,
    read_after_write State.bgp (fun _ => rfl) hbgp rfl, read_after_write State.obp0 (fun _ => rfl) hobp0 rfl,
    read_after_write State.obp1 (fun _ => rfl) hobp1 rfl, read_after_write State.wy (fun _ => rfl) hwy rfl,
    read_after_write State.wx (fun _ => rfl) hwx rfl⟩

/-! ### LY and the line dot in the parts of a dot -/

/-- The line start moves neither LY nor the line dot (R99 to R102). -/
theorem lineStartIfDue_position (s : State) :
    (lineStartIfDue s).ly = s.ly ∧ (lineStartIfDue s).lineDot = s.lineDot := by
  unfold lineStartIfDue
  split
  · obtain h | h | h := Nat.lt_trichotomy s.ly.toNat 144
    · rw [lineStart_visible h, enterOamScan_eq, lycCompare_eq]
      exact ⟨rfl, rfl⟩
    · rw [lineStart_144 h, enterVblank_eq, lycCompare_eq]
      exact ⟨rfl, rfl⟩
    · rw [lineStart_later h, lycCompare_eq]
      exact ⟨rfl, rfl⟩
  · exact ⟨rfl, rfl⟩

/-- A scan dot changes the scanner's own fields only, in every state (R114, R115). -/
theorem oamScanDot_scanner {d : Nat} {s t : State} (h : oamScanDot d s = .ok t) :
    ∃ y x l, t = { s with scanY := y, scanX := x, sel := l } := by
  unfold oamScanDot at h
  simp only at h
  split at h
  · obtain ⟨y, _, h⟩ := bind_eq_ok h
    obtain ⟨x, _, h⟩ := bind_eq_ok h
    cases h
    exact ⟨y, x, s.sel, rfl⟩
  · obtain ⟨_, _, h⟩ := bind_eq_ok h
    obtain ⟨_, _, h⟩ := bind_eq_ok h
    cases h
    unfold evaluateSprite
    split
    · exact ⟨s.scanY, s.scanX, _, rfl⟩
    · exact ⟨s.scanY, s.scanX, s.sel, rfl⟩

/-- No mode handler moves LY or the line dot (R103, R104, R105). -/
theorem modeDot_position {s t : State} (h : modeDot s = .ok t) : t.ly = s.ly ∧ t.lineDot = s.lineDot := by
  unfold modeDot at h
  split at h
  case h_1 =>
    obtain ⟨u, hu, h⟩ := bind_eq_ok h
    obtain ⟨y, x, l, rfl⟩ := oamScanDot_scanner hu
    cases h
    split
    · rw [endOamScan_eq]
      exact ⟨rfl, rfl⟩
    · exact ⟨rfl, rfl⟩
  case h_2 =>
    obtain ⟨u, hu, h⟩ := bind_eq_ok h
    obtain ⟨p, f, rfl, _⟩ := pipelineDot_frame hu
    cases h
    unfold endDrawIfDone
    split
    · rw [requestIf_eq]
      exact ⟨rfl, rfl⟩
    · exact ⟨rfl, rfl⟩
  all_goals
    cases h
    exact ⟨rfl, rfl⟩

/-- LY changes in line dot 455 alone (R108). -/
theorem dotStep_ly {s t : State} (h : dotStep s = .ok t) (hd : s.lineDot ≠ 455) : t.ly = s.ly := by
  unfold dotStep at h
  split at h
  · obtain ⟨u, hu, h⟩ := bind_eq_ok h
    obtain ⟨hly, hdot⟩ := lineStartIfDue_position s
    obtain ⟨hly', hdot'⟩ := modeDot_position hu
    rw [endOfDot_inside (by rw [hdot', hdot]; exact hd)] at h
    cases h
    exact hly'.trans hly
  · cases h
    rfl

/-! ### LY in the register operations -/

/-- No register operation but the write of LCDC changes LY (R71, R83). -/
theorem exec_ly {i : Instr} {s t : State} (hm : ∀ m, i ≠ .tick m) (hw : ∀ v, i ≠ .wrLcdc v)
    (h : exec i s = .next t) : t.ly = s.ly := by
  cases i
  case tick m => exact absurd rfl (hm m)
  case wrLcdc v => exact absurd rfl (hw v)
  all_goals
    cases h
    rfl

/-- A write of LCDC changes LY only where it changes bit 7, and then to 0 (R73, R74, R75). -/
theorem exec_wrLcdc_ly {s t : State} {v : Byte} (h : exec (.wrLcdc v) s = .next t) (hne : t.ly ≠ s.ly) :
    s.lcdEnable ≠ v.getLsbD 7 ∧ t.ly = 0 := by
  obtain ⟨_, h'⟩ | ⟨hs, hv, h'⟩ | ⟨hs, hv, h'⟩ := exec_wrLcdc_cases s v <;> cases h'.symm.trans h
  · exact absurd rfl hne
  · exact ⟨by rw [hs, hv]; decide, rfl⟩
  · exact ⟨by rw [hs, hv]; decide, rfl⟩

/-! ### One line after the enable -/

/-- The two states agree on everything the invariant reads: the schedule, the scanner's list, the pipeline, bit 7 of
LCDC, the memories and the frames. -/
structure AgreeOnInv (s t : State) : Prop where
  engineOn : t.engineOn = s.engineOn
  enable : t.lcdEnable = s.lcdEnable
  ly : t.ly = s.ly
  lineDot : t.lineDot = s.lineDot
  drawDots : t.drawDots = s.drawDots
  windowLine : t.windowLine = s.windowLine
  mode : t.mode = s.mode
  sel : t.sel = s.sel
  pipe : t.pipe = s.pipe
  vram : t.vram = s.vram
  oam : t.oam = s.oam
  fb : t.fb = s.fb
  presented : t.presented = s.presented

theorem AgreeOnInv.spritesLegal {s t : State} (h : AgreeOnInv s t) (hs : SpritesLegal s) : SpritesLegal t := by
  obtain ⟨ptr_le, left_lt, sorted, not_missed, fetching⟩ := hs
  constructor <;> simpa only [h.pipe, h.sel]

theorem AgreeOnInv.drawLegal {s t : State} (h : AgreeOnInv s t) (hs : DrawLegal s) : DrawLegal t := by
  obtain ⟨fifos, fetcher, sprites, budget, waiting⟩ := hs
  have hbudget : drawBudget t = drawBudget s := by simp only [drawBudget, h.pipe, h.sel]
  constructor
  case sprites => exact h.spritesLegal sprites
  all_goals simpa only [h.pipe, h.drawDots, hbudget]

theorem AgreeOnInv.modeLegal {s t : State} (h : AgreeOnInv s t) (hs : ModeLegal s) : ModeLegal t := by
  unfold ModeLegal at hs ⊢
  rw [h.mode, h.ly, h.lineDot, h.drawDots, h.sel]
  cases hm : s.mode <;> rw [hm] at hs
  case draw =>
    obtain ⟨hly, hdot, hcovers, hdraw⟩ := hs
    exact ⟨hly, hdot, hcovers, h.drawLegal hdraw⟩
  all_goals exact hs

/-- The invariant holds of every state that agrees with a legal one on what it reads. -/
theorem AgreeOnInv.inv {s t : State} (h : AgreeOnInv s t) (hs : Inv s) : Inv t where
  ly_lt := h.ly ▸ hs.ly_lt
  dot_lt := h.lineDot ▸ hs.dot_lt
  window_le := by rw [h.windowLine, h.ly]; exact hs.window_le
  engine := ⟨by rw [h.engineOn, h.enable]; exact hs.engine.follows,
    by rw [h.engineOn, h.ly, h.mode, h.lineDot, h.windowLine]; exact hs.engine.off⟩
  sel := ⟨h.sel ▸ hs.sel.length_le, h.sel ▸ hs.sel.records⟩
  mode := h.modeLegal hs.mode
  memory := ⟨h.vram ▸ hs.memory.vram, h.oam ▸ hs.memory.oam, h.fb ▸ hs.memory.fb, h.presented ▸ hs.memory.presented⟩

/-- The byte returned to the host is no part of the invariant. -/
theorem returnNothing_inv {s : State} (h : Inv s) : Inv (returnNothing s) :=
  AgreeOnInv.inv (s := s) ⟨rfl, rfl, rfl, rfl, rfl, rfl, rfl, rfl, rfl, rfl, rfl, rfl, rfl⟩ h

/-- A write of LCDC that enables the engine keeps the invariant (R75, R172). -/
theorem lcdEnable_inv {s : State} {v : Byte} (h : Inv s) (hoff : s.engineOn = false) (hv : v.getLsbD 7 = true) :
    Inv (lcdEnable (returnNothing { s with lcdc := v })) := by
  obtain ⟨_, hmode, _, hwin⟩ := h.engine.off hoff
  constructor
  case engine => exact ⟨hv.symm, fun hon => by cases hon⟩
  case sel => exact ⟨h.sel.length_le, h.sel.records⟩
  case memory => exact ⟨h.memory.vram, h.memory.oam, h.memory.fb, h.memory.presented⟩
  all_goals simp [ModeLegal, hmode, hwin]

/-- A Tick from the invariant with the engine on moves the position in the frame on by its `4*m` dots (R97). -/
theorem exec_tick_spec (m : Nat) {s : State} (h : Inv s) (hon : s.engineOn = true) :
    ∃ t, exec (.tick m) s = .next t ∧ Inv t ∧ framePos t = (framePos s + 4 * m) % dotsPerFrame := by
  obtain ⟨t, ht, hinv, _, hpos⟩ := runDots_spec (4 * m) (returnNothing_inv h) hon
  exact ⟨t, congrArg outcomeOf ht, hinv, hpos⟩

/-- One line of dots from the start of line 0 leads to line 1 (R109). -/
theorem exec_tick_line_zero {s : State} (h : Inv s) (hon : s.engineOn = true) (hly : s.ly = 0) (hdot : s.lineDot = 0) :
    ∃ t, exec (.tick 114) s = .next t ∧ t.ly = 1 := by
  obtain ⟨t, ht, hinv, hpos⟩ := exec_tick_spec 114 h hon
  have hlt := hinv.dot_lt
  have hstart : framePos s = 0 := by simp [framePos, hly, hdot]
  have hline : t.ly.toNat = 1 := by
    rw [hstart] at hpos
    simp only [framePos, dotsPerFrame, dotsPerLine, linesPerFrame] at hpos hlt
    omega
  exact ⟨t, ht, BitVec.eq_of_toNat_eq hline⟩

/-- Settles O12: LY moves only at the end of a line's last dot and at the enable and disable; the line after the enable
follows from the position in the frame, 456 dots after line 0, line dot 0. -/
theorem lyReadsAndChanges : Obligations.LyReadsAndChanges := by
  refine ⟨rfl, fun _ => rfl, fun s t h hne => ?_, fun i s t hi h hne => ?_, fun s h hoff => ?_,
    fun s t v h hoff hv ht => ?_⟩
  · exact Decidable.byContradiction fun hd => hne (dotStep_ly h hd)
  · by_cases hw : ∀ v, i ≠ .wrLcdc v
    · exact absurd (exec_ly hi hw h) hne
    · obtain ⟨v, hv⟩ := not_forall.mp hw
      obtain rfl := not_not.mp hv
      exact ⟨v, rfl, exec_wrLcdc_ly h hne⟩
  · rw [← (h.engine.off hoff).1]
    rfl
  · rw [exec_wrLcdc_enable (h.engine.follows.symm.trans hoff) hv] at ht
    cases ht
    obtain ⟨u, hu, hly⟩ := exec_tick_line_zero (lcdEnable_inv h hoff hv) rfl rfl rfl
    exact ⟨u, hu, by rw [← hly]; rfl⟩

end Sys2Proof.Machine
end

section
/-! PROOFS. The mode machine (spec/41_mode_machine.md): a dot of HBlank or VBlank inside its line is the end of the dot
alone (O27). -/

namespace Sys2Proof.Machine

/-- HBlank and VBlank have no mode handler (R105). -/
theorem modeDot_blank {s : State} (hm : s.mode = .hblank ∨ s.mode = .vblank) : modeDot s = .ok s := by
  unfold modeDot
  obtain hm | hm := hm <;> rw [hm]

/-- Past its first dot, a dot of HBlank or VBlank is the end of the dot (R98, R105). -/
theorem dotStep_blank {s : State} (hon : s.engineOn = true) (hm : s.mode = .hblank ∨ s.mode = .vblank)
    (hdot : s.lineDot ≠ 0) : dotStep s = endOfDot s := by
  rw [dotStep_inside hon hdot, modeDot_blank hm]
  rfl

/-- Outside Draw the last dot of a line goes over to the next line without a fault (R106, R107). -/
theorem endOfDot_last {s : State} (hdraw : s.mode ≠ .draw) (hdot : s.lineDot = 455) :
    endOfDot s = .ok (endOfLine { s with lineDot := 0 }) := by
  unfold endOfDot
  rw [if_pos (by rw [hdot]), if_neg hdraw]

/-- The end of a line changes LY and the window line only (R108). -/
theorem endOfLine_frame (s : State) : ∃ ly w, endOfLine s = { s with ly := ly, windowLine := w } := by
  by_cases hwrap : s.ly.toNat + 1 = linesPerFrame
  · exact ⟨0, 0, if_pos hwrap⟩
  · exact ⟨s.ly + 1, _, if_neg hwrap⟩

/-- Settles O27: the dot is the end of the dot, which counts inside the line and goes over to the next line at its
end. -/
theorem blankDotOnlyCounts : Obligations.BlankDotOnlyCounts := by
  intro s hon hm hdot
  rw [dotStep_blank hon hm hdot]
  refine ⟨rfl, endOfDot_inside, fun hlast => ?_⟩
  have hdraw : s.mode ≠ .draw := by obtain hm | hm := hm <;> rw [hm] <;> decide
  obtain ⟨ly, w, hend⟩ := endOfLine_frame { s with lineDot := 0 }
  exact ⟨ly, w, (endOfDot_last hdraw hlast).trans (congrArg Except.ok hend)⟩

end Sys2Proof.Machine
end

section
/-! PROOFS. The OAM line scanner (spec/42_oam_scanner.md): the scan of a visible line dot by dot (O38), after the
equations of a scan dot, and the order its end leaves the list in (O39). -/

namespace Sys2Proof.Machine

/-! ### The first ten entries that cover the line -/

/-- Of the first `n` entries of the table those that cover the current line, in table order, and of them the first ten
(R116, R118): what `n` evaluations select. -/
def firstTen (s : State) (n : Nat) : List SpriteAttr :=
  (((List.range n).map (oamEntry s)).filter fun a => a.covers s.ly).take maxSpritesPerLine

/-- The next entry joins the first ten exactly under the test of R115. -/
theorem firstTen_succ (s : State) (i : Nat) :
    firstTen s (i + 1) =
      if (firstTen s i).length < maxSpritesPerLine ∧ (oamEntry s i).covers s.ly = true then
        firstTen s i ++ [oamEntry s i]
      else firstTen s i := by
  unfold firstTen
  rw [List.range_succ, List.map_append, List.filter_append, List.take_append, List.length_take]
  generalize ((List.range i).map (oamEntry s)).filter (fun a => a.covers s.ly) = l
  by_cases hcov : (oamEntry s i).covers s.ly = true
  · by_cases hfull : l.length < 10
    · obtain ⟨k, hk⟩ : ∃ k, 10 - l.length = k + 1 := ⟨9 - l.length, by omega⟩
      simp [hcov, hfull, hk]
    · have hnone : 10 - l.length = 0 := by omega
      simp [hcov, hfull, hnone]
  · simp [hcov]

/-- The entries of the table have distinct indices, and so have those selected (R117). -/
theorem qualifying_oam_nodup (s : State) : ((qualifying s).map SpriteAttr.oam).Nodup := by
  have htable : ((List.range oamEntries).map (oamEntry s)).map SpriteAttr.oam = List.range oamEntries := by
    rw [List.map_map]
    exact List.map_id _
  have hsub : (qualifying s).Sublist ((List.range oamEntries).map (oamEntry s)) :=
    (List.take_sublist _ _).trans List.filter_sublist
  exact (htable ▸ hsub.map SpriteAttr.oam).nodup List.nodup_range

/-! ### A dot of the scan -/

/-- The first dot of an entry latches its y and x bytes (R114). -/
theorem oamScanDot_even {i : Nat} (hi : i < 40) (s : State) :
    oamScanDot (2 * i) s =
      .ok { s with scanY := Memory.read s.oam (4 * i), scanX := Memory.read s.oam (4 * i + 1) } := by
  have hdiv : 2 * i / 2 = i := by omega
  unfold oamScanDot
  rw [if_pos (by omega), hdiv, readOam_ok (by omega), readOam_ok (by omega)]
  rfl

/-- The second dot of an entry evaluates it from the latched bytes and its own two (R114). -/
theorem oamScanDot_odd {i : Nat} (hi : i < 40) (s : State) :
    oamScanDot (2 * i + 1) s =
      .ok (evaluateSprite (spriteOf i s.scanY s.scanX (Memory.read s.oam (4 * i + 2)) (Memory.read s.oam (4 * i + 3))
        s.objHeight) s) := by
  have hdiv : (2 * i + 1) / 2 = i := by omega
  unfold oamScanDot
  rw [if_neg (by omega), hdiv, readOam_ok (by omega), readOam_ok (by omega)]
  rfl

/-- The evaluation changes the list only (R115). -/
theorem evaluateSprite_eq (a : SpriteAttr) (s : State) :
    evaluateSprite a s = { s with
      sel := if s.sel.length < maxSpritesPerLine ∧ a.covers s.ly = true then s.sel ++ [a] else s.sel } := by
  unfold evaluateSprite
  split <;> rfl

/-- A dot of OAM scan runs the scan's dot, and on line dot 79 its end (R98, R103, R106). -/
theorem dotStep_scan {s u : State} (hon : s.engineOn = true) (hdot : s.lineDot < 80)
    (hm : (lineStartIfDue s).mode = .oamScan) (hu : oamScanDot s.lineDot (lineStartIfDue s) = .ok u) :
    dotStep s = .ok { (if s.lineDot = 79 then endOamScan u else u) with lineDot := s.lineDot + 1 } := by
  have hstart : (lineStartIfDue s).lineDot = s.lineDot := (lineStartIfDue_position s).2
  have hmode : modeDot (lineStartIfDue s) = .ok (if s.lineDot = 79 then endOamScan u else u) := by
    unfold modeDot oamDot
    rw [hm]
    simp only [hstart, hu]
    rfl
  have hend : (if s.lineDot = 79 then endOamScan u else u).lineDot = s.lineDot :=
    (modeDot_position hmode).2.trans hstart
  unfold dotStep
  rw [if_pos hon, hmode]
  refine (endOfDot_inside (by rw [hend]; omega)).trans ?_
  rw [hend]

/-- Past its first dot a line has no line start (R98). -/
theorem lineStartIfDue_inside {s : State} (h : s.lineDot ≠ 0) : lineStartIfDue s = s := if_neg h

/-! ### The scan of a line -/

/-- The state `t` is in the scan of `s`'s line, `n` of its dots done: the line, the table and LCDC are those of `s`, the
bytes latched last are those of the entry read last, and the first ten of the entries evaluated are selected. -/
structure Scanning (s : State) (n : Nat) (t : State) : Prop where
  mode : t.mode = .oamScan
  ly : t.ly = s.ly
  oam : t.oam = s.oam
  lcdc : t.lcdc = s.lcdc
  latched : 0 < n → t.scanY = Memory.read s.oam (4 * ((n - 1) / 2)) ∧
    t.scanX = Memory.read s.oam (4 * ((n - 1) / 2) + 1)
  sel : t.sel = firstTen s (n / 2)

/-- The line start of a visible line begins the scan (R100, R113). -/
theorem scanning_lineStart {s : State} (hly : s.ly.toNat < 144) : Scanning s 0 (lineStart s) := by
  rw [lineStart_visible hly, enterOamScan_eq, lycCompare_eq]
  exact ⟨rfl, rfl, rfl, rfl, fun h => absurd h (Nat.lt_irrefl 0), rfl⟩

/-- The count of the line's dots is no part of the scan. -/
theorem Scanning.setLineDot {s t : State} {n : Nat} (h : Scanning s n t) (d : Nat) :
    Scanning s n { t with lineDot := d } :=
  ⟨h.mode, h.ly, h.oam, h.lcdc, h.latched, h.sel⟩

/-- One dot carries the scan on: the first of an entry latches its bytes, the second puts the entry to the test. -/
theorem Scanning.scanDot {s t : State} {n : Nat} (h : Scanning s n t) (hn : n < 80) :
    ∃ u, oamScanDot n t = .ok u ∧ Scanning s (n + 1) u := by
  obtain ⟨i, rfl | rfl⟩ := Nat.even_or_odd' n
  · refine ⟨_, oamScanDot_even (by omega) t, h.mode, h.ly, h.oam, h.lcdc, fun _ => ?_, ?_⟩
    · have hread : (2 * i + 1 - 1) / 2 = i := by omega
      rw [hread, h.oam]
      exact ⟨rfl, rfl⟩
    · have hcount : (2 * i + 1) / 2 = 2 * i / 2 := by omega
      rw [hcount]
      exact h.sel
  · have hread : (2 * i + 1 - 1) / 2 = i := by omega
    have hdone : (2 * i + 1) / 2 = i := by omega
    have hcount : (2 * i + 1 + 1) / 2 = i + 1 := by omega
    obtain ⟨hy, hx⟩ := hread ▸ h.latched (by omega)
    have hsel : t.sel = firstTen s i := hdone ▸ h.sel
    have hentry : spriteOf i t.scanY t.scanX (Memory.read t.oam (4 * i + 2)) (Memory.read t.oam (4 * i + 3))
        t.objHeight = oamEntry s i := by
      rw [hy, hx, h.oam, State.objHeight, State.objSize, h.lcdc]
      rfl
    refine ⟨_, oamScanDot_odd (by omega) t, ?_⟩
    rw [hentry, evaluateSprite_eq]
    refine ⟨h.mode, h.ly, h.oam, h.lcdc, fun _ => ?_, ?_⟩
    · rw [Nat.add_sub_cancel, hdone]
      exact ⟨hy, hx⟩
    · rw [hcount, firstTen_succ, ← hsel, ← h.ly]

/-- A run of dots and one dot more. -/
theorem runDots_snoc {s t u : State} {n : Nat} (ht : runDots n s = .ok t) (hu : dotStep t = .ok u) :
    runDots (n + 1) s = .ok u := by
  rw [runDots_add, ht]
  show runDots 1 t = _
  rw [runDots, hu]
  rfl

/-- From the start of a visible line every dot up to line dot 79 finds the scan as far as the dots before it brought
it (R112, R116). -/
theorem runDots_scanning {s : State} (hon : s.engineOn = true) (hdot : s.lineDot = 0) (hly : s.ly.toNat < 144)
    {n : Nat} (hn : n < 80) :
    ∃ t, runDots n s = .ok t ∧ t.engineOn = true ∧ t.lineDot = n ∧ Scanning s n (lineStartIfDue t) := by
  induction n with
  | zero =>
    have hstart : lineStartIfDue s = lineStart s := if_pos hdot
    exact ⟨s, rfl, hon, hdot, hstart ▸ scanning_lineStart hly⟩
  | succ n ih =>
    obtain ⟨t, ht, hton, rfl, hscan⟩ := ih (by omega)
    obtain ⟨u, hu, hscan'⟩ := hscan.scanDot (by omega)
    have hstep := dotStep_scan hton (by omega) hscan.mode hu
    rw [if_neg (by omega)] at hstep
    refine ⟨_, runDots_snoc ht hstep, (dotStep_kept hstep).engineOn.trans hton, rfl, ?_⟩
    rw [lineStartIfDue_inside (Nat.succ_ne_zero _)]
    exact hscan'.setLineDot _

/-- Settles O38: the scan of the line is carried from dot to dot, and its last dot sorts the list. -/
theorem scanSelectsFirstTen : Obligations.ScanSelectsFirstTen := by
  intro s hon hdot hly
  constructor
  · intro n hpos hn
    obtain ⟨t, ht, _, hlast, hscan⟩ := runDots_scanning hon hdot hly hn
    rw [lineStartIfDue_inside (by omega)] at hscan
    obtain ⟨hy, hx⟩ := hscan.latched hpos
    exact ⟨t, ht, hscan.mode, hy, hx, hscan.sel⟩
  · obtain ⟨t, ht, hton, hlast, hscan⟩ := runDots_scanning hon hdot hly (n := 79) (by omega)
    obtain ⟨u, hu, hscan'⟩ := hscan.scanDot (by omega)
    have hstep := dotStep_scan hton (by omega) hscan.mode (hlast.symm ▸ hu)
    rw [if_pos hlast, endOamScan_eq] at hstep
    exact ⟨_, runDots_snoc ht hstep, rfl, congrArg sortSprites hscan'.sel⟩

/-! ### The order of the selected sprites -/

/-- Where the table indices are distinct, no two sprites stand before each other both ways (R117). -/
theorem sprite_order_antisymm {l : List SpriteAttr} (hnodup : (l.map SpriteAttr.oam).Nodup) {a b : SpriteAttr}
    (ha : a ∈ l) (hb : b ∈ l) (hab : a.x < b.x ∨ (a.x = b.x ∧ a.oam ≤ b.oam))
    (hba : b.x < a.x ∨ (b.x = a.x ∧ b.oam ≤ a.oam)) : a = b :=
  List.inj_on_of_nodup_map hnodup ha hb (by omega)

/-- Settles O39: the last scan dot sorts what the scan's dot leaves; the sort is a reordering into the order of R117,
and distinct indices make that order antisymmetric, so that two lists in it with the same members are one. -/
theorem sortIsUniqueOrder : Obligations.SortIsUniqueOrder := by
  refine ⟨fun s _ hon hm hdot => ?_, qualifying_oam_nodup, fun l => ⟨sortSprites_perm l, sortSprites_sorted l, ?_⟩⟩
  · obtain ⟨y, x, l, hu, _⟩ := oamScanDot_spec 79 s (by omega)
    have hstart := lineStartIfDue_inside (s := s) (by omega)
    have hstep := dotStep_scan hon (by omega) (hstart.symm ▸ hm) (by rw [hstart, hdot]; exact hu)
    rw [if_pos hdot, endOamScan_eq] at hstep
    exact ⟨_, _, hu, hstep, rfl, rfl⟩
  · intro hnodup l' hperm hsorted
    have hanti : ∀ a b, a ∈ l' → b ∈ sortSprites l → (a.x < b.x ∨ (a.x = b.x ∧ a.oam ≤ b.oam)) →
        (b.x < a.x ∨ (b.x = a.x ∧ b.oam ≤ a.oam)) → a = b := fun _ _ ha hb =>
      sprite_order_antisymm hnodup (hperm.subset ha) ((sortSprites_perm l).subset hb)
    exact List.Perm.eq_of_pairwise hanti hsorted (sortSprites_sorted l) (hperm.trans (sortSprites_perm l).symm)

end Sys2Proof.Machine
end

section
/-! PROOFS. The end of the scan (spec/41_mode_machine.md R103, spec/43_bg_window_fetcher.md R120): in the first 80 dots of
a visible line the mode is OAM scan, and the last of them resets the fetcher for Draw (O30). -/

namespace Sys2Proof.Machine

/-- While a dot of the first 80 of a visible line runs, only OAM scan fits the position: Draw and HBlank come later in
the line, and VBlank on later lines (R109). -/
theorem Running.mode_oamScan {s : State} (h : Running s) (hly : s.ly.toNat < 144) (hdot : s.lineDot < 80) :
    s.mode = .oamScan := by
  unfold Running at h
  cases hm : s.mode with
  | oamScan => rfl
  | draw | hblank | vblank =>
    simp only [hm] at h
    omega

/-- From the invariant the first 80 dots of a visible line run in OAM scan (R100, R109). -/
theorem lineStartIfDue_mode_oamScan {s : State} (h : Inv s) (hon : s.engineOn = true) (hly : s.ly.toNat < 144)
    (hdot : s.lineDot < 80) : (lineStartIfDue s).mode = .oamScan := by
  obtain ⟨_, hrun, hdot', hly'⟩ := lineStartIfDue_spec h hon
  exact hrun.mode_oamScan (hly' ▸ hly) (hdot' ▸ hdot)

/-- A dot of the scan before the last leaves the mode at OAM scan and counts (R106, R114). -/
theorem dotStep_scan_stays {s : State} (hon : s.engineOn = true) (hm : (lineStartIfDue s).mode = .oamScan)
    (hdot : s.lineDot < 79) : ∃ t, dotStep s = .ok t ∧ t.mode = .oamScan ∧ t.lineDot = s.lineDot + 1 := by
  obtain ⟨y, x, l, hu, _⟩ := oamScanDot_spec s.lineDot (lineStartIfDue s) (by omega)
  have hstep := dotStep_scan hon (by omega) hm hu
  rw [if_neg (by omega)] at hstep
  exact ⟨_, hstep, hm, rfl⟩

/-- The last dot of the scan runs the scan's dot and then its end (R98, R103). -/
theorem dotStep_scan_last {s u : State} (hon : s.engineOn = true) (hm : s.mode = .oamScan) (hdot : s.lineDot = 79)
    (hu : oamScanDot 79 s = .ok u) : dotStep s = .ok { endOamScan u with lineDot := 80 } := by
  have hstart : lineStartIfDue s = s := lineStartIfDue_inside (by omega)
  have hstep := dotStep_scan (u := u) hon (by omega) (hstart.symm ▸ hm) (by rw [hstart, hdot, hu])
  rw [if_pos hdot, hdot] at hstep
  exact hstep

/-- Settles O30: the position leaves only OAM scan for the first 80 dots of a visible line, and on the last of them the
scan's dot changes the list and its scratch bytes alone, so that the reset at the scan's end reads SCX and the last
sprite fetch of the state before the dot. -/
theorem endOfScanDot : Obligations.EndOfScanDot := by
  refine ⟨fun s h hon hly hdot => ?_, fun s _ hon hm hdot => ?_⟩
  · exact dotStep_scan_stays hon (lineStartIfDue_mode_oamScan h hon hly (by omega)) hdot
  · obtain ⟨y, x, l, hu, _⟩ := oamScanDot_spec 79 s (by omega)
    refine ⟨_, hu, rfl, ?_⟩
    rw [dotStep_scan_last hon hm hdot hu, endOamScan_eq]
    rfl

end Sys2Proof.Machine
end

section
/-! PROOFS. The mixer's dot and its place in the pipeline's dot (spec/43_bg_window_fetcher.md R121,
spec/45_fifo_mixer.md R152; O53). -/

namespace Sys2Proof.Machine

/-- A dot with pixels still to come and no sprite fetch in progress is the fetcher's step; then the sprite fetch that
the step began runs its first dot, or the mixer runs (R121). -/
theorem pipelineDot_after_fetcherStep {s t : State} (hx : s.pipe.outputX ≠ 160) (hleft : s.pipe.sfetchLeft = 0)
    (ht : fetcherStep s = .ok t) :
    pipelineDot s = if 0 < t.pipe.sfetchLeft then .ok { t with pipe.sfetchLeft := t.pipe.sfetchLeft - 1 }
      else mixerDot t := by
  rw [pipelineDot, if_neg hx, if_neg (by omega), ht]
  rfl

/-- The oldest sprite pixel of an aligned FIFO stands at the output x (R36). -/
theorem FifoAligned.head_sp_x {p : Pipeline} {sp : SpritePixel} {sps : List SpritePixel} (h : FifoAligned p)
    (hs : p.spFifo = sp :: sps) : sp.x = p.outputX :=
  (sp_x_iff p.spFifo p.outputX).1 h.sp_x 0 sp (by rw [hs]; rfl)

/-- Settles O53: the pipeline's dot is cut after the fetcher's step, and the mixer's dot on aligned FIFOs writes one
byte of the frame buffer. -/
theorem mixerWritesOnePixel : Obligations.MixerWritesOnePixel := by
  refine ⟨fun s t hx hleft ht => ⟨fun h0 => ?_, fun hpos u hu => ?_⟩, fun s h hly => ?_⟩
  · rw [pipelineDot_after_fetcherStep hx hleft ht, if_neg (by omega)]
  · rw [pipelineDot_after_fetcherStep hx hleft ht, if_pos hpos] at hu
    cases hu
    rfl
  · obtain ⟨hb, hm⟩ | ⟨bg, bgs, sp, sps, hb, hs, -, hm⟩ := mixerDot_spec s h hly
    · exact ⟨fun _ => hm, fun bg bgs hb' => by simp [hb] at hb'⟩
    · refine ⟨fun hb' => by simp [hb] at hb', fun bg' bgs' hb' => ?_⟩
      obtain ⟨rfl, rfl⟩ := List.cons.inj (hb.symm.trans hb')
      exact ⟨sp, sps, _, hs, h.head_sp_x hs, hm, fun i => fb_read_write ..⟩

end Sys2Proof.Machine
end

section
/-! PROOFS. No host operation fails (spec/60_exceptions.md R161; O23): an operation completes because a register
operation answers outright and the dots of a Tick keep the invariant; the action that a step takes off `pending` is an
operation, a write of a memory or of the interrupt flags, or a word with no meaning. -/

namespace Sys2Proof.Machine

/-! ### The operations -/

/-- A register operation completes from every state (R71). -/
theorem exec_register_completes {i : Instr} (hm : ∀ m, i ≠ .tick m) (s : State) : ∃ t, exec i s = .next t := by
  cases i
  case tick m => exact absurd rfl (hm m)
  case wrLcdc v =>
    obtain ⟨t, ht, -⟩ := exec_wrLcdc_stores s v
    exact ⟨t, ht⟩
  all_goals exact ⟨_, rfl⟩

/-- A Tick with the engine off runs no dot (R97). -/
theorem exec_tick_off (m : Nat) {s : State} (hoff : s.engineOn = false) :
    exec (.tick m) s = .next (returnNothing s) :=
  congrArg outcomeOf (runDots_off (s := returnNothing s) hoff)

/-- A Tick completes from the invariant, with the engine on or off (R97, R107). -/
theorem exec_tick_completes (m : Nat) {s : State} (h : Inv s) : ∃ t, exec (.tick m) s = .next t := by
  cases hon : s.engineOn
  case false => exact ⟨_, exec_tick_off m hon⟩
  case true =>
    obtain ⟨t, ht, -⟩ := exec_tick_spec m h hon
    exact ⟨t, ht⟩

/-- Every host operation completes from the invariant (R161). -/
theorem exec_completes (i : Instr) {s : State} (h : Inv s) : ∃ t, exec i s = .next t := by
  by_cases hm : ∀ m, i ≠ .tick m
  · exact exec_register_completes hm s
  · obtain ⟨m, hi⟩ := not_forall.mp hm
    obtain rfl := not_not.mp hi
    exact exec_tick_completes m h

/-! ### The step -/

/-- The actions that wait are no part of the invariant. -/
theorem setPending_inv {s : State} (h : Inv s) (l : List HostAction) : Inv { s with pending := l } :=
  AgreeOnInv.inv (s := s) ⟨rfl, rfl, rfl, rfl, rfl, rfl, rfl, rfl, rfl, rfl, rfl, rfl, rfl⟩ h

/-- A word that decodes is run (R70). -/
theorem hostStep_word_ok {w : HostWord} {i : Instr} (hw : decode w = .ok i) (s : State) :
    hostStep (.word w) s = exec i s := by
  simp only [hostStep, hw]

/-- A word with no meaning is refused by its name (R60). -/
theorem hostStep_word_error {w : HostWord} {e : DecodeError} (hw : decode w = .error e) (s : State) :
    hostStep (.word w) s = .refused (.reservedWord e) := by
  simp only [hostStep, hw]

/-- What one action of the host can do from the invariant: it completes, or it is a refused word. -/
theorem hostStep_cases (a : HostAction) {s : State} (h : Inv s) :
    (∃ t, hostStep a s = .next t) ∨
      ∃ w e, a = .word w ∧ decode w = .error e ∧ hostStep a s = .refused (.reservedWord e) := by
  cases a
  case word w =>
    cases hw : decode w
    case ok i =>
      rw [hostStep_word_ok hw]
      exact .inl (exec_completes i h)
    case error e => exact .inr ⟨w, e, rfl, hw, hostStep_word_error hw s⟩
  all_goals exact .inl ⟨_, rfl⟩

/-- A step with no action pending changes nothing (R6). -/
theorem step_of_pending_nil {s : State} (hp : s.pending = []) : step s = .next s := by
  simp only [step, hp]

/-- A step takes the oldest pending action and performs it. -/
theorem step_of_pending_cons {s : State} {a : HostAction} {rest : List HostAction} (hp : s.pending = a :: rest) :
    step s = hostStep a { s with pending := rest } := by
  simp only [step, hp]

/-- What a step can do from the invariant: it completes, or it refuses the pending word because it has no meaning. -/
theorem step_cases {s : State} (h : Inv s) :
    (∃ t, step s = .next t) ∨
      ∃ w rest e, s.pending = .word w :: rest ∧ decode w = .error e ∧ step s = .refused (.reservedWord e) := by
  cases hp : s.pending
  case nil => exact .inl ⟨s, step_of_pending_nil hp⟩
  case cons a rest =>
    rw [step_of_pending_cons hp]
    obtain hnext | ⟨w, e, rfl, hw, hrefused⟩ := hostStep_cases a (setPending_inv h rest)
    · exact .inl hnext
    · exact .inr ⟨w, rest, e, rfl, hw, hrefused⟩

/-- Settles O23: the two cases of a step from the invariant leave out every fault, and the refusal is that of the
pending word. -/
theorem noOperationFails : Obligations.NoOperationFails := by
  refine ⟨fun i _ h => exec_completes i h, fun s f h hf => ?_, fun s r h hr => ?_⟩
  · obtain ⟨t, ht⟩ | ⟨w, rest, e, -, -, ht⟩ := step_cases h <;> cases ht.symm.trans hf
  · obtain ⟨t, ht⟩ | ⟨w, rest, e, hp, hw, ht⟩ := step_cases h <;> cases ht.symm.trans hr
    exact ⟨w, rest, e, hp, hw, rfl⟩

end Sys2Proof.Machine
end

section
/-! PROOFS. The length of Draw (spec/70_reset_and_hazards.md R184; O35): a count of the dots that the 160 pixels of a
line still need, exact where `drawBudget` is a bound, which every dot of Draw lowers by one. -/

namespace Sys2Proof.Machine

/-! ### The count -/

/-- Whether the line has a window, triggered or still to trigger (R100, R131). -/
def windowDue (s : State) : Bool := s.winEnable && s.winLineOk && decide (windowStart s < 160)

/-- The dots that a window still to trigger will cost: a refetch of eight less the pixels of its tile drained or
discarded (R137, R184). -/
def windowDots (s : State) : Nat :=
  if s.pipe.inWindow = false ∧ windowDue s = true then 8 - (windowStart s + s.pipe.discard.toNat) % 8 else 0

/-- How many sprite fetches the rest of the line starts (R140, R141). -/
def fetchesToGo (s : State) : Nat :=
  if s.objEnable then (s.sel.drop s.pipe.spPtr).countP fun a => decide (a.x < 160) else 0

/-- The dots to the last pixel when neither a sprite nor a window interrupts the tile fetches (R135, R136). -/
def tileDots (p : Pipeline) : Nat :=
  if p.pushX = 160 then 160 - p.outputX
  else if p.phase = .push then 168 - p.pushX - p.run.length
  else 167 - p.pushX - p.elapsed + if p.pushX = 0 ∧ p.inWindow = false then p.discard.toNat else 0

/-- The dots of Draw to the last pixel of the line (R184). -/
def dotsToGo (s : State) : Nat :=
  s.pipe.sfetchLeft + tileDots s.pipe + 6 * fetchesToGo s + windowDots s

/-- Where neither a fetch nor a window starts, the dots to go change as those of the fetch in progress and of the
tiles. -/
theorem dotsToGo_of_pipe {s t : State} {m : Nat} (hfetch : fetchesToGo t = fetchesToGo s)
    (hwin : windowDots t = windowDots s)
    (h : t.pipe.sfetchLeft + tileDots t.pipe + m = s.pipe.sfetchLeft + tileDots s.pipe) :
    dotsToGo t + m = dotsToGo s := by
  unfold dotsToGo
  omega

/-- Where nothing changes of the sprite fetches and of the window, the dots to go change as those of the tiles. -/
theorem dotsToGo_of_tileDots {s t : State} {m : Nat} (hfetch : fetchesToGo t = fetchesToGo s)
    (hwin : windowDots t = windowDots s) (hleft : t.pipe.sfetchLeft = s.pipe.sfetchLeft)
    (htile : tileDots t.pipe + m = tileDots s.pipe) : dotsToGo t + m = dotsToGo s :=
  dotsToGo_of_pipe hfetch hwin (by omega)

/-- Where the tiles of a line lie: up to the window a tile ends at an x that the discard makes a multiple of eight; the
window starts at its own x; and a run held in a Push ends on the screen or fills the FIFO. -/
structure OnGrid (s : State) : Prop where
  before_window : s.pipe.inWindow = false → windowDue s = true → s.pipe.pushX ≤ windowStart s
  tile_start : s.pipe.phase ≠ .push → s.pipe.inWindow = false →
    s.pipe.pushX = 0 ∨ s.pipe.pushX = 160 ∨ (s.pipe.pushX + s.pipe.discard.toNat) % 8 = 0
  tile_end : s.pipe.phase = .push → s.pipe.inWindow = false →
    (s.pipe.pushX + s.pipe.run.length + s.pipe.discard.toNat) % 8 = 0
  run_full : s.pipe.phase = .push →
    s.pipe.pushX + s.pipe.run.length < 160 ∨ s.pipe.bgFifo.length + s.pipe.run.length = 8

/-- On the screen the window triggers where it is due and its start is reached (R131). -/
theorem windowTrigger_iff {s : State} (hx : s.pipe.pushX < 160) :
    windowTrigger s = true ↔ s.pipe.inWindow = false ∧ windowDue s = true ∧ windowStart s ≤ s.pipe.pushX := by
  have hstart : ((s.wx.toNat : Int) - 7 ≤ (s.pipe.pushX : Int)) ↔ windowStart s ≤ s.pipe.pushX := by
    unfold windowStart
    omega
  simp only [windowTrigger, windowDue, Bool.and_eq_true, Bool.not_eq_true', decide_eq_true_eq, hstart]
  constructor
  · rintro ⟨⟨⟨hin, hen⟩, hok⟩, hle⟩
    exact ⟨hin, ⟨⟨hen, hok⟩, by omega⟩, hle⟩
  · rintro ⟨hin, ⟨⟨hen, hok⟩, _⟩, hle⟩
    exact ⟨⟨⟨hin, hen⟩, hok⟩, hle⟩

/-! ### The drain of a Push -/

/-- The state in a Push, at a pixel of its run. -/
structure Pushing (s : State) : Prop where
  phase : s.pipe.phase = .push
  idle : s.pipe.sfetchLeft = 0
  fifos : FifoAligned s.pipe
  run_le : s.pipe.run.length ≤ 8
  grid : OnGrid s

/-- What the fetcher's step takes off the dots to go: one, but none where it begins a sprite fetch or where all the
pixels are drained, since there the rest of the dot takes it off: the fetch's first dot, or the mixer's pixel. -/
def stepDots (s : State) : Nat := if s.pipe.sfetchLeft = 0 ∧ s.pipe.pushX ≠ 160 then 1 else 0

/-- The end of a Push starts the fetch of the next tile (R134). -/
theorem restartFetch_dotsToGo {s : State} (h : Pushing s) (hend : s.pipe.run = [] ∨ s.pipe.pushX = 160) :
    OnGrid (restartFetch s) ∧ dotsToGo (restartFetch s) + stepDots (restartFetch s) = dotsToGo s := by
  obtain ⟨hphase, hidle, hf, -, hg⟩ := h
  constructor
  · refine ⟨hg.before_window, fun _ hin => ?_, nofun, nofun⟩
    obtain hrun | hx := hend
    · have := hg.tile_end hphase hin
      rw [hrun] at this
      exact .inr (.inr this)
    · exact .inr (.inl hx)
  · have htile : tileDots (restartFetch s).pipe + stepDots (restartFetch s) = tileDots s.pipe := by
      by_cases hx : s.pipe.pushX = 160
      · simp [tileDots, stepDots, restartFetch, hx]
      · have hrun := hend.resolve_right hx
        have hle := hf.push_le
        have hd := s.pipe.discard.isLt
        have hend := hg.tile_end hphase
        simp only [hrun, List.length_nil] at hend
        simp only [screenW] at hle
        simp only [tileDots, stepDots, restartFetch, Pipeline.elapsed, Phase.index, hx, hphase, hidle, hrun, if_false,
          if_true, reduceCtorEq, List.length_nil, ne_eq, not_false_eq_true, and_self]
        have hd0 : s.pipe.pushX = 0 ∧ s.pipe.inWindow = false → s.pipe.discard.toNat = 0 := fun h => by
          have := hend h.2
          omega
        split_ifs with h0
        · have := hd0 h0
          omega
        · omega
    exact dotsToGo_of_tileDots rfl rfl rfl htile

/-- The window's start spends its delay: what is left of the run is dropped for the refetch (R131, R137). -/
theorem enterWindow_dotsToGo {s : State} (h : Pushing s) (hrun : s.pipe.run ≠ []) (hx : s.pipe.pushX < 160)
    (hw : windowTrigger s = true) :
    OnGrid (enterWindow s) ∧ dotsToGo (enterWindow s) + stepDots (enterWindow s) = dotsToGo s := by
  obtain ⟨hphase, hidle, -, hle, hg⟩ := h
  obtain ⟨hin, hdue, hreached⟩ := (windowTrigger_iff hx).1 hw
  have hbefore := hg.before_window hin hdue
  have hend := hg.tile_end hphase hin
  have hpos := List.length_pos_of_ne_nil hrun
  refine ⟨⟨nofun, nofun, nofun, nofun⟩, ?_⟩
  have hne := Nat.ne_of_lt hx
  have htile : tileDots (enterWindow s).pipe = 167 - s.pipe.pushX := by
    simp [tileDots, enterWindow, restartFetch, Pipeline.elapsed, Phase.index, hne]
  have htile' : tileDots s.pipe = 168 - s.pipe.pushX - s.pipe.run.length := by simp [tileDots, hne, hphase]
  have hdelay : windowDots s = 8 - (windowStart s + s.pipe.discard.toNat) % 8 := if_pos ⟨hin, hdue⟩
  have hdelay' : windowDots (enterWindow s) = 0 := if_neg fun h => nomatch h.1
  have hstep : stepDots (enterWindow s) = 1 := by simp [stepDots, enterWindow, restartFetch, hidle, hne]
  have hfetch : fetchesToGo (enterWindow s) = fetchesToGo s := rfl
  have hleft : (enterWindow s).pipe.sfetchLeft = s.pipe.sfetchLeft := rfl
  unfold dotsToGo
  rw [htile, htile', hfetch, hleft, hdelay, hdelay', hstep]
  omega

/-- A drained pixel moves from the run to the FIFO, and the dots to go stay (R132). -/
theorem drainOne_dotsToGo {s : State} {c : Colour} {rest : List Colour} (h : Pushing s) (hr : s.pipe.run = c :: rest)
    (hx : s.pipe.pushX < 160) (hw : windowTrigger s ≠ true) :
    Pushing (drainOne c rest s) ∧ dotsToGo (drainOne c rest s) = dotsToGo s := by
  obtain ⟨hphase, hidle, hf, hle, hg⟩ := h
  have hlen : s.pipe.run.length = rest.length + 1 := by rw [hr]; rfl
  have hfull := hg.run_full hphase
  have hbg := hf.bg_length
  rw [hlen] at hle hfull
  constructor
  · refine ⟨hphase, hidle, drainOne_aligned hf hx, Nat.le_of_succ_le hle, fun hin hdue => ?_,
      fun h => absurd hphase h, fun _ hin => ?_, fun _ => ?_⟩
    · have hbefore := hg.before_window hin hdue
      have hne : ¬ windowStart s ≤ s.pipe.pushX := fun h => hw ((windowTrigger_iff hx).2 ⟨hin, hdue, h⟩)
      show s.pipe.pushX + 1 ≤ windowStart s
      omega
    · have hend := hg.tile_end hphase hin
      show (s.pipe.pushX + 1 + rest.length + s.pipe.discard.toNat) % 8 = 0
      omega
    · show s.pipe.pushX + 1 + rest.length < 160 ∨ (Fifo.pushBack s.pipe.bgFifo _).length + rest.length = 8
      simp only [Fifo.pushBack, List.length_append, List.length_singleton]
      omega
  · have htile : tileDots (drainOne c rest s).pipe = tileDots s.pipe := by
      simp only [tileDots, drainOne, hphase, if_true, hlen, Nat.ne_of_lt hx, if_false]
      split <;> omega
    exact dotsToGo_of_tileDots (m := 0) rfl rfl rfl htile

/-- The sprites that a check passes over, objects being disabled, were not to be fetched (R141). -/
theorem passOver_dotsToGo {s : State} {k : Nat} (h : Pushing s) (hk : s.objEnable = true → k = s.pipe.spPtr) :
    Pushing { s with pipe.spPtr := k } ∧ dotsToGo { s with pipe.spPtr := k } = dotsToGo s := by
  obtain ⟨hphase, hidle, ⟨f1, f2, f3, f4, f5⟩, hle, ⟨g1, g2, g3, g4⟩⟩ := h
  refine ⟨⟨hphase, hidle, ⟨f1, f2, f3, f4, f5⟩, hle, ⟨g1, g2, g3, g4⟩⟩, ?_⟩
  have hfetch : fetchesToGo { s with pipe.spPtr := k } = fetchesToGo s := by
    cases hobj : s.objEnable
    case false =>
      have hobj' : ({ s with pipe.spPtr := k } : State).objEnable = false := hobj
      simp [fetchesToGo, hobj, hobj']
    case true => rw [hk hobj]
  exact dotsToGo_of_tileDots (m := 0) hfetch rfl rfl rfl

/-- A sprite fetch that starts is one of those to come, since the sprite is on the screen (R140, R141). -/
theorem startFetch_dotsToGo {s : State} {a : SpriteAttr} (h : Pushing s) (hx : s.pipe.pushX < 160)
    (ha : s.sel[s.pipe.spPtr]? = some a) (htrig : a.triggerX = (s.pipe.pushX : Int)) (hobj : s.objEnable = true) :
    let t : State :=
      { s with pipe.spPtr := s.pipe.spPtr + 1, pipe.sfetchCur := a, pipe.sfetchLeft := spriteFetchDots }
    OnGrid t ∧ dotsToGo t + stepDots t = dotsToGo s := by
  intro t
  obtain ⟨-, hidle, -, -, ⟨g1, g2, g3, g4⟩⟩ := h
  refine ⟨⟨g1, g2, g3, g4⟩, ?_⟩
  obtain ⟨hlt, rfl⟩ := List.getElem?_eq_some_iff.1 ha
  have hax : s.sel[s.pipe.spPtr].x < 160 := by
    unfold SpriteAttr.triggerX at htrig
    omega
  have hfetch : fetchesToGo s = fetchesToGo t + 1 := by
    have hobj' : t.objEnable = true := hobj
    simp only [fetchesToGo, hobj, hobj', if_true, List.drop_eq_getElem_cons hlt]
    exact List.countP_cons_of_pos (by simpa using hax)
  have htile : tileDots t.pipe = tileDots s.pipe := rfl
  have hwin : windowDots t = windowDots s := rfl
  have hleft : t.pipe.sfetchLeft = 6 := rfl
  have hstep : stepDots t = 0 := rfl
  unfold dotsToGo
  rw [hfetch, htile, hwin, hleft, hstep, hidle]
  omega

/-- The drain of a Push (R129). -/
theorem drainLoop_dotsToGo (n : Nat) {s : State} (h : Pushing s) (hn : s.pipe.run.length ≤ n) :
    OnGrid (drainLoop n s) ∧ dotsToGo (drainLoop n s) + stepDots (drainLoop n s) = dotsToGo s := by
  induction n generalizing s with
  | zero => exact restartFetch_dotsToGo h (.inl (List.length_eq_zero_iff.1 (by omega)))
  | succ n ih =>
    cases hr : s.pipe.run with
    | nil =>
      have hloop : drainLoop (n + 1) s = restartFetch s := by simp only [drainLoop, hr]
      rw [hloop]
      exact restartFetch_dotsToGo h (.inl hr)
    | cons c rest =>
      rw [hr, List.length_cons] at hn
      have hle := h.fifos.push_le
      simp only [drainLoop, hr]
      split
      case isFalse hx => exact restartFetch_dotsToGo h (.inr (by simp only [screenW] at hx hle; omega))
      case isTrue hx =>
        split
        case isTrue hw => exact enterWindow_dotsToGo h (by simp [hr]) hx hw
        case isFalse hw =>
          obtain ⟨k, -, -, -, hk, hcheck⟩ | ⟨a, ha, htrig, hobj, hcheck⟩ := spriteCheck_cases s
          · obtain ⟨h', hgo'⟩ := passOver_dotsToGo h hk
            obtain ⟨h'', hgo''⟩ := drainOne_dotsToGo (c := c) (rest := rest) h' hr hx hw
            rw [hcheck, ← hgo', ← hgo'']
            exact ih h'' (Nat.le_of_succ_le_succ hn)
          · rw [hcheck]
            exact startFetch_dotsToGo h hx ha htrig hobj

/-! ### A dot of Draw -/

/-- The first dot of a phase only counts (R122). -/
theorem fetcherStep_first_dot {s : State} (hphase : s.pipe.phase ≠ .push) (hdot : s.pipe.phaseDot = 0) :
    fetcherStep s = .ok { s with pipe.phaseDot := 1 } := by
  unfold fetcherStep
  cases hph : s.pipe.phase
  case push => exact absurd hph hphase
  all_goals simp [hdot]

/-- A dot of a tile fetch that does not reach its Push moves the fetch on and leaves the FIFOs and the run alone
(R122). -/
theorem fetcherStep_advance {s t : State} (h : fetcherStep s = .ok t) (hphase : s.pipe.phase ≠ .push)
    (hdot : s.pipe.phaseDot < 2) (hearly : s.pipe.elapsed ≠ 7) :
    ∃ ph d fx ma tl ta lo hi, ph ≠ .push ∧ 2 * ph.index + d = s.pipe.elapsed + 1 ∧
      t = { s with pipe := { s.pipe with
        phase := ph, phaseDot := d, fetchX := fx, mapAddr := ma, tileLine := tl, tileAddr := ta
        lo := lo, hi := hi } } := by
  unfold Pipeline.elapsed at hearly ⊢
  by_cases hd : s.pipe.phaseDot = 0
  · cases (fetcherStep_first_dot hphase hd).symm.trans h
    exact ⟨s.pipe.phase, 1, _, _, _, _, _, _, hphase, by omega, rfl⟩
  · have hd1 : s.pipe.phaseDot = 1 := by omega
    unfold fetcherStep at h
    cases hph : s.pipe.phase <;>
      simp only [hph, hd1, fetchPhaseDots, Nat.reduceAdd, Nat.lt_irrefl, if_false, Phase.index] at h hearly ⊢
    case getTile =>
      cases h
      exact ⟨.dataLow, 0, _, _, _, _, _, _, nofun, rfl, rfl⟩
    case dataLow =>
      obtain ⟨u, hu, h⟩ := bind_eq_ok h
      obtain ⟨_, _, hu⟩ := bind_eq_ok hu
      obtain ⟨_, _, hu⟩ := bind_eq_ok hu
      cases hu
      cases h
      exact ⟨.dataHigh, 0, _, _, _, _, _, _, nofun, rfl, rfl⟩
    case dataHigh =>
      obtain ⟨u, hu, h⟩ := bind_eq_ok h
      obtain ⟨_, _, hu⟩ := bind_eq_ok hu
      cases hu
      cases h
      exact ⟨.idle, 0, _, _, _, _, _, _, nofun, rfl, rfl⟩
    case idle => exact absurd rfl hearly
    case push => exact absurd hph hphase

/-- The last dot of a tile fetch is the second of Idle (R122, R135). -/
theorem idle_of_elapsed {p : Pipeline} (hphase : p.phase ≠ .push) (hdot : p.phaseDot < 2) (hlast : p.elapsed = 7) :
    p.phase = .idle ∧ p.phaseDot = 1 := by
  unfold Pipeline.elapsed at hlast
  cases hph : p.phase
  case push => exact absurd hph hphase
  all_goals
    simp only [hph, Phase.index] at hlast
    simp only [reduceCtorEq, false_and, true_and]
    omega

/-- On the last dot of a tile fetch the Push is attempted (R122). -/
theorem fetcherStep_push {s : State} (hphase : s.pipe.phase ≠ .push) (hdot : s.pipe.phaseDot < 2)
    (hlast : s.pipe.elapsed = 7) :
    fetcherStep s = .ok (pushStep { s with pipe.phaseDot := 0, pipe.phase := .push }) := by
  obtain ⟨hidle, hdot1⟩ := idle_of_elapsed hphase hdot hlast
  simp only [fetcherStep, hidle, hdot1, fetchPhaseDots, Nat.reduceAdd, Nat.lt_irrefl, if_false]

/-- The Push that a tile fetch leads to decodes a whole tile, less the discard on the first tile of the line (R129,
R130); the dots to go stay. -/
theorem decode_dotsToGo {s : State} (h : DrawLegal s) (hg : OnGrid s) (ho : s.pipe.outputX < 160)
    (hphase : s.pipe.phase ≠ .push) (hlast : s.pipe.elapsed = 7) :
    let u := decodeIfEmpty { s with pipe.phaseDot := 0, pipe.phase := .push }
    Pushing u ∧ dotsToGo u = dotsToGo s := by
  intro u
  have hf := h.fetcher
  obtain ⟨hrun, hidle⟩ := hf.run_nil hphase
  have hu : u = { s with
      pipe.phaseDot := 0, pipe.phase := .push
      pipe.run := decodeRun { s.pipe with phaseDot := 0, phase := .push } } := if_pos hrun
  have hlen : u.pipe.run.length =
      8 - if s.pipe.pushX = 0 ∧ s.pipe.inWindow = false then s.pipe.discard.toNat else 0 := by
    obtain ⟨hlastPhase, -⟩ := idle_of_elapsed hphase hf.phaseDot_lt hlast
    rw [hu, ← hf.fetch_eq (.inr (.inr hlastPhase))]
    exact decodeRun_length _
  have hempty : s.pipe.bgFifo.length = 0 := by
    have := hf.fifo_le hphase
    omega
  obtain ⟨f1, f2, f3, f4, f5⟩ := h.fifos
  have hd := s.pipe.discard.isLt
  have hx : s.pipe.pushX < 160 := by omega
  have htile : tileDots u.pipe = tileDots s.pipe := by
    have hphase' : u.pipe.phase = .push := by rw [hu]
    have hx' : u.pipe.pushX = s.pipe.pushX := by rw [hu]
    simp only [tileDots, hphase', hx', hlen, hlast, hphase, Nat.ne_of_lt hx, if_true, if_false]
    split_ifs <;> omega
  constructor
  · have hle : u.pipe.run.length ≤ 8 := by omega
    rw [hu] at hle hlen ⊢
    refine ⟨rfl, hidle, ⟨f1, f2, f3, f4, f5⟩, hle, hg.before_window, fun h => absurd rfl h, fun _ hin => ?_,
      fun _ => ?_⟩
    · have hstart := hg.tile_start hphase hin
      have hin' : s.pipe.inWindow = false := hin
      simp only [hin', and_true] at hlen ⊢
      split_ifs at hlen <;> omega
    · simp only at hlen ⊢
      split_ifs at hlen <;> omega
  · exact dotsToGo_of_tileDots (m := 0) (by rw [hu]; rfl) (by rw [hu]; rfl) (by rw [hu]) htile

/-- A dot more of a tile fetch is a dot less to go, but where all the pixels are drained (R122). -/
theorem advance_tileDots {p q : Pipeline} (hp : p.phase ≠ .push) (hq : q.phase ≠ .push)
    (helapsed : q.elapsed = p.elapsed + 1) (hle : q.elapsed ≤ 7) (hpush : q.pushX = p.pushX)
    (hout : q.outputX = p.outputX) (hin : q.inWindow = p.inWindow) (hdiscard : q.discard = p.discard)
    (hx : p.pushX ≤ 160) : tileDots q + (if p.pushX = 160 then 0 else 1) = tileDots p := by
  unfold tileDots
  rw [if_neg hp, if_neg hq, hpush, hout, hin, hdiscard, helapsed]
  split_ifs <;> omega

/-- The fetcher's step of a dot with pixels to go (R122). -/
theorem fetcherStep_dotsToGo {s t : State} (h : DrawLegal s) (hg : OnGrid s) (ho : s.pipe.outputX < 160)
    (hidle : s.pipe.sfetchLeft = 0) (ht : fetcherStep s = .ok t) :
    OnGrid t ∧ dotsToGo t + stepDots t = dotsToGo s := by
  have hf := h.fetcher
  have hlt := hf.phaseDot_lt
  by_cases hphase : s.pipe.phase = .push
  · obtain ⟨hrun, -, hle⟩ := hf.run_held hphase
    have hpush : fetcherStep s = .ok (pushStep s) := by simp only [fetcherStep, hphase]
    have hdecode : decodeIfEmpty s = s := if_neg hrun
    cases hpush.symm.trans ht
    unfold pushStep
    rw [hdecode]
    exact drainLoop_dotsToGo _ ⟨hphase, hidle, h.fifos, by omega, hg⟩ le_rfl
  · by_cases hlast : s.pipe.elapsed = 7
    · obtain ⟨hpushing, hgo⟩ := decode_dotsToGo h hg ho hphase hlast
      cases (fetcherStep_push hphase hlt hlast).symm.trans ht
      rw [← hgo]
      exact drainLoop_dotsToGo _ hpushing le_rfl
    · have hle := hf.fifo_le hphase
      have hx := h.fifos.push_le
      obtain ⟨ph, d, fx, ma, tl, ta, lo, hi, hne, hnext, rfl⟩ := fetcherStep_advance ht hphase hlt hlast
      refine ⟨⟨hg.before_window, fun _ => hg.tile_start hphase, (absurd · hne), (absurd · hne)⟩, ?_⟩
      have htile := advance_tileDots (q := { s.pipe with
          phase := ph, phaseDot := d, fetchX := fx, mapAddr := ma, tileLine := tl, tileAddr := ta, lo := lo, hi := hi })
        hphase hne hnext (by simp only [Pipeline.elapsed] at hnext hle hlast ⊢; omega) rfl rfl rfl rfl hx
      refine dotsToGo_of_tileDots rfl rfl rfl ?_
      simpa only [stepDots, hidle, true_and, ne_eq, ite_not] using htile

/-- The mixer's pixel is one of those to go once all the pixels are drained; before, it takes nothing off (R152). -/
theorem mixerDot_dotsToGo {s t : State} (hf : FifoAligned s.pipe) (hphase : s.pipe.phase ≠ .push) (hg : OnGrid s)
    (ho : s.pipe.outputX < 160) (hly : s.ly.toNat < 144) (ht : mixerDot s = .ok t) :
    OnGrid t ∧ dotsToGo t + (if s.pipe.pushX = 160 then 1 else 0) = dotsToGo s := by
  obtain ⟨hempty, hm⟩ | ⟨bg, bgs, sp, sps, hbg, -, -, hm⟩ := mixerDot_spec s hf hly
  · cases hm.symm.trans ht
    have hx := hf.bg_length
    rw [hempty] at hx
    simp only [List.length_nil] at hx
    exact ⟨hg, by rw [if_neg (by omega)]; rfl⟩
  · cases hm.symm.trans ht
    refine ⟨⟨hg.before_window, hg.tile_start, (absurd · hphase), (absurd · hphase)⟩, ?_⟩
    have htile : tileDots { s.pipe with bgFifo := bgs, spFifo := sps, outputX := s.pipe.outputX + 1 } +
        (if s.pipe.pushX = 160 then 1 else 0) = tileDots s.pipe := by
      simp only [tileDots, Pipeline.elapsed]
      split_ifs <;> omega
    exact dotsToGo_of_tileDots rfl rfl rfl htile

/-- A dot of the pipeline with pixels to go is one dot less to go (R121, R184). -/
theorem pipelineDot_dotsToGo {s t : State} (h : DrawLegal s) (hsel : SelLegal s) (hg : OnGrid s)
    (hly : s.ly.toNat < 144) (ho : s.pipe.outputX < 160) (ht : pipelineDot s = .ok t) :
    OnGrid t ∧ dotsToGo t + 1 = dotsToGo s := by
  have hx : s.pipe.outputX ≠ 160 := Nat.ne_of_lt ho
  by_cases hleft : 0 < s.pipe.sfetchLeft
  · obtain ⟨q, hstall, -⟩ := spriteStallDot_legal s h hsel hleft
    rw [pipelineDot, if_neg hx, if_pos hleft, hstall] at ht
    cases ht
    refine ⟨⟨hg.before_window, hg.tile_start, hg.tile_end, hg.run_full⟩, dotsToGo_of_pipe rfl rfl ?_⟩
    show s.pipe.sfetchLeft - 1 + tileDots s.pipe + 1 = s.pipe.sfetchLeft + tileDots s.pipe
    omega
  · have hidle : s.pipe.sfetchLeft = 0 := by omega
    obtain ⟨p, hp, hout, -, hlegal⟩ := fetcherStep_legal s h ho hidle
    obtain ⟨hg', hgo⟩ := fetcherStep_dotsToGo h hg ho hidle hp
    rw [pipelineDot_after_fetcherStep hx hidle hp] at ht
    obtain ⟨hp0, hfetched, -⟩ | ⟨hp6, -⟩ := hlegal
    · rw [if_neg (by simp only [hp0]; decide)] at ht
      obtain ⟨hg'', hgo'⟩ := mixerDot_dotsToGo hfetched.fifos hfetched.phase_ne hg' (hout.trans_lt ho) hly ht
      refine ⟨hg'', ?_⟩
      rw [← hgo, ← hgo', stepDots]
      simp only [hp0, true_and]
      split_ifs <;> omega
    · simp only [hp6, spriteFetchDots, Nat.zero_lt_succ, if_true, Nat.reduceSub] at ht
      cases ht
      refine ⟨⟨hg'.before_window, hg'.tile_start, hg'.tile_end, hg'.run_full⟩, ?_⟩
      rw [← hgo, stepDots, if_neg (by simp [hp6])]
      refine dotsToGo_of_pipe rfl rfl ?_
      rw [hp6]
      show 5 + tileDots p + 1 = 6 + tileDots p
      omega

/-- No dot is to go exactly where all pixels are written: every sprite on the screen has then been fetched, and a due
window has started. -/
theorem dotsToGo_eq_zero_iff {s : State} (hfifos : FifoAligned s.pipe) (hfetcher : FetcherLegal s.pipe)
    (hsprites : SpritesLegal s) (hg : OnGrid s) : dotsToGo s = 0 ↔ s.pipe.outputX = 160 := by
  have hle := hfifos.push_le
  have hbg := hfifos.bg_length
  simp only [screenW] at hle
  constructor
  · intro h0
    have htile : tileDots s.pipe = 0 := by
      unfold dotsToGo at h0
      omega
    unfold tileDots at htile
    split_ifs at htile with hx hphase
    · omega
    · obtain ⟨-, hlt, hrun⟩ := hfetcher.run_held hphase
      simp only [screenW] at hlt
      omega
    · have := hfetcher.fifo_le hphase
      omega
    · have := hfetcher.fifo_le hphase
      omega
  · intro ho
    have hpush : s.pipe.pushX = 160 := by omega
    have hphase : s.pipe.phase ≠ .push := fun hphase => by
      obtain ⟨-, hlt, -⟩ := hfetcher.run_held hphase
      exact absurd hpush (Nat.ne_of_lt hlt)
    have htile : tileDots s.pipe = 0 := by simp only [tileDots, hpush, ho, if_true, Nat.sub_self]
    have hfetch : fetchesToGo s = 0 := by
      unfold fetchesToGo
      split
      · refine List.countP_eq_zero.2 fun a ha => ?_
        have := hsprites.not_missed a ha
        unfold SpriteAttr.triggerX at this
        simp only [decide_eq_true_eq]
        omega
      · rfl
    have hwin : windowDots s = 0 := if_neg fun ⟨hin, hdue⟩ => by
      have hbefore := hg.before_window hin hdue
      simp only [windowDue, Bool.and_eq_true, decide_eq_true_eq] at hdue
      omega
    obtain ⟨-, hleft⟩ := hfetcher.run_nil hphase
    rw [dotsToGo, htile, hfetch, hwin, hleft]

/-- A dot of Draw is the pipeline's dot, the count and the test for the end of Draw (R98, R104, R106). -/
theorem dotStep_draw {s t : State} (hon : s.engineOn = true) (hm : s.mode = .draw)
    (hdot : s.lineDot ≠ 0 ∧ s.lineDot ≠ 455) (ht : pipelineDot s = .ok t) :
    dotStep s = .ok { endDrawIfDone { t with drawDots := t.drawDots + 1 } with lineDot := s.lineDot + 1 } := by
  have hmode : modeDot s = .ok (endDrawIfDone { t with drawDots := t.drawDots + 1 }) := by
    unfold modeDot drawDot
    rw [hm]
    simp only [ht]
    rfl
  obtain ⟨-, hend⟩ := modeDot_position hmode
  rw [dotStep_inside hon hdot.1, hmode]
  refine (endOfDot_inside (by rw [hend]; exact hdot.2)).trans ?_
  rw [hend]

/-- The state after `n` dots of the Draw of a line that needs `d` dots to its last pixel. -/
structure Drawing (d n : Nat) (s : State) : Prop where
  on : s.engineOn = true
  mode : s.mode = .draw
  line : s.ly.toNat < 144
  lineDot : s.lineDot = 80 + n
  drawDots : s.drawDots = n
  sel : SelLegal s
  legal : DrawLegal s
  grid : OnGrid s
  toGo : dotsToGo s = d - n

/-- The pipeline's dot on a line that is drawn: one dot less to go, or none if none was. -/
theorem Drawing.after_pipelineDot {d n : Nat} {s : State} (h : Drawing d n s) :
    ∃ p f, pipelineDot s = .ok { s with pipe := p, fb := f } ∧ FifoAligned p ∧ FetcherLegal p ∧
      SpritesLegal { s with pipe := p, fb := f } ∧ OnGrid { s with pipe := p, fb := f } ∧
      dotsToGo { s with pipe := p, fb := f } = d - (n + 1) ∧
      (p.outputX < 160 → n + 1 + drawBudget { s with pipe := p, fb := f } ≤ 242) := by
  obtain ⟨-, -, hline, -, rfl, hsel, hlegal, hg, hgo⟩ := h
  obtain ⟨p, f, hp, hfifos, hfetcher, hsprites, -, hout, -, hbudget⟩ := pipelineDot_legal s hlegal hsel hline
  by_cases ho : s.pipe.outputX < 160
  · obtain ⟨hg', hgo'⟩ := pipelineDot_dotsToGo hlegal hsel hg hline ho hp
    refine ⟨p, f, hp, hfifos, hfetcher, hsprites, hg', by omega, fun _ => ?_⟩
    have := hbudget ho
    have := hlegal.budget ho
    omega
  · have ho' : s.pipe.outputX = 160 := by
      have := hlegal.fifos.push_le
      have := hlegal.fifos.bg_length
      simp only [screenW] at *
      omega
    have hdone := (dotsToGo_eq_zero_iff hlegal.fifos hlegal.fetcher hlegal.sprites hg).2 ho'
    have hsame : s = { s with pipe := p, fb := f } := Except.ok.inj ((if_pos ho').symm.trans hp)
    refine ⟨p, f, hp, hfifos, hfetcher, hsprites, hsame ▸ hg, ?_, fun h => absurd hout (by omega)⟩
    rw [← hsame]
    omega

/-- A dot of Draw carries Draw on, until 172 dots have passed and no pixel is to go: that dot ends Draw with HBlank
(R104). -/
theorem Drawing.dot {d n : Nat} {s : State} (h : Drawing d n s) (hn : n < 375) :
    ∃ t, dotStep s = .ok t ∧ t.engineOn = true ∧ t.lineDot = 80 + (n + 1) ∧
      if n + 1 < max 172 d then Drawing d (n + 1) t else t.mode = .hblank := by
  obtain ⟨p, f, hp, hfifos, hfetcher, hsprites, hg, hgo, hbudget⟩ := h.after_pipelineDot
  obtain ⟨hon, hmode, hline, hdot, hdots, hsel, -⟩ := h
  have hzero : d - (n + 1) = 0 ↔ p.outputX = 160 := by
    rw [← hgo]
    exact dotsToGo_eq_zero_iff hfifos hfetcher hsprites hg
  have hstep := dotStep_draw hon hmode (by omega) hp
  refine ⟨_, hstep, (dotStep_kept hstep).engineOn.trans hon, congrArg (· + 1) hdot, ?_⟩
  unfold endDrawIfDone
  simp only [screenW, drawMinDots, hdots]
  by_cases hmore : n + 1 < max 172 d
  · have hwait : p.outputX = 160 → n + 1 < 172 := by omega
    rw [if_pos hmore, if_neg (by omega)]
    obtain ⟨s1, s2, s3, s4, s5⟩ := hsprites
    obtain ⟨g1, g2, g3, g4⟩ := hg
    exact ⟨hon, hmode, hline, congrArg (· + 1) hdot, rfl, ⟨hsel.1, hsel.2⟩,
      ⟨hfifos, hfetcher, ⟨s1, s2, s3, s4, s5⟩, hbudget, hwait⟩,
      ⟨g1, g2, g3, g4⟩, hgo⟩
  · rw [if_neg hmore, if_pos (by omega), requestIf_eq]
    rfl

/-! ### Draw from its entry on -/

/-- The mode and the position on a visible line, `n` dots after Draw began: in Draw, or in HBlank after it. -/
def DrawnFor (d n : Nat) (s : State) : Prop :=
  s.engineOn = true ∧ s.lineDot = 80 + n ∧ if n < max 172 d then Drawing d n s else s.mode = .hblank

/-- From Draw entry to the end of the line each dot carries Draw on, or HBlank after it (R104, R105). -/
theorem runDots_drawnFor {d : Nat} {s : State} (h : Drawing d 0 s) {n : Nat} (hn : n < 376) :
    ∃ t, runDots n s = .ok t ∧ DrawnFor d n t := by
  induction n with
  | zero => exact ⟨s, rfl, h.on, h.lineDot, by rwa [if_pos (by omega)]⟩
  | succ n ih =>
    obtain ⟨t, ht, hon, hdot, hmode⟩ := ih (by omega)
    split at hmode
    · obtain ⟨u, hu, hdrawn⟩ := hmode.dot (by omega)
      exact ⟨u, runDots_snoc ht hu, hdrawn⟩
    · have hu : dotStep t = .ok { t with lineDot := t.lineDot + 1 } := by
        rw [dotStep_blank hon (.inl hmode) (by omega), endOfDot_inside (by omega)]
      exact ⟨_, runDots_snoc ht hu, hon, congrArg (· + 1) hdot, by rwa [if_neg (by omega)]⟩

/-- Draw entry makes a legal pipeline of any list of at most ten sprites (R103, R120). -/
theorem endOamScan_drawLegal {s : State} (hlen : s.sel.length ≤ 10) : DrawLegal (endOamScan s) := by
  have hperm := (sortSprites_perm s.sel).length_eq
  have hd := (s.scx.extractLsb' 0 3).isLt
  rw [endOamScan_eq]
  constructor
  case fifos => constructor <;> simp [Pipeline.reset]
  case fetcher => constructor <;> simp [Pipeline.reset, Pipeline.elapsed, Phase.index]
  case sprites =>
    constructor
    case sorted => exact (sortSprites_sorted s.sel).imp fun hab => by omega
    case not_missed => exact fun a _ => le_max_right _ _
    all_goals simp [Pipeline.reset]
  case budget =>
    intro _
    simp only [drawBudget, Pipeline.reset, Pipeline.elapsed, Phase.index, screenW, spriteFetchDots, reduceCtorEq,
      if_false]
    split_ifs <;> omega
  case waiting => simp [Pipeline.reset]

/-- Draw entry is the start of the line's first tile (R120). -/
theorem endOamScan_onGrid (s : State) : OnGrid (endOamScan s) := by
  rw [endOamScan_eq]
  exact ⟨fun _ _ => Nat.zero_le _, fun _ _ => .inl rfl, nofun, nofun⟩

/-- At Draw entry the dots to go are those of the background alone, six for each sprite on the screen, and the window's
delay (R184). -/
theorem endOamScan_dotsToGo (s : State) :
    dotsToGo (endOamScan s) =
      167 + s.scx.toNat % 8 + 6 * (if s.objEnable then s.sel.countP fun a => decide (a.x < 160) else 0) +
        (if windowDue s then 8 - (windowStart s + s.scx.toNat % 8) % 8 else 0) := by
  have hdiscard : (s.scx.extractLsb' 0 3).toNat = s.scx.toNat % 8 := by
    rw [BitVec.extractLsb'_toNat, Nat.shiftRight_zero]
  have htile : tileDots (endOamScan s).pipe = 167 + s.scx.toNat % 8 := by
    rw [endOamScan_eq, ← hdiscard]
    rfl
  have hfetch : fetchesToGo (endOamScan s) =
      if s.objEnable then s.sel.countP fun a => decide (a.x < 160) else 0 := by
    rw [← (sortSprites_perm s.sel).countP_eq, endOamScan_eq]
    rfl
  have hwin : windowDots (endOamScan s) =
      if windowDue s then 8 - (windowStart s + s.scx.toNat % 8) % 8 else 0 := by
    rw [← hdiscard, endOamScan_eq]
    cases hdue : windowDue s
    · exact if_neg fun h => by cases hdue.symm.trans h.2
    · exact if_pos ⟨rfl, hdue⟩
  rw [dotsToGo, htile, hfetch, hwin, endOamScan_eq]
  exact congrArg (· + _ + _) (Nat.zero_add _)

/-- The record of a table entry is in the ranges of R30. -/
theorem oamEntry_legal (s : State) {i : Nat} (hi : i < 40) : (oamEntry s i).Legal := by
  have hy := (Memory.read s.oam (4 * i)).isLt
  have hx := (Memory.read s.oam (4 * i + 1)).isLt
  unfold oamEntry spriteOf
  constructor
  case height_eq =>
    simp only [State.objHeight]
    split
    · exact .inr rfl
    · exact .inl rfl
  case oam_lt => exact hi
  all_goals
    simp only
    omega

/-- The sprites of a line are at most ten, their records in range (R115, R116). -/
theorem qualifying_legal (s : State) : (qualifying s).length ≤ 10 ∧ ∀ a ∈ qualifying s, a.Legal := by
  refine ⟨List.length_take_le _ _, fun a ha => ?_⟩
  obtain ⟨i, hi, rfl⟩ := List.mem_map.1 (List.mem_of_mem_filter (List.mem_of_mem_take ha))
  exact oamEntry_legal s (List.mem_range.1 hi)

/-- The window latch taken at the line start stays through the scan (R100). -/
theorem runDots_scan_latch {s : State} (hon : s.engineOn = true) (hdot : s.lineDot = 0) (hly : s.ly.toNat < 144)
    {n : Nat} (hn : n < 80) {t : State} (ht : runDots n s = .ok t) :
    (lineStartIfDue t).winLineOk = (s.winEnable && decide (s.wy.toNat ≤ s.ly.toNat)) := by
  induction n generalizing t with
  | zero =>
    cases ht
    have hstart : lineStartIfDue s = lineStart s := if_pos hdot
    rw [hstart, lineStart_visible hly, enterOamScan_eq, lycCompare_eq]
    rfl
  | succ n ih =>
    obtain ⟨t', ht', hton, rfl, hscan⟩ := runDots_scanning hon hdot hly (n := n) (by omega)
    obtain ⟨u, hu, -⟩ := hscan.scanDot (by omega)
    have hstep := dotStep_scan hton (by omega) hscan.mode hu
    rw [if_neg (by omega)] at hstep
    cases (runDots_snoc ht' hstep).symm.trans ht
    rw [lineStartIfDue_inside (Nat.succ_ne_zero _), ← ih (by omega) ht']
    obtain ⟨y, x, l, rfl⟩ := oamScanDot_scanner hu
    rfl

/-- From the start of a visible line 80 dots lead to Draw entry, with the line's sprites selected and its window latch
taken (R100, R103, R116). -/
theorem runDots_drawEntry {s : State} (hon : s.engineOn = true) (hdot : s.lineDot = 0) (hly : s.ly.toNat < 144) :
    ∃ u, runDots 80 s = .ok (endOamScan u) ∧ u.lineDot = 80 ∧ u.ly = s.ly ∧ u.sel = qualifying s ∧
      u.winLineOk = (s.winEnable && decide (s.wy.toNat ≤ s.ly.toNat)) := by
  obtain ⟨t, ht, hton, hlast, hscan⟩ := runDots_scanning hon hdot hly (n := 79) (by omega)
  have hlatch := runDots_scan_latch hon hdot hly (by omega) ht
  rw [lineStartIfDue_inside (by omega)] at hscan hlatch
  obtain ⟨u, hu, hscan'⟩ := hscan.scanDot (by omega)
  refine ⟨{ u with lineDot := 80 }, runDots_snoc ht (dotStep_scan_last hton hscan.mode hlast hu), rfl, hscan'.ly,
    hscan'.sel, ?_⟩
  obtain ⟨y, x, l, rfl⟩ := oamScanDot_scanner hu
  exact hlatch

/-- The formula of R184: the dots of Draw to the last pixel of the line that `s` stands at the start of. -/
def lineLength (s : State) : Nat :=
  167 + s.scx.toNat % 8 +
    6 * (if s.lcdc.getLsbD 1 then ((qualifying s).filter fun a => decide (a.x < 160)).length else 0) +
    if s.lcdc.getLsbD 5 = true ∧ s.wy.toNat ≤ s.ly.toNat ∧ s.wx.toNat < 167 then
      8 - (s.wx.toNat - 7 + s.scx.toNat % 8) % 8 else 0

/-- Draw of a visible line begins after 80 dots, with the dots of R184's formula to go. -/
theorem runDots_drawing {s : State} (hon : s.engineOn = true) (hdot : s.lineDot = 0) (hly : s.ly.toNat < 144) :
    ∃ t, runDots 80 s = .ok t ∧ t.ly = s.ly ∧ Drawing (lineLength s) 0 t := by
  obtain ⟨u, hu, hlast, hly', hsel, hlatch⟩ := runDots_drawEntry hon hdot hly
  have hkept := runDots_kept hu
  have hlcdc : u.lcdc = s.lcdc := hkept.lcdc
  have hscx : u.scx = s.scx := hkept.scx
  have hwx : u.wx = s.wx := hkept.wx
  obtain ⟨hlen, hrecords⟩ := qualifying_legal s
  have hperm : (sortSprites u.sel).Perm (qualifying s) := hsel ▸ sortSprites_perm u.sel
  have hdue : windowDue u = true ↔
      s.lcdc.getLsbD 5 = true ∧ s.wy.toNat ≤ s.ly.toNat ∧ s.wx.toNat < 167 := by
    simp only [windowDue, windowStart, hlatch, hwx, State.winEnable, hlcdc, Bool.and_eq_true, decide_eq_true_eq]
    constructor
    · rintro ⟨⟨hen, -, hwy⟩, hx⟩
      exact ⟨hen, hwy, by omega⟩
    · rintro ⟨hen, hwy, hx⟩
      exact ⟨⟨hen, hen, hwy⟩, by omega⟩
  refine ⟨_, hu, hly', ?_⟩
  constructor
  case on => exact hkept.engineOn.trans hon
  case mode => rfl
  case line => exact hly' ▸ hly
  case lineDot => exact hlast
  case drawDots => rfl
  case sel => exact ⟨hperm.length_eq.trans_le hlen, fun a ha => hrecords a (hperm.subset ha)⟩
  case legal => exact endOamScan_drawLegal (hsel ▸ hlen)
  case grid => exact endOamScan_onGrid u
  case toGo =>
    rw [endOamScan_dotsToGo, hsel, List.countP_eq_length_filter, State.objEnable, windowStart, hlcdc, hscx, hwx]
    simp only [hdue]
    rfl

/-- Settles O35: every dot of Draw lowers the count of the dots to go by one, Draw ends with the dot, from the 172nd on,
that finds none to go, and at Draw entry the count is the formula. -/
theorem drawLengthWithSprites : Obligations.DrawLengthWithSprites := by
  intro s hon hdot hly d k w n hn
  obtain ⟨t, ht, -, hdraw⟩ := runDots_drawing hon hdot hly
  obtain ⟨u, hu, -, -, hmode⟩ := runDots_drawnFor hdraw hn
  refine ⟨u, by rw [runDots_add, ht]; exact hu, ?_⟩
  show u.mode = if n < max 172 (lineLength s) then .draw else .hblank
  split at hmode
  case isTrue hlt => rw [if_pos hlt, hmode.mode]
  case isFalse hge => rw [if_neg hge, hmode]

end Sys2Proof.Machine
end

section
/-! PROOFS. The first frame after the enable (spec/70_reset_and_hazards.md R175; O36): the position in the frame after a
run of dots, the one dot of a frame that hands a frame over, and the first dot of line 0. -/

namespace Sys2Proof.Machine

/-! ### The hand-off -/

/-- No mode handler hands a frame over (R103, R104, R105). -/
theorem modeDot_presented {s t : State} (h : modeDot s = .ok t) : t.presented = s.presented := by
  unfold modeDot at h
  split at h
  case h_1 =>
    obtain ⟨u, hu, h⟩ := bind_eq_ok h
    obtain ⟨y, x, l, rfl⟩ := oamScanDot_scanner hu
    cases h
    split
    · rw [endOamScan_eq]
    · rfl
  case h_2 =>
    obtain ⟨u, hu, h⟩ := bind_eq_ok h
    obtain ⟨p, f, rfl, _⟩ := pipelineDot_frame hu
    cases h
    unfold endDrawIfDone
    split
    · rw [requestIf_eq]
      rfl
    · rfl
  all_goals
    cases h
    rfl

/-- The end of a dot hands no frame over (R106, R108). -/
theorem endOfDot_presented {s t : State} (h : endOfDot s = .ok t) : t.presented = s.presented := by
  unfold endOfDot at h
  split at h
  · split at h
    · cases h
    · cases h
      obtain ⟨ly, w, hend⟩ := endOfLine_frame { s with lineDot := 0 }
      rw [hend]
  · cases h
    rfl

/-- Only the first dot of line 144 hands a frame over (R102). -/
theorem dotStep_presented {s t : State} (h : dotStep s = .ok t) (hpos : s.lineDot = 0 → s.ly.toNat ≠ 144) :
    t.presented = s.presented := by
  unfold dotStep at h
  split at h
  · obtain ⟨u, hu, h⟩ := bind_eq_ok h
    have hstart : (lineStartIfDue s).presented = s.presented := by
      unfold lineStartIfDue
      split
      case isTrue hdot =>
        obtain hly | hly := Nat.lt_or_gt_of_ne (hpos hdot)
        · rw [lineStart_visible hly, enterOamScan_eq, lycCompare_eq]
        · rw [lineStart_later hly, lycCompare_eq]
      case isFalse => rfl
    rw [endOfDot_presented h, modeDot_presented hu, hstart]
  · cases h
    rfl

/-- A run of dots that does not run the first dot of line 144 hands no frame over (R102, R110). -/
theorem runDots_presented {n : Nat} {s t : State} (hinv : Inv s) (hon : s.engineOn = true)
    (hpos : ∀ k < n, (framePos s + k) % dotsPerFrame ≠ 65664) (h : runDots n s = .ok t) :
    t.presented = s.presented := by
  induction n generalizing t with
  | zero =>
    cases h
    rfl
  | succ n ih =>
    obtain ⟨u, hu, huinv, huon, hupos⟩ := runDots_spec n hinv hon
    obtain ⟨v, hv, -⟩ := dotStep_spec huinv huon
    cases (runDots_snoc hu hv).symm.trans h
    have hne := hpos n (Nat.lt_succ_self n)
    rw [← hupos] at hne
    rw [dotStep_presented hv fun hdot hly => hne (by simp [framePos, hdot, hly]), ih (fun k hk => hpos k (by omega)) hu]

/-- The first dot of line 144 begins VBlank, requests it and hands the frame over (R102). -/
theorem dotStep_vblank {s : State} (hon : s.engineOn = true) (hdot : s.lineDot = 0) (hly : s.ly.toNat = 144) :
    ∃ t, dotStep s = .ok t ∧ t.mode = .vblank ∧ t.presented = t.fb :: s.presented ∧ t.iflag.getLsbD 0 = true := by
  have hstart : lineStartIfDue s = enterVblank (lycCompare s) := (if_pos hdot).trans (lineStart_144 hly)
  have hmode : (enterVblank (lycCompare s)).mode = .vblank := by rw [enterVblank_eq]
  have hlast : (enterVblank (lycCompare s)).lineDot ≠ 455 := by
    rw [enterVblank_eq, lycCompare_eq]
    simp [hdot]
  have hstep : dotStep s = .ok { enterVblank (lycCompare s) with
      lineDot := (enterVblank (lycCompare s)).lineDot + 1 } := by
    rw [dotStep, if_pos hon, hstart, modeDot_blank (.inr hmode)]
    exact endOfDot_inside hlast
  refine ⟨_, hstep, ?_⟩
  rw [enterVblank_eq, lycCompare_eq]
  refine ⟨rfl, rfl, ?_⟩
  simp only
  split <;> simp

/-- The first dot of a visible line begins OAM scan, takes the LYC flag and requests what its enable lets through (R99,
R100). -/
theorem dotStep_lineStart {s : State} (hon : s.engineOn = true) (hdot : s.lineDot = 0) (hly : s.ly.toNat < 144) :
    ∃ t, dotStep s = .ok t ∧ t.ly = s.ly ∧ t.lineDot = 1 ∧ t.mode = .oamScan ∧
      t.statLycFlag = decide (s.ly = s.lyc) ∧ (s.statOamInt = true → t.iflag.getLsbD 1 = true) := by
  have hstart : lineStartIfDue s = enterOamScan (lycCompare s) := (if_pos hdot).trans (lineStart_visible hly)
  have hscan : (lineStartIfDue s).mode = .oamScan := by rw [hstart, enterOamScan_eq]
  have hstep := dotStep_scan hon (by omega) hscan (by rw [hdot]; exact oamScanDot_even (i := 0) (by omega) _)
  rw [if_neg (by omega), hstart, hdot, enterOamScan_eq, lycCompare_eq] at hstep
  refine ⟨_, hstep, rfl, rfl, rfl, rfl, fun hoam => ?_⟩
  simp [hoam]

/-! ### The frame from the enable on -/

theorem dotsPerFrame_eq : dotsPerFrame = 70224 := rfl

/-- From the start of line 0 a run shorter than a frame ends as many dots into it (R109, R110). -/
theorem runDots_line {s : State} (hinv : Inv s) (hon : s.engineOn = true) (hstart : framePos s = 0) {n : Nat}
    (hn : n < 70224) :
    ∃ t, runDots n s = .ok t ∧ t.engineOn = true ∧ t.ly.toNat = n / 456 ∧ t.lineDot = n % 456 := by
  obtain ⟨t, ht, htinv, hton, hpos⟩ := runDots_spec n hinv hon
  have hlt := htinv.dot_lt
  rw [hstart, dotsPerFrame_eq] at hpos
  simp only [framePos, dotsPerLine] at hpos hlt
  exact ⟨t, ht, hton, by omega, by omega⟩

/-- From the start of line 0 no dot before dot 65664 hands a frame over, and that dot does, in VBlank (R102, R110). -/
theorem runDots_handOff {s : State} (hinv : Inv s) (hon : s.engineOn = true) (hstart : framePos s = 0) :
    ∃ a b, runDots 65664 s = .ok a ∧ a.presented = s.presented ∧ dotStep a = .ok b ∧ b.mode = .vblank ∧
      b.presented = b.fb :: s.presented ∧ b.iflag.getLsbD 0 = true := by
  obtain ⟨a, ha, haon, hly, hdot⟩ := runDots_line hinv hon hstart (n := 65664) (by omega)
  have hbefore : a.presented = s.presented :=
    runDots_presented hinv hon (fun k hk => by rw [hstart, dotsPerFrame_eq]; omega) ha
  obtain ⟨b, hb, hmode, hafter, hflag⟩ := dotStep_vblank haon hdot hly
  exact ⟨a, b, ha, hbefore, hb, hmode, hbefore ▸ hafter, hflag⟩

/-- The rest of the M-cycle of dot 65664 hands no second frame over (R102). -/
theorem runDots_handOff_mcycle {s : State} (hinv : Inv s) (hon : s.engineOn = true) (hstart : framePos s = 0) :
    ∃ t, runDots 65668 s = .ok t ∧ t.presented.length = s.presented.length + 1 := by
  obtain ⟨a, b, ha, -, hb, -, hafter, -⟩ := runDots_handOff hinv hon hstart
  obtain ⟨b', hb', hbinv, hbon, hpos⟩ := runDots_spec 65665 hinv hon
  cases (runDots_snoc ha hb).symm.trans hb'
  obtain ⟨t, ht, -⟩ := runDots_spec 3 hbinv hbon
  have hsame : t.presented = b.presented :=
    runDots_presented hbinv hbon (fun k hk => by rw [hpos, hstart, dotsPerFrame_eq]; omega) ht
  refine ⟨t, ?_, by rw [hsame, hafter, List.length_cons]⟩
  rw [show 65668 = 65665 + 3 from rfl, runDots_add, hb']
  exact ht

/-- From the start of line 0 a frame of dots leads back there (R110). -/
theorem runDots_frame {s : State} (hinv : Inv s) (hon : s.engineOn = true) (hstart : framePos s = 0) :
    ∃ t, runDots 70224 s = .ok t ∧ t.ly = 0 ∧ t.lineDot = 0 := by
  obtain ⟨t, ht, -, -, hpos⟩ := runDots_spec 70224 hinv hon
  rw [hstart, dotsPerFrame_eq] at hpos
  simp only [framePos, dotsPerLine] at hpos
  exact ⟨t, ht, BitVec.eq_of_toNat_eq (by simp only [BitVec.ofNat_eq_ofNat, BitVec.toNat_ofNat]; omega), by omega⟩

/-- A Tick where no byte stands returned is the run of its dots (R97). -/
theorem exec_tick_of_runDots {m : Nat} {s t : State} (hret : s.returned = none) (h : runDots (4 * m) s = .ok t) :
    exec (.tick m) s = .next t := by
  have hsame : returnNothing s = s := by
    unfold returnNothing
    rw [← hret]
  show outcomeOf (runDots (4 * m) (returnNothing s)) = _
  rw [hsame, h]
  rfl

/-- Settles O36: the enable leaves the block at position 0 of a frame, so that the position after each run is the count
of its dots; Draw of line 0 follows its scan, and the frame is handed over at the one position that does so. -/
theorem firstFrameAfterEnable : Obligations.FirstFrameAfterEnable := by
  intro s t v h hoff hv ht
  rw [exec_wrLcdc_enable (h.engine.follows.symm.trans hoff) hv] at ht
  cases ht
  have hinv := lcdEnable_inv h hoff hv
  have hdot : (lcdEnable (returnNothing { s with lcdc := v })).lineDot = 0 := rfl
  have hly : (lcdEnable (returnNothing { s with lcdc := v })).ly.toNat < 144 := Nat.zero_lt_succ 143
  have hpos : framePos (lcdEnable (returnNothing { s with lcdc := v })) = 0 := by simp [framePos]
  obtain ⟨a, b, ha, hbefore, hb, hmode, hafter, hflag⟩ := runDots_handOff hinv rfl hpos
  refine ⟨?_, ?_, fun n hn => ?_, ⟨a, b, ha, hbefore, hb, hmode, hafter, hflag⟩, ?_, ?_,
    runDots_frame hinv rfl hpos⟩
  · obtain ⟨c, hc, hly', hdot', hscan, hlyc, hoam⟩ := dotStep_lineStart rfl hdot hly
    exact ⟨c, hc, hly', hdot', hscan, hlyc.trans (decide_eq_decide.2 eq_comm), hoam⟩
  · obtain ⟨c, hc, hly', hdraw⟩ := runDots_drawing rfl hdot hly
    exact ⟨c, hc, hly', hdraw.lineDot, hdraw.mode, hdraw.drawDots⟩
  · obtain ⟨c, hc, -, hly', hdot'⟩ := runDots_line hinv rfl hpos (n := 456 * n) (by omega)
    exact ⟨c, hc, by omega, by omega⟩
  · exact ⟨a, exec_tick_of_runDots (m := 16416) rfl ha, hbefore⟩
  · obtain ⟨c, hc, hlen⟩ := runDots_handOff_mcycle hinv rfl hpos
    exact ⟨c, exec_tick_of_runDots (m := 16417) rfl hc, hlen⟩

end Sys2Proof.Machine
end

section
/-! PROOFS. The host-operation word (spec/30_encoding.md): the decoder as one equivalence with the three kinds of word
that have a meaning (O1 to O3), the words without one (O4), the address map (O5), and the step on a word (O6). -/

namespace Sys2Proof

/-! ### The kinds of operation -/

/-- Every operation is a read, a write or a Tick (R58). -/
theorem Instr.kinds (i : Instr) : (∃ r, i = .rd r) ∨ (∃ r v, i = .wr r v) ∨ ∃ m, i = .tick m := by
  cases i with
  | rdLcdc => exact .inl ⟨.lcdc, rfl⟩
  | rdStat => exact .inl ⟨.stat, rfl⟩
  | rdScy => exact .inl ⟨.scy, rfl⟩
  | rdScx => exact .inl ⟨.scx, rfl⟩
  | rdLy => exact .inl ⟨.ly, rfl⟩
  | rdLyc => exact .inl ⟨.lyc, rfl⟩
  | rdBgp => exact .inl ⟨.bgp, rfl⟩
  | rdObp0 => exact .inl ⟨.obp0, rfl⟩
  | rdObp1 => exact .inl ⟨.obp1, rfl⟩
  | rdWy => exact .inl ⟨.wy, rfl⟩
  | rdWx => exact .inl ⟨.wx, rfl⟩
  | wrLcdc v => exact .inr (.inl ⟨.lcdc, v, rfl⟩)
  | wrStat v => exact .inr (.inl ⟨.stat, v, rfl⟩)
  | wrScy v => exact .inr (.inl ⟨.scy, v, rfl⟩)
  | wrScx v => exact .inr (.inl ⟨.scx, v, rfl⟩)
  | wrLy v => exact .inr (.inl ⟨.ly, v, rfl⟩)
  | wrLyc v => exact .inr (.inl ⟨.lyc, v, rfl⟩)
  | wrBgp v => exact .inr (.inl ⟨.bgp, v, rfl⟩)
  | wrObp0 v => exact .inr (.inl ⟨.obp0, v, rfl⟩)
  | wrObp1 v => exact .inr (.inl ⟨.obp1, v, rfl⟩)
  | wrWy v => exact .inr (.inl ⟨.wy, v, rfl⟩)
  | wrWx v => exact .inr (.inl ⟨.wx, v, rfl⟩)
  | tick m => exact .inr (.inr ⟨m, rfl⟩)

theorem Instr.rd_injective {r r' : Reg} (h : Instr.rd r = .rd r') : r = r' := by
  cases r <;> cases r' <;> trivial

theorem Instr.wr_injective {r r' : Reg} {v v' : Byte} (h : Instr.wr r v = .wr r' v') : r = r' ∧ v = v' := by
  cases r <;> cases r' <;> cases h <;> exact ⟨rfl, rfl⟩

@[simp] theorem Instr.rd_ne_wr {r r' : Reg} {v : Byte} : Instr.rd r ≠ .wr r' v := by
  cases r <;> cases r' <;> nofun

@[simp] theorem Instr.rd_ne_tick {r : Reg} {m : Nat} : Instr.rd r ≠ .tick m := by cases r <;> nofun

@[simp] theorem Instr.wr_ne_tick {r : Reg} {v : Byte} {m : Nat} : Instr.wr r v ≠ .tick m := by cases r <;> nofun

@[simp] theorem Instr.wellFormed_rd (r : Reg) : (Instr.rd r).wellFormed = true := by cases r <;> rfl

@[simp] theorem Instr.wellFormed_wr (r : Reg) (v : Byte) : (Instr.wr r v).wellFormed = true := by cases r <;> rfl

theorem Instr.wellFormed_tick {m : Nat} : (Instr.tick m).wellFormed = true ↔ m ≤ 255 := decide_eq_true_iff

/-! ### The decoder -/

/-- Which words decode, and to what, by their fields (R59, R70). -/
theorem decode_eq_ok_iff {w : HostWord} {i : Instr} :
    decode w = .ok i ↔
      (HostWord.op w = 0 ∧ HostWord.data w = 0 ∧ ∃ r : Reg, HostWord.addr w = r.addr ∧ i = .rd r) ∨
      (HostWord.op w = 1 ∧ ∃ r : Reg, HostWord.addr w = r.addr ∧ i = .wr r (HostWord.data w)) ∨
      (HostWord.op w = 2 ∧ HostWord.addr w = 0 ∧ i = .tick (HostWord.data w).toNat) := by
  constructor
  · intro h
    unfold decode at h
    split at h
    case h_1 hop =>
      split at h
      case h_1 r hr =>
        split at h
        case isTrue hdata =>
          cases h
          exact .inl ⟨BitVec.eq_of_toNat_eq hop, hdata, r, (addr_of_ofAddr hr).symm, rfl⟩
        case isFalse => cases h
      case h_2 => cases h
    case h_2 hop =>
      split at h
      case h_1 r hr =>
        cases h
        exact .inr (.inl ⟨BitVec.eq_of_toNat_eq hop, r, (addr_of_ofAddr hr).symm, rfl⟩)
      case h_2 => cases h
    case h_3 hop =>
      split at h
      case isTrue haddr =>
        cases h
        exact .inr (.inr ⟨BitVec.eq_of_toNat_eq hop, haddr, rfl⟩)
      case isFalse => cases h
    case h_4 => cases h
  · rintro (⟨hop, hdata, r, haddr, rfl⟩ | ⟨hop, r, haddr, rfl⟩ | ⟨hop, haddr, rfl⟩)
    · simp [decode, hop, hdata, haddr]
    · simp [decode, hop, haddr]
    · simp [decode, hop, haddr]

theorem decode_encodeRd (r : Reg) : decode (encodeRd r) = .ok (.rd r) :=
  decode_eq_ok_iff.2 (.inl (by simpa [encodeRd] using ⟨r, rfl, rfl⟩))

theorem decode_encodeWr (r : Reg) (v : Byte) : decode (encodeWr r v) = .ok (.wr r v) :=
  decode_eq_ok_iff.2 (.inr (.inl (by simpa [encodeWr] using ⟨r, rfl, rfl⟩)))

theorem decode_encode_tick {m : Nat} (hm : m ≤ 255) : decode (encode (.tick m)) = .ok (.tick m) := by
  have hm' : m % 256 = m := Nat.mod_eq_of_lt (by omega)
  exact decode_eq_ok_iff.2 (.inr (.inr (by simp [encode, hm'])))

/-- Settles O1: the word of each kind of operation has the fields from which the decoder reads it. -/
theorem decodeOfEncode : Obligations.DecodeOfEncode := by
  intro i hi
  obtain ⟨r, rfl⟩ | ⟨r, v, rfl⟩ | ⟨m, rfl⟩ := i.kinds
  · rw [encode_rd]
    exact decode_encodeRd r
  · rw [encode_wr]
    exact decode_encodeWr r v
  · exact decode_encode_tick (Instr.wellFormed_tick.1 hi)

theorem ofFields_of_fields {w : HostWord} {o : BitVec 2} {a : Addr} {d : Byte} (ho : HostWord.op w = o)
    (ha : HostWord.addr w = a) (hd : HostWord.data w = d) : HostWord.ofFields o a d = w := by
  rw [← ho, ← ha, ← hd, ofFields_fields]

/-- Settles O2: the word is made of the three fields that the decoder has read. -/
theorem encodeOfDecode : Obligations.EncodeOfDecode := by
  intro w i h
  obtain ⟨hop, hdata, r, haddr, rfl⟩ | ⟨hop, r, haddr, rfl⟩ | ⟨hop, haddr, rfl⟩ := decode_eq_ok_iff.1 h
  · refine ⟨Instr.wellFormed_rd r, ?_⟩
    rw [encode_rd]
    exact ofFields_of_fields hop haddr hdata
  · refine ⟨Instr.wellFormed_wr r _, ?_⟩
    rw [encode_wr]
    exact ofFields_of_fields hop haddr rfl
  · refine ⟨Instr.wellFormed_tick.2 (Nat.le_of_lt_succ (HostWord.data w).isLt), ?_⟩
    rw [encode, BitVec.ofNat_toNat, BitVec.setWidth_eq]
    exact ofFields_of_fields hop haddr rfl

/-! ### The fields as numbers -/

theorem op_eq_iff {w : HostWord} {k : Nat} (hk : k < 4) :
    HostWord.op w = BitVec.ofNat 2 k ↔ w.toNat / 2 ^ 24 = k := by
  have hw := w.isLt
  rw [← BitVec.toNat_inj, HostWord.op, BitVec.extractLsb'_toNat, BitVec.toNat_ofNat, Nat.shiftRight_eq_div_pow]
  omega

theorem addr_toNat (w : HostWord) : (HostWord.addr w).toNat = w.toNat / 2 ^ 8 % 2 ^ 16 := by
  rw [HostWord.addr, BitVec.extractLsb'_toNat, Nat.shiftRight_eq_div_pow]

theorem data_toNat (w : HostWord) : (HostWord.data w).toNat = w.toNat % 2 ^ 8 := by
  rw [HostWord.data, BitVec.extractLsb'_toNat, Nat.shiftRight_zero]

theorem addr_eq_iff {w : HostWord} {a : Addr} : HostWord.addr w = a ↔ w.toNat / 2 ^ 8 % 2 ^ 16 = a.toNat := by
  rw [← addr_toNat, BitVec.toNat_inj]

theorem data_eq_zero_iff {w : HostWord} : HostWord.data w = 0 ↔ w.toNat % 2 ^ 8 = 0 := by
  rw [← data_toNat, ← BitVec.toNat_inj]
  rfl

/-- The words of Ticks (R58, R70). -/
theorem decode_tick_iff {w : HostWord} {m : Nat} :
    decode w = .ok (.tick m) ↔ HostWord.op w = 2 ∧ HostWord.addr w = 0 ∧ m = (HostWord.data w).toNat := by
  rw [decode_eq_ok_iff]
  constructor
  · rintro (⟨-, -, r, -, h⟩ | ⟨-, r, -, h⟩ | ⟨hop, haddr, h⟩)
    · exact absurd h.symm Instr.rd_ne_tick
    · exact absurd h.symm Instr.wr_ne_tick
    · exact ⟨hop, haddr, Instr.tick.inj h⟩
  · rintro ⟨hop, haddr, rfl⟩
    exact .inr (.inr ⟨hop, haddr, rfl⟩)

/-- The words of reads (R59, R70). -/
theorem decode_rd_iff {w : HostWord} {r : Reg} :
    decode w = .ok (.rd r) ↔ HostWord.op w = 0 ∧ HostWord.addr w = r.addr ∧ HostWord.data w = 0 := by
  rw [decode_eq_ok_iff]
  constructor
  · rintro (⟨hop, hdata, r', haddr, h⟩ | ⟨-, r', -, h⟩ | ⟨-, -, h⟩)
    · exact ⟨hop, Instr.rd_injective h ▸ haddr, hdata⟩
    · exact absurd h Instr.rd_ne_wr
    · exact absurd h Instr.rd_ne_tick
  · rintro ⟨hop, haddr, hdata⟩
    exact .inl ⟨hop, hdata, r, haddr, rfl⟩

/-- The words of writes (R59, R70). -/
theorem decode_wr_iff {w : HostWord} {r : Reg} {v : Byte} :
    decode w = .ok (.wr r v) ↔ HostWord.op w = 1 ∧ HostWord.addr w = r.addr ∧ v = HostWord.data w := by
  rw [decode_eq_ok_iff]
  constructor
  · rintro (⟨-, -, r', -, h⟩ | ⟨hop, r', haddr, h⟩ | ⟨-, -, h⟩)
    · exact absurd h.symm Instr.rd_ne_wr
    · obtain ⟨rfl, hv⟩ := Instr.wr_injective h
      exact ⟨hop, haddr, hv⟩
    · exact absurd h Instr.wr_ne_tick
  · rintro ⟨hop, haddr, rfl⟩
    exact .inr (.inl ⟨hop, r, haddr, rfl⟩)

/-! ### The opcode table -/

theorem rowMask_rd (r : Reg) : (Instr.rd r).rowMask = BitVec.allOnes 26 := by cases r <;> rfl

theorem rowMask_wr (r : Reg) (v : Byte) :
    (Instr.wr r v).rowMask = HostWord.ofFields (BitVec.allOnes 2) (BitVec.allOnes 16) 0 := by
  cases r <;> rfl

theorem rowMask_tick (m : Nat) :
    (Instr.tick m).rowMask = HostWord.ofFields (BitVec.allOnes 2) (BitVec.allOnes 16) 0 := rfl

theorem rowMatch_rd (r : Reg) : (Instr.rd r).rowMatch = encodeRd r := by cases r <;> rfl

theorem rowMatch_wr (r : Reg) (v : Byte) : (Instr.wr r v).rowMatch = encodeWr r 0 := by cases r <;> rfl

theorem rowMatch_tick (m : Nat) : (Instr.tick m).rowMatch = HostWord.ofFields 2 0 0 := rfl

theorem ofFields_inj {o o' : BitVec 2} {a a' : Addr} {d d' : Byte} :
    HostWord.ofFields o a d = HostWord.ofFields o' a' d' ↔ o = o' ∧ a = a' ∧ d = d' := by
  refine ⟨fun h => ⟨?_, ?_, ?_⟩, fun ⟨ho, ha, hd⟩ => by rw [ho, ha, hd]⟩
  · simpa using congrArg HostWord.op h
  · simpa using congrArg HostWord.addr h
  · simpa using congrArg HostWord.data h

/-- The mask of the writes and of Tick clears `data` (R70). -/
theorem and_dataMask (w : HostWord) :
    w &&& HostWord.ofFields (BitVec.allOnes 2) (BitVec.allOnes 16) 0 =
      HostWord.ofFields (HostWord.op w) (HostWord.addr w) 0 := by
  conv_lhs => rw [← ofFields_fields w]
  unfold HostWord.ofFields
  rw [BitVec.and_append, BitVec.and_append, BitVec.and_allOnes, BitVec.and_allOnes]
  simp

theorem matches_rd_iff {w : HostWord} {r : Reg} :
    w &&& (Instr.rd r).rowMask = (Instr.rd r).rowMatch ↔ decode w = .ok (.rd r) := by
  rw [rowMask_rd, rowMatch_rd, BitVec.and_allOnes, decode_rd_iff, encodeRd]
  conv_lhs => rw [← ofFields_fields w]
  exact ofFields_inj

theorem matches_wr_iff {w : HostWord} {r : Reg} {v : Byte} :
    w &&& (Instr.wr r v).rowMask = (Instr.wr r v).rowMatch ↔ decode w = .ok (.wr r (HostWord.data w)) := by
  rw [rowMask_wr, rowMatch_wr, and_dataMask, decode_wr_iff, encodeWr, ofFields_inj]
  simp

theorem matches_tick_iff {w : HostWord} {m : Nat} :
    w &&& (Instr.tick m).rowMask = (Instr.tick m).rowMatch ↔ decode w = .ok (.tick (HostWord.data w).toNat) := by
  rw [rowMask_tick, rowMatch_tick, and_dataMask, decode_tick_iff, ofFields_inj]
  simp

/-- A word that decodes matches the row of its operation (R70). -/
theorem matches_of_decode {w : HostWord} {i : Instr} (h : decode w = .ok i) : w &&& i.rowMask = i.rowMatch := by
  obtain ⟨r, rfl⟩ | ⟨r, v, rfl⟩ | ⟨m, rfl⟩ := i.kinds
  · exact matches_rd_iff.2 h
  · obtain ⟨-, -, rfl⟩ := decode_wr_iff.1 h
    exact matches_wr_iff.2 h
  · obtain ⟨-, -, rfl⟩ := decode_tick_iff.1 h
    exact matches_tick_iff.2 h

/-- A word that matches a row decodes to an operation of that row (R70). -/
theorem decode_of_matches {w : HostWord} {i : Instr} (h : w &&& i.rowMask = i.rowMatch) :
    ∃ j, decode w = .ok j ∧ j.rowMask = i.rowMask ∧ j.rowMatch = i.rowMatch := by
  obtain ⟨r, rfl⟩ | ⟨r, v, rfl⟩ | ⟨m, rfl⟩ := i.kinds
  · exact ⟨_, matches_rd_iff.1 h, rfl, rfl⟩
  · refine ⟨_, matches_wr_iff.1 h, ?_, ?_⟩
    · rw [rowMask_wr, rowMask_wr]
    · rw [rowMatch_wr, rowMatch_wr]
  · exact ⟨_, matches_tick_iff.1 h, rfl, rfl⟩

/-- Settles O3: the conditions on the fields are conditions on the digits of the word, and the rows of the table are
conditions on the fields. -/
theorem decodeReadsFieldsAndRows : Obligations.DecodeReadsFieldsAndRows := by
  refine ⟨fun w m => ?_, fun w r => ?_, fun w r v => ?_, fun _ _ => matches_of_decode, fun _ _ => decode_of_matches⟩
  · rw [decode_tick_iff, ← data_toNat]
    exact and_congr (op_eq_iff (k := 2) (by omega)) (and_congr addr_eq_iff Iff.rfl)
  · rw [decode_rd_iff]
    exact and_congr (op_eq_iff (k := 0) (by omega)) (and_congr addr_eq_iff data_eq_zero_iff)
  · rw [decode_wr_iff, ← data_toNat, BitVec.toNat_inj]
    exact and_congr (op_eq_iff (k := 1) (by omega)) (and_congr addr_eq_iff Iff.rfl)

/-! ### The words without a meaning -/

/-- A word that is the word of nothing is refused (R60). -/
theorem decode_error_of_ne_ok {w : HostWord} (h : ∀ i, decode w ≠ .ok i) : ∃ e, decode w = .error e := by
  cases hw : decode w with
  | ok i => exact absurd hw (h i)
  | error e => exact ⟨e, rfl⟩

/-- The eleven addresses (R59). -/
theorem addr_toNat_mem (r : Reg) :
    r.addr.toNat ∈ [0xFF40, 0xFF41, 0xFF42, 0xFF43, 0xFF44, 0xFF45, 0xFF47, 0xFF48, 0xFF49, 0xFF4A, 0xFF4B] := by
  cases r <;> decide

/-- What a word that decodes has in its fields, as numbers (R59, R60). -/
theorem fields_of_decode {w : HostWord} {i : Instr} (h : decode w = .ok i) :
    (w.toNat / 2 ^ 24 = 0 ∧ w.toNat % 2 ^ 8 = 0 ∧ ∃ r : Reg, w.toNat / 2 ^ 8 % 2 ^ 16 = r.addr.toNat) ∨
      (w.toNat / 2 ^ 24 = 1 ∧ ∃ r : Reg, w.toNat / 2 ^ 8 % 2 ^ 16 = r.addr.toNat) ∨
      (w.toNat / 2 ^ 24 = 2 ∧ w.toNat / 2 ^ 8 % 2 ^ 16 = 0) := by
  obtain ⟨hop, hdata, r, haddr, -⟩ | ⟨hop, r, haddr, -⟩ | ⟨hop, haddr, -⟩ := decode_eq_ok_iff.1 h
  · exact .inl ⟨(op_eq_iff (by omega)).1 hop, data_eq_zero_iff.1 hdata, r, addr_eq_iff.1 haddr⟩
  · exact .inr (.inl ⟨(op_eq_iff (by omega)).1 hop, r, addr_eq_iff.1 haddr⟩)
  · exact .inr (.inr ⟨(op_eq_iff (by omega)).1 hop, addr_eq_iff.1 haddr⟩)

end Sys2Proof

namespace Sys2Proof.Machine

/-- Settles O4: none of the four kinds has the fields of a word that decodes. -/
theorem reservedWordsRefused : Obligations.ReservedWordsRefused := by
  refine ⟨fun w hop => ?_, fun w hop haddr => ?_, fun w hop hdata => ?_, fun w hop haddr => ?_,
    fun v => decode_encodeWr .ly v, fun s w rest e hp hw => ?_⟩
  · refine decode_error_of_ne_ok fun i h => ?_
    obtain ⟨h, -⟩ | ⟨h, -⟩ | ⟨h, -⟩ := fields_of_decode h <;> omega
  · refine decode_error_of_ne_ok fun i h => ?_
    obtain ⟨-, -, r, hr⟩ | ⟨-, r, hr⟩ | ⟨h, -⟩ := fields_of_decode h
    · exact haddr (hr ▸ addr_toNat_mem r)
    · exact haddr (hr ▸ addr_toNat_mem r)
    · omega
  · refine decode_error_of_ne_ok fun i h => ?_
    obtain ⟨-, h, -⟩ | ⟨h, -⟩ | ⟨h, -⟩ := fields_of_decode h <;> omega
  · refine decode_error_of_ne_ok fun i h => ?_
    obtain ⟨h, -⟩ | ⟨h, -⟩ | ⟨-, h⟩ := fields_of_decode h <;> omega
  · rw [step_of_pending_cons hp]
    exact hostStep_word_error hw _

/-! ### The address map and the step -/

/-- Settles O5: the fixed words are decoded, and those of the writes are the words that `encodeWr` builds. -/
theorem registerAddressMap : Obligations.RegisterAddressMap := by
  refine ⟨by decide, by decide, by decide, by decide, by decide, by decide, by decide, by decide, by decide, by decide,
    by decide, fun v => ⟨decode_encodeWr .lcdc v, decode_encodeWr .stat v, decode_encodeWr .scy v,
      decode_encodeWr .scx v, decode_encodeWr .ly v, decode_encodeWr .lyc v, decode_encodeWr .bgp v,
      decode_encodeWr .obp0 v, decode_encodeWr .obp1 v, decode_encodeWr .wy v, decode_encodeWr .wx v⟩, by decide,
    by decide, by decide, by decide, by decide, fun w hw i hi => ?_⟩
  simp only [List.mem_cons, List.not_mem_nil, or_false] at hw
  obtain rfl | rfl | rfl | rfl | rfl | rfl | rfl := hw <;> cases hi

/-- A table word that holds a host word, whatever its width, is that word (R61). -/
theorem step_withFetchWord {s : State} {i : Instr} (hi : i.wellFormed = true) {n : Nat} (hn : 26 ≤ n) :
    step (s.withFetchWord n (encode i).toNat) = exec i s := by
  have hlt : (encode i).toNat < 2 ^ n :=
    lt_of_lt_of_le (encode i).isLt (Nat.pow_le_pow_right (by omega) hn)
  have hword : BitVec.ofNat 26 ((encode i).toNat % 2 ^ n) = encode i := by
    rw [Nat.mod_eq_of_lt hlt, BitVec.ofNat_toNat, BitVec.setWidth_eq]
  rw [step_of_pending_cons rfl, hword]
  exact hostStep_word_ok (decodeOfEncode i hi) s

/-- Settles O6: a step performs the oldest pending action, and a word that decodes is run. -/
theorem stepRunsDecodedInstruction : Obligations.StepRunsDecodedInstruction := by
  refine ⟨fun s w rest i hp hw => ?_,
    fun s i hi => ⟨step_withFetchWord hi (by omega), step_withFetchWord hi (by omega)⟩,
    fun s => step_of_pending_nil⟩
  rw [step_of_pending_cons hp]
  exact hostStep_word_ok hw _

end Sys2Proof.Machine
end

section
/-! PROOFS. The register operations that the two special registers and the reset add (spec/40_registers.md,
spec/70_reset_and_hazards.md): STAT (O10, O11), the ignored write of LY (O13), LCDC (O14, O15, O16), what every register
operation leaves alone (O17), the state after power-on (O22, O24), and the host's writes of the memories (O60). -/

namespace Sys2Proof.Machine

/-! ### STAT and LY -/

/-- Settles O13: the write of LY stores nothing. -/
theorem writeLyIgnored : Obligations.WriteLyIgnored := fun _ v => ⟨decode_encodeWr .ly v, rfl, rfl⟩

/-- Settles O11: the write is the record update of its rule's pseudocode, and the byte read back has no free bit. -/
theorem writeStatStoresEnables : Obligations.WriteStatStoresEnables := by
  refine ⟨fun _ _ => rfl, fun s t hm hf ht => ?_⟩
  cases ht
  have hbyte : (returnNothing (setStatEnables 0xFF s)).statByte = 0xF8 := by
    unfold State.statByte
    simp only [returnNothing_fields, setStatEnables_fields, hm, hf]
    decide
  exact congrArg (fun b => Host.Outcome.next (returnByte b _)) hbyte

/-- The bits of the STAT byte (R76). -/
theorem statByte_bits (s : State) :
    s.statByte.getLsbD 7 = true ∧ s.statByte.getLsbD 6 = s.statLycInt ∧ s.statByte.getLsbD 5 = s.statOamInt ∧
      s.statByte.getLsbD 4 = s.statVblankInt ∧ s.statByte.getLsbD 3 = s.statHblankInt ∧
      s.statByte.getLsbD 2 = s.statLycFlag := by
  unfold State.statByte
  simp only [BitVec.getLsbD_append, BitVec.getLsbD_ofBool]
  simp

/-- The mode's number stands in the low bits of the STAT byte (R76). -/
theorem statByte_mode (s : State) : s.statByte.toNat % 4 = s.mode.bits.toNat := by
  have hm := s.mode.bits.isLt
  unfold State.statByte
  rw [BitVec.toNat_append, Nat.shiftLeft_eq, Nat.mul_comm, ← Nat.two_pow_add_eq_or_of_lt hm]
  omega

/-- Settles O10: the STAT byte is its fields side by side, and the invariant holds the mode at 0 while the engine is
off. -/
theorem readStatReturnsFields : Obligations.ReadStatReturnsFields := by
  refine ⟨rfl, fun s => ⟨s.statByte, rfl, ?_⟩⟩
  obtain ⟨h7, h6, h5, h4, h3, h2⟩ := statByte_bits s
  refine ⟨h7, h6, h5, h4, h3, h2, ?_, fun hinv hoff => ?_⟩
  · rw [statByte_mode]
    cases s.mode <;> rfl
  · obtain ⟨-, hmode, -, -⟩ := hinv.engine.off hoff
    rw [statByte_mode, hmode]
    rfl

/-! ### LCDC -/

/-- Settles O14: the two cases of a write of LCDC that do not disable the engine. -/
theorem writeLcdcStoresOrEnables : Obligations.WriteLcdcStoresOrEnables := fun _ _ =>
  ⟨exec_wrLcdc_same, exec_wrLcdc_enable⟩

/-- Settles O15: the disable is the record update of its rule's pseudocode. -/
theorem lcdDisableResetsSchedule : Obligations.LcdDisableResetsSchedule := fun _ _ => exec_wrLcdc_disable

/-- One dot as a run of dots. -/
theorem runDots_one (s : State) : runDots 1 s = dotStep s := by
  unfold runDots
  cases dotStep s <;> rfl

/-- The first dot of a visible line begins the scan with nothing selected (R100, R113). -/
theorem dotStep_scan_begins {s : State} (hon : s.engineOn = true) (hdot : s.lineDot = 0) (hly : s.ly.toNat < 144) :
    ∃ d, dotStep s = .ok d ∧ d.mode = .oamScan ∧ d.ly = s.ly ∧ d.lineDot = 1 ∧ d.sel = [] := by
  obtain ⟨d, hd, hly', hdot', hmode, -⟩ := dotStep_lineStart hon hdot hly
  obtain ⟨d', hd', -, -, -, hsel⟩ := (scanSelectsFirstTen s hon hdot hly).1 1 (by omega) (by omega)
  rw [runDots_one] at hd'
  cases hd.symm.trans hd'
  exact ⟨d, hd, hmode, hly', hdot', hsel⟩

/-- Settles O16: the disable leaves nothing of the schedule for a second one to reset. -/
theorem lcdCycleIdempotent : Obligations.LcdCycleIdempotent := by
  intro s v w hs hv hw
  refine ⟨_, _, exec_wrLcdc_disable hs hv, exec_wrLcdc_enable hv hw, rfl, rfl, rfl, rfl, ?_, _,
    exec_wrLcdc_disable hw hv, exec_wrLcdc_enable hv hw⟩
  exact dotStep_scan_begins rfl rfl (Nat.zero_lt_succ 143)

/-! ### What a register operation leaves alone -/

/-- A register operation leaves the memories, the frames, the pending bits, the waiting actions and the LYC flag alone
(R71). -/
theorem exec_register_frame {i : Instr} {s t : State} (hm : ∀ m, i ≠ .tick m) (h : exec i s = .next t) :
    t.iflag = s.iflag ∧ t.vram = s.vram ∧ t.oam = s.oam ∧ t.fb = s.fb ∧ t.presented = s.presented ∧
      t.pending = s.pending ∧ t.statLycFlag = s.statLycFlag := by
  cases i
  case tick m => exact absurd rfl (hm m)
  case wrLcdc v =>
    obtain ⟨_, h'⟩ | ⟨_, _, h'⟩ | ⟨_, _, h'⟩ := exec_wrLcdc_cases s v <;> cases h'.symm.trans h <;>
      exact ⟨rfl, rfl, rfl, rfl, rfl, rfl, rfl⟩
  all_goals
    cases h
    exact ⟨rfl, rfl, rfl, rfl, rfl, rfl, rfl⟩

/-- The write of LCDC apart, a register operation leaves the schedule, the scanner and the pipeline alone (R71). -/
theorem exec_register_schedule {i : Instr} {s t : State} (hm : ∀ m, i ≠ .tick m) (hw : ∀ v, i ≠ .wrLcdc v)
    (h : exec i s = .next t) :
    t.engineOn = s.engineOn ∧ t.ly = s.ly ∧ t.mode = s.mode ∧ t.lineDot = s.lineDot ∧ t.drawDots = s.drawDots ∧
      t.windowLine = s.windowLine ∧ t.winLineOk = s.winLineOk ∧ t.scanY = s.scanY ∧ t.scanX = s.scanX ∧
      t.sel = s.sel ∧ t.pipe = s.pipe := by
  cases i
  case tick m => exact absurd rfl (hm m)
  case wrLcdc v => exact absurd rfl (hw v)
  all_goals
    cases h
    exact ⟨rfl, rfl, rfl, rfl, rfl, rfl, rfl, rfl, rfl, rfl, rfl⟩

/-- A read changes nothing but the byte returned (R71). -/
theorem exec_rd_returns (r : Reg) (s : State) : ∃ b, exec (.rd r) s = .next { s with returned := some b } := by
  cases r <;> exact ⟨_, rfl⟩

/-- Settles O17: what each register operation leaves alone. -/
theorem registerOpsTakeNoDots : Obligations.RegisterOpsTakeNoDots := by
  refine ⟨fun i s hm => ?_, exec_rd_returns⟩
  obtain ⟨t, ht⟩ := exec_register_completes hm s
  obtain ⟨hiflag, hvram, hoam, hfb, hpresented, hpending, hlyc⟩ := exec_register_frame hm ht
  exact ⟨t, ht, hiflag, hvram, hoam, hfb, hpresented, hpending, hlyc, fun hw => exec_register_schedule hm hw ht⟩

/-! ### Power-on -/

/-- Settles O22: at power-on the engine is off at line 0 and every list is empty. -/
theorem resetMeetsInv : Obligations.ResetMeetsInv where
  ly_lt := by decide
  dot_lt := by decide
  window_le := by decide
  engine := ⟨rfl, fun _ => ⟨rfl, rfl, rfl, rfl⟩⟩
  sel := ⟨by decide, nofun⟩
  mode := .inl ⟨rfl, by decide⟩
  memory := ⟨by decide, by decide, by decide, nofun⟩

/-- A Tick that completes is a run of its dots that completes (R97). -/
theorem runDots_of_exec_tick {m : Nat} {s t : State} (h : exec (.tick m) s = .next t) :
    runDots (4 * m) (returnNothing s) = .ok t := by
  have h' : outcomeOf (runDots (4 * m) (returnNothing s)) = .next t := h
  cases hr : runDots (4 * m) (returnNothing s) <;> rw [hr] at h' <;> cases h'
  rfl

/-- Only a write of LCDC turns the engine on or off (R25, R74, R75). -/
theorem exec_engineOn {i : Instr} {s t : State} (hw : ∀ v, i ≠ .wrLcdc v) (h : exec i s = .next t) :
    t.engineOn = s.engineOn := by
  by_cases hm : ∀ m, i ≠ .tick m
  · obtain ⟨hon, -⟩ := exec_register_schedule hm hw h
    exact hon
  · obtain ⟨m, hi⟩ := not_forall.mp hm
    obtain rfl := not_not.mp hi
    exact (runDots_kept (runDots_of_exec_tick h)).engineOn

/-- A write of LCDC that turns the engine on sets bit 7 (R75). -/
theorem bit7_of_wrLcdc_on {s t : State} {v : Byte} (hoff : s.engineOn = false) (h : exec (.wrLcdc v) s = .next t)
    (hon : t.engineOn = true) : v.getLsbD 7 = true := by
  obtain ⟨-, h'⟩ | ⟨-, -, h'⟩ | ⟨-, hv, -⟩ := exec_wrLcdc_cases s v
  · cases h'.symm.trans h
    exact absurd (hoff.symm.trans hon) nofun
  · cases h'.symm.trans h
    cases hon
  · exact hv

/-- Settles O24: the values are those of the definition; with the engine off a Tick runs no dot, and of the operations
only a write of LCDC turns it on. -/
theorem powerOnState : Obligations.PowerOnState := by
  refine ⟨rfl, rfl, rfl, rfl, rfl, rfl, rfl, rfl, rfl, rfl, rfl, rfl, rfl, rfl, rfl, rfl, rfl, rfl, rfl, rfl, rfl, rfl,
    rfl, rfl, rfl, rfl, rfl, rfl, rfl, rfl, rfl, rfl, rfl, rfl, rfl, rfl, rfl, rfl, rfl, rfl, rfl, fun _ => rfl,
    fun m => exec_tick_off m rfl, fun i t h hon => ?_⟩
  by_cases hw : ∀ v, i ≠ .wrLcdc v
  · cases (exec_engineOn hw h).symm.trans hon
  · obtain ⟨v, hi⟩ := not_forall.mp hw
    obtain rfl := not_not.mp hi
    exact ⟨v, rfl, bit7_of_wrLcdc_on rfl h hon⟩

/-! ### The host's writes -/

/-- Settles O60: the step performs the pending write, which is the memory's write at its address. -/
theorem hostWritesLand : Obligations.HostWritesLand := by
  refine fun s rest v => ⟨fun off hp => ?_, fun off hp => ?_, fun hp => step_of_pending_cons hp⟩
  · have hoff := off.isLt
    exact ⟨_, step_of_pending_cons hp, fun a => read_write s.vram _ a v, fun h => write_wf v h (by omega)⟩
  · have hoff := off.isLt
    exact ⟨_, step_of_pending_cons hp, fun a => read_write s.oam _ a v, fun h => write_wf v h (by omega)⟩

end Sys2Proof.Machine
end

section
/-! PROOFS. The Tick and the invariant (spec/41_mode_machine.md R97): Ticks in a row are one Tick (O7, O18, O20), a Tick
completes and moves the position on (O19), and every step keeps the invariant (O21). -/

namespace Sys2Proof.Machine

/-! ### Ticks in a row -/

/-- The outcome of an operation on the outcome of those before it: only a next state is gone on from. -/
def thenExec (o : Host.Outcome State Fault Refusal) (i : Instr) : Host.Outcome State Fault Refusal :=
  match o with
  | .next t => exec i t
  | .fault f => .fault f
  | .refused r => .refused r

theorem returnNothing_eq_self {s : State} (h : s.returned = none) : returnNothing s = s := by
  unfold returnNothing
  rw [← h]

/-- A Tick of `m + n` is a Tick of `m` and then, if that completes, a Tick of `n` (R51, R97). -/
theorem exec_tick_add (m n : Nat) (s : State) :
    exec (.tick (m + n)) s = thenExec (exec (.tick m) s) (.tick n) := by
  have hsplit : runDots (4 * (m + n)) (returnNothing s) = (runDots (4 * m) (returnNothing s) >>= runDots (4 * n)) := by
    rw [Nat.mul_add, runDots_add]
  show outcomeOf (runDots (4 * (m + n)) (returnNothing s)) = thenExec (outcomeOf (runDots (4 * m) (returnNothing s))) _
  rw [hsplit]
  cases ht : runDots (4 * m) (returnNothing s) with
  | error f => rfl
  | ok t =>
    have hnone : returnNothing t = t := returnNothing_eq_self (runDots_kept ht).returned
    show outcomeOf (runDots (4 * n) t) = outcomeOf (runDots (4 * n) (returnNothing t))
    rw [hnone]

/-- Settles O20: the run of the dots is cut at the boundary. -/
theorem tickSplitsAnywhere : Obligations.TickSplitsAnywhere := by
  intro m n s t h
  rw [exec_tick_add, h]
  rfl

/-- Ticks in a row are one Tick of the sum of their counts. -/
theorem foldl_ticks (l : List Nat) (m : Nat) (s : State) :
    (l.map Instr.tick).foldl thenExec (exec (.tick m) s) = exec (.tick (m + l.sum)) s := by
  induction l generalizing m with
  | nil => rfl
  | cons n l ih =>
    rw [List.map_cons, List.foldl_cons, ← exec_tick_add, ih, List.sum_cons, Nat.add_assoc]

/-- The expansion of a Tick: at least one Tick, each of a count that fits a word, of that sum in all (R69). -/
theorem expandTick_eq (m : Nat) :
    ∃ (k : Nat) (l : List Nat), Pseudo.expandTick m = .tick k :: l.map Instr.tick ∧ k + l.sum = m ∧ k ≤ 255 ∧
      ∀ n ∈ l, n ≤ 255 := by
  unfold Pseudo.expandTick
  by_cases hm : m ≤ 255
  · exact ⟨m, [], if_pos hm, rfl, hm, nofun⟩
  · obtain ⟨q, hq⟩ : ∃ q, m / 255 = q + 1 := ⟨m / 255 - 1, by omega⟩
    refine ⟨255, List.replicate q 255 ++ if m % 255 = 0 then [] else [m % 255], ?_, ?_, le_rfl, fun n hn => ?_⟩
    · rw [if_neg hm, hq, List.replicate_succ, List.map_append, List.map_replicate]
      split <;> rfl
    · rw [List.sum_append, List.sum_replicate, smul_eq_mul]
      split
      · rw [List.sum_nil]
        omega
      · rw [List.sum_singleton]
        omega
    · obtain hn | hn := List.mem_append.1 hn
      · exact (List.eq_of_mem_replicate hn).le
      · split at hn
        · cases hn
        · rw [List.mem_singleton.1 hn]
          omega

/-- Settles O7: the expansion is a row of Ticks whose counts have the sum `m`. -/
theorem pseudoExpansionRunsTheCount : Obligations.PseudoExpansionRunsTheCount := by
  refine ⟨fun m s => ?_, fun m i hi => ?_, fun n => ?_, rfl, rfl⟩
  · obtain ⟨k, l, hexpand, hsum, -, -⟩ := expandTick_eq m
    show (Pseudo.expandTick m).foldl thenExec (.next s) = _
    rw [hexpand, List.foldl_cons, ← hsum]
    exact foldl_ticks l k s
  · obtain ⟨k, l, hexpand, -, hk, hl⟩ := expandTick_eq m
    rw [hexpand] at hi
    obtain rfl | hi := List.mem_cons.1 hi
    · exact Instr.wellFormed_tick.2 hk
    · obtain ⟨n, hn, rfl⟩ := List.mem_map.1 hi
      exact Instr.wellFormed_tick.2 (hl n hn)
  · have hmod : 4 * n % 4 = 0 := Nat.mul_mod_right 4 n
    have hdiv : 4 * n / 4 = n := Nat.mul_div_cancel_left n (by omega)
    simp only [Pseudo.expand, hmod, hdiv, if_true]

/-- Settles O18: a Tick is the run of its dots; 80 dots from the enable lead to Draw entry. -/
theorem tickRunsFourDotsEach : Obligations.TickRunsFourDotsEach := by
  refine ⟨fun m s t h => congrArg outcomeOf h, fun _ => rfl, fun m s hoff => exec_tick_off m hoff,
    fun s t v hinv hoff hv ht => ?_⟩
  rw [exec_wrLcdc_enable (hinv.engine.follows.symm.trans hoff) hv] at ht
  cases ht
  obtain ⟨u, hu, hly, hdraw⟩ :=
    runDots_drawing (s := lcdEnable (returnNothing { s with lcdc := v })) rfl rfl (Nat.zero_lt_succ 143)
  exact ⟨u, exec_tick_of_runDots (m := 20) rfl hu, hdraw.mode, hdraw.lineDot, hly⟩

/-- Settles O19: with the engine on the dots of the Tick keep the invariant and move the position on; with it off
nothing but the byte returned changes. -/
theorem tickCompletes : Obligations.TickCompletes := by
  intro m s h
  cases hon : s.engineOn
  case false => exact ⟨_, exec_tick_off m hon, returnNothing_inv h, nofun⟩
  case true =>
    obtain ⟨t, ht, hinv, hpos⟩ := exec_tick_spec m h hon
    exact ⟨t, ht, hinv, fun _ => hpos⟩

/-! ### The invariant -/

/-- The write of LCDC apart, a register operation changes nothing that the invariant reads (R71). -/
theorem exec_register_agreeOnInv {i : Instr} {s t : State} (hm : ∀ m, i ≠ .tick m) (hw : ∀ v, i ≠ .wrLcdc v)
    (h : exec i s = .next t) : AgreeOnInv s t := by
  cases i
  case tick m => exact absurd rfl (hm m)
  case wrLcdc v => exact absurd rfl (hw v)
  all_goals
    cases h
    exact ⟨rfl, rfl, rfl, rfl, rfl, rfl, rfl, rfl, rfl, rfl, rfl, rfl, rfl⟩

/-- The LCD disable keeps the invariant: it leaves the engine off at line 0 with an empty list (R74). -/
theorem lcdDisable_inv {s : State} {v : Byte} (h : Inv s) (hv : v.getLsbD 7 = false) :
    Inv (lcdDisable (returnNothing { s with lcdc := v })) where
  ly_lt := Nat.zero_lt_succ 153
  dot_lt := Nat.zero_lt_succ 455
  window_le := ⟨Nat.zero_le _, Nat.zero_le _⟩
  engine := ⟨hv.symm, fun _ => ⟨rfl, rfl, rfl, rfl⟩⟩
  sel := ⟨Nat.zero_le _, nofun⟩
  mode := .inl ⟨rfl, Nat.zero_le _⟩
  memory := ⟨h.memory.vram, h.memory.oam, h.memory.fb, h.memory.presented⟩

/-- A write of LCDC keeps the invariant (R73). -/
theorem exec_wrLcdc_inv {s t : State} {v : Byte} (h : Inv s) (ht : exec (.wrLcdc v) s = .next t) : Inv t := by
  obtain ⟨hsame, h'⟩ | ⟨-, hv, h'⟩ | ⟨hs, hv, h'⟩ := exec_wrLcdc_cases s v <;> cases h'.symm.trans ht
  · exact AgreeOnInv.inv (s := s) ⟨rfl, hsame.symm, rfl, rfl, rfl, rfl, rfl, rfl, rfl, rfl, rfl, rfl, rfl⟩ h
  · exact lcdDisable_inv h hv
  · exact lcdEnable_inv h (h.engine.follows.trans hs) hv

/-- Every host operation keeps the invariant. -/
theorem exec_inv {i : Instr} {s t : State} (h : Inv s) (ht : exec i s = .next t) : Inv t := by
  by_cases hm : ∀ m, i ≠ .tick m
  · by_cases hw : ∀ v, i ≠ .wrLcdc v
    · exact (exec_register_agreeOnInv hm hw ht).inv h
    · obtain ⟨v, hv⟩ := not_forall.mp hw
      obtain rfl := not_not.mp hv
      exact exec_wrLcdc_inv h ht
  · obtain ⟨m, hi⟩ := not_forall.mp hm
    obtain rfl := not_not.mp hi
    obtain ⟨u, hu, hinv, -⟩ := tickCompletes m s h
    cases hu.symm.trans ht
    exact hinv

/-- The contents of the memories are no part of the mode's rule. -/
theorem setMemories_modeLegal {s : State} (h : ModeLegal s) (vram oam : Memory) :
    ModeLegal { s with vram := vram, oam := oam } := by
  unfold ModeLegal at h ⊢
  cases hm : s.mode <;> rw [hm] at h
  case draw =>
    obtain ⟨hly, hdot, hcovers, fifos, fetcher, ⟨ptr_le, left_lt, sorted, not_missed, fetching⟩, budget, waiting⟩ := h
    exact ⟨hly, hdot, hcovers, fifos, fetcher, ⟨ptr_le, left_lt, sorted, not_missed, fetching⟩, budget, waiting⟩
  all_goals exact h

/-- The host may put any memories in canonical form in the place of the block's. -/
theorem setMemories_inv {s : State} (h : Inv s) {vram oam : Memory} (hv : Memory.wf 0x8000 0x9FFF vram)
    (ho : Memory.wf 0 159 oam) : Inv { s with vram := vram, oam := oam } where
  ly_lt := h.ly_lt
  dot_lt := h.dot_lt
  window_le := h.window_le
  engine := ⟨h.engine.follows, h.engine.off⟩
  sel := ⟨h.sel.length_le, h.sel.records⟩
  mode := setMemories_modeLegal h.mode vram oam
  memory := ⟨hv, ho, h.memory.fb, h.memory.presented⟩

/-- Every action of the host keeps the invariant. -/
theorem hostStep_inv {a : HostAction} {s t : State} (h : Inv s) (ht : hostStep a s = .next t) : Inv t := by
  cases a
  case word w =>
    cases hw : decode w
    case ok i =>
      rw [hostStep_word_ok hw] at ht
      exact exec_inv h ht
    case error e => cases (hostStep_word_error hw s).symm.trans ht
  case writeVram off v =>
    have hoff := off.isLt
    cases ht
    exact setMemories_inv h (write_wf v h.memory.vram (by omega)) h.memory.oam
  case writeOam off v =>
    have hoff := off.isLt
    cases ht
    exact setMemories_inv h h.memory.vram (write_wf v h.memory.oam (by omega))
  case writeInterruptFlag v =>
    cases ht
    exact AgreeOnInv.inv (s := s) ⟨rfl, rfl, rfl, rfl, rfl, rfl, rfl, rfl, rfl, rfl, rfl, rfl, rfl⟩ h

/-- Settles O21: a step performs one action of the host, or none. -/
theorem stepKeepsInv : Obligations.StepKeepsInv := by
  intro s t h ht
  cases hp : s.pending
  case nil =>
    cases (step_of_pending_nil hp).symm.trans ht
    exact h
  case cons a rest =>
    rw [step_of_pending_cons hp] at ht
    exact hostStep_inv (setPending_inv h rest) ht

end Sys2Proof.Machine
end

section
/-! PROOFS. The dots of a line (spec/41_mode_machine.md R98 to R110): Draw ends in time (O25), the first dot of a line
(O26), its last (O28), a dot of Draw (O31), the requests (O32), the modes of a line (O33), and the one hand-off of a
frame (O37). -/

namespace Sys2Proof.Machine

/-! ### Draw ends in time -/

/-- While a pixel is to come, so is a dot of Draw (R185). -/
theorem DrawLegal.drawBudget_pos {s : State} (h : DrawLegal s) (ho : s.pipe.outputX < 160) : 0 < drawBudget s := by
  have hle := h.fifos.push_le
  have hheld := h.fetcher.run_held
  have hfifo := h.fetcher.fifo_le
  simp only [screenW] at hle hheld
  unfold drawBudget
  simp only [screenW]
  by_cases hphase : s.pipe.phase = .push
  · obtain ⟨-, hlt, hrun⟩ := hheld hphase
    simp only [hphase, Nat.ne_of_lt hlt, if_true, if_false]
    omega
  · have hlast := hfifo hphase
    simp only [hphase, if_false]
    split_ifs <;> omega

/-- In Draw at most 241 dots of it are done (R185). -/
theorem DrawLegal.drawDots_le {s : State} (h : DrawLegal s) : s.drawDots ≤ 241 := by
  have hle := h.fifos.push_le
  have hbg := h.fifos.bg_length
  simp only [screenW] at hle
  by_cases ho : s.pipe.outputX < 160
  · have hpos := h.drawBudget_pos ho
    have hbudget := h.budget ho
    omega
  · have hwait := h.waiting (by simp only [screenW]; omega)
    simp only [drawMinDots] at hwait
    omega

/-- Where Draw stands in its line (R109, R185). -/
theorem Inv.draw_position {s : State} (h : Inv s) (hm : s.mode = .draw) :
    s.ly.toNat < 144 ∧ s.lineDot = 80 + s.drawDots ∧ s.drawDots ≤ 241 ∧ DrawLegal s := by
  have hmode := h.mode
  unfold ModeLegal at hmode
  rw [hm] at hmode
  obtain ⟨hly, hdot, -, hdraw⟩ := hmode
  exact ⟨hly, hdot, hdraw.drawDots_le, hdraw⟩

/-- Late in a line neither OAM scan nor Draw runs (R109). -/
theorem Inv.mode_late {s : State} (h : Inv s) (hdot : 322 ≤ s.lineDot) : s.mode = .hblank ∨ s.mode = .vblank := by
  cases hm : s.mode
  case hblank => exact .inl rfl
  case vblank => exact .inr rfl
  case draw =>
    obtain ⟨-, hpos, hle, -⟩ := h.draw_position hm
    omega
  case oamScan =>
    have hmode := h.mode
    unfold ModeLegal at hmode
    rw [hm] at hmode
    simp only [oamScanDots] at hmode
    omega

/-- Settles O25: the fault is that of the end of the line's last dot; the budget of Draw runs out long before. -/
theorem drawOverrunUnreachable : Obligations.DrawOverrunUnreachable := by
  refine ⟨fun s t hon hm hdot ht htm => ?_, fun s h hm => ?_, fun s h hfault => ?_⟩
  · have hmode : modeDot s = .ok t := by
      unfold modeDot
      rw [hm]
      exact ht
    obtain ⟨-, hdot'⟩ := modeDot_position hmode
    rw [dotStep_inside hon (by omega), hmode]
    show endOfDot t = _
    unfold endOfDot
    rw [if_pos (by rw [hdot', hdot]), if_pos htm]
  · obtain ⟨-, hpos, hle, -⟩ := h.draw_position hm
    exact ⟨by omega, hle⟩
  · cases hon : s.engineOn
    case false =>
      have hoff : dotStep s = .ok s := by
        unfold dotStep
        rw [hon]
        rfl
      cases hoff.symm.trans hfault
    case true =>
      obtain ⟨t, ht, -⟩ := dotStep_spec h hon
      cases ht.symm.trans hfault

/-! ### The first dot of a line -/

/-- The pending bits after the first dot of a line (R99, R100, R102, R163). -/
def lineStartIflag (s : State) : Byte :=
  s.iflag ||| (if s.ly.toNat = 144 then 0x01 else 0x00) |||
    (if (s.ly = s.lyc ∧ s.statLycInt = true) ∨ (s.ly.toNat < 144 ∧ s.statOamInt = true) ∨
        (s.ly.toNat = 144 ∧ s.statVblankInt = true) then 0x02 else 0x00)

/-- The line start of a visible line as one record update (R99, R100). -/
theorem lineStart_visible_eq {s : State} (hly : s.ly.toNat < 144) :
    lineStart s = { s with
      statLycFlag := decide (s.ly = s.lyc), iflag := lineStartIflag s, mode := .oamScan, sel := [], scanY := 0
      scanX := 0, winLineOk := s.winEnable && decide (s.wy.toNat ≤ s.ly.toNat) } := by
  have hne : s.ly.toNat ≠ 144 := by omega
  rw [lineStart_visible hly, enterOamScan_eq, lycCompare_eq]
  have hflag : (if s.statOamInt then
      (if decide (s.ly = s.lyc) && s.statLycInt then s.iflag ||| 0x02 else s.iflag) ||| 0x02 else
      (if decide (s.ly = s.lyc) && s.statLycInt then s.iflag ||| 0x02 else s.iflag)) = lineStartIflag s := by
    simp only [lineStartIflag, hly, hne, true_and, false_and, or_false, if_false]
    cases s.statOamInt <;> cases s.statLycInt <;> by_cases hlyc : s.ly = s.lyc <;> simp [hlyc, BitVec.or_assoc]
  rw [← hflag]
  rfl

/-- The line start of line 144 as one record update (R99, R102). -/
theorem lineStart_144_eq {s : State} (hly : s.ly.toNat = 144) :
    lineStart s = { s with
      statLycFlag := decide (s.ly = s.lyc), iflag := lineStartIflag s, mode := .vblank
      presented := s.fb :: s.presented } := by
  rw [lineStart_144 hly, enterVblank_eq, lycCompare_eq]
  have hflag : (if s.statVblankInt then
      (if decide (s.ly = s.lyc) && s.statLycInt then s.iflag ||| 0x02 else s.iflag) ||| 0x01 ||| 0x02 else
      (if decide (s.ly = s.lyc) && s.statLycInt then s.iflag ||| 0x02 else s.iflag) ||| 0x01) = lineStartIflag s := by
    simp only [lineStartIflag, hly, Nat.lt_irrefl, true_and, false_and, false_or, if_true]
    cases s.statVblankInt <;> cases s.statLycInt <;> by_cases hlyc : s.ly = s.lyc <;> simp [hlyc, BitVec.or_assoc]
  rw [← hflag]

/-- The line start of a later line as one record update (R99). -/
theorem lineStart_later_eq {s : State} (hly : 144 < s.ly.toNat) :
    lineStart s = { s with statLycFlag := decide (s.ly = s.lyc), iflag := lineStartIflag s } := by
  have hne : s.ly.toNat ≠ 144 := by omega
  have hnlt : ¬ s.ly.toNat < 144 := by omega
  rw [lineStart_later hly, lycCompare_eq]
  have hflag : (if decide (s.ly = s.lyc) && s.statLycInt then s.iflag ||| 0x02 else s.iflag) = lineStartIflag s := by
    simp only [lineStartIflag, hne, hnlt, false_and, or_false, if_false]
    cases s.statLycInt <;> by_cases hlyc : s.ly = s.lyc <;> simp [hlyc]
  rw [← hflag]

/-- The first dot of a visible line (R99, R100, R114). -/
theorem dotStep_first_visible {s : State} (hon : s.engineOn = true) (hdot : s.lineDot = 0) (hly : s.ly.toNat < 144) :
    dotStep s = .ok { s with
      lineDot := 1, statLycFlag := decide (s.ly = s.lyc), iflag := lineStartIflag s, mode := .oamScan, sel := []
      scanY := Memory.read s.oam 0, scanX := Memory.read s.oam 1
      winLineOk := s.winEnable && decide (s.wy.toNat ≤ s.ly.toNat) } := by
  have hstart : lineStartIfDue s = lineStart s := if_pos hdot
  have hscan : (lineStartIfDue s).mode = .oamScan := by rw [hstart, lineStart_visible_eq hly]
  have hstep := dotStep_scan hon (by omega) hscan (by rw [hdot]; exact oamScanDot_even (i := 0) (by omega) _)
  rw [if_neg (by omega), hstart, hdot, lineStart_visible_eq hly] at hstep
  exact hstep

/-- The first dot of a line of VBlank is its line start and the count (R99, R102). -/
theorem dotStep_first_vblank {s : State} (hon : s.engineOn = true) (hdot : s.lineDot = 0)
    (hmode : (lineStart s).mode = .vblank) : dotStep s = .ok { lineStart s with lineDot := 1 } := by
  have hstart : lineStartIfDue s = lineStart s := if_pos hdot
  have hpos : (lineStart s).lineDot = 0 := by rw [← hstart, (lineStartIfDue_position s).2, hdot]
  unfold dotStep
  rw [if_pos hon, hstart, modeDot_blank (.inr hmode)]
  refine (endOfDot_inside (by omega)).trans ?_
  rw [hpos]

/-- At the start of line 145 or later the mode is VBlank still (R102, R109). -/
theorem Inv.mode_vblank {s : State} (h : Inv s) (hly : 144 < s.ly.toNat ∨ (144 ≤ s.ly.toNat ∧ 0 < s.lineDot)) :
    s.mode = .vblank := by
  have hmode := h.mode
  unfold ModeLegal at hmode
  cases hm : s.mode with
  | vblank => rfl
  | oamScan | draw | hblank =>
    simp only [hm, screenH] at hmode
    omega

/-- Settles O26: the line start of each of the three kinds of line as one record update, and on a visible line the
first scan dot. -/
theorem lineStartDot : Obligations.LineStartDot := by
  intro s h hon hdot
  obtain hly | hly | hly := Nat.lt_trichotomy s.ly.toNat 144
  · have hne : s.ly.toNat ≠ 144 := by omega
    refine ⟨_, dotStep_first_visible hon hdot hly, rfl, rfl, rfl, ?_, rfl, ?_, fun _ => ⟨rfl, rfl, rfl, rfl⟩,
      fun hge => absurd hly (by omega), rfl, rfl, rfl, rfl⟩
    · rw [if_pos hly]
    · rw [if_neg hne]
  · have hstep := dotStep_first_vblank hon hdot (by rw [lineStart_144_eq hly])
    rw [lineStart_144_eq hly] at hstep
    refine ⟨_, hstep, rfl, rfl, rfl, ?_, rfl, ?_, fun hlt => absurd hly (by omega), fun _ => ⟨rfl, rfl, rfl, rfl⟩, rfl,
      rfl, rfl, rfl⟩
    · rw [if_neg (by omega)]
    · rw [if_pos hly]
  · have hmode := h.mode_vblank (.inl hly)
    have hstep := dotStep_first_vblank hon hdot (by rw [lineStart_later_eq hly, hmode])
    rw [lineStart_later_eq hly] at hstep
    refine ⟨_, hstep, rfl, rfl, rfl, ?_, rfl, ?_, fun hlt => absurd hly (by omega), fun _ => ⟨rfl, rfl, rfl, rfl⟩, rfl,
      rfl, rfl, rfl⟩
    · rw [if_neg (by omega)]
      exact hmode
    · rw [if_neg (by omega)]

/-! ### The last dot of a line -/

/-- The end of a line (R108). -/
theorem endOfLine_eq (s : State) :
    endOfLine s = { s with
      ly := if s.ly.toNat = 153 then 0 else s.ly + 1
      windowLine :=
        if s.ly.toNat = 153 then 0
        else if s.ly.toNat < 144 ∧ s.winLineOk = true then s.windowLine + 1 else s.windowLine } := by
  unfold endOfLine
  by_cases hlast : s.ly.toNat = 153
  · simp [hlast]
  · have hne : ¬ s.ly.toNat + 1 = 154 := by omega
    simp only [linesPerFrame, hne, hlast, if_false]

/-- Settles O28: neither OAM scan nor Draw reaches the last dot, which is then the end of the line alone. -/
theorem endOfLineDot : Obligations.EndOfLineDot := by
  intro s h hon hdot
  have hm := h.mode_late (by omega)
  have hdraw : s.mode ≠ .draw := by obtain hm | hm := hm <;> rw [hm] <;> decide
  rw [dotStep_blank hon hm (by omega), endOfDot_last hdraw hdot, endOfLine_eq]

/-! ### A dot of Draw and the requests -/

/-- Settles O31: the pipeline's dot changes the pipeline and the frame buffer alone, and the test for the end of Draw
follows it. -/
theorem drawDotEndsDraw : Obligations.DrawDotEndsDraw := by
  intro s h hon hm
  obtain ⟨hly, hdot, hle, hdraw⟩ := h.draw_position hm
  obtain ⟨p, f, hp, -⟩ := pipelineDot_legal s hdraw h.sel hly
  refine ⟨_, hp, ?_⟩
  rw [dotStep_draw hon hm (by omega) hp]
  unfold endDrawIfDone
  simp only [screenW, drawMinDots, requestIf_eq]
  split <;> rfl

/-- Outside Draw no mode handler requests (R162). -/
theorem modeDot_iflag {s t : State} (hm : s.mode ≠ .draw) (h : modeDot s = .ok t) : t.iflag = s.iflag := by
  unfold modeDot at h
  split at h
  case h_1 =>
    obtain ⟨u, hu, h⟩ := bind_eq_ok h
    obtain ⟨y, x, l, rfl⟩ := oamScanDot_scanner hu
    cases h
    split
    · rw [endOamScan_eq]
    · rfl
  case h_2 hdraw => exact absurd hdraw hm
  all_goals
    cases h
    rfl

/-- What the end of a dot can change: the line dot, LY and the window line (R106, R108). -/
theorem endOfDot_frame {s t : State} (h : endOfDot s = .ok t) :
    ∃ d ly w, t = { s with lineDot := d, ly := ly, windowLine := w } := by
  unfold endOfDot at h
  split at h
  · split at h
    · cases h
    · cases h
      obtain ⟨ly, w, hend⟩ := endOfLine_frame { s with lineDot := 0 }
      exact ⟨0, ly, w, hend⟩
  · cases h
    exact ⟨_, s.ly, s.windowLine, rfl⟩

/-- Off the first dot of a line, a dot that is none of Draw leaves the pending bits alone (R162). -/
theorem dotStep_iflag_inside {s t : State} (hon : s.engineOn = true) (hdot : s.lineDot ≠ 0) (hm : s.mode ≠ .draw)
    (ht : dotStep s = .ok t) : t.iflag = s.iflag := by
  rw [dotStep_inside hon hdot] at ht
  obtain ⟨u, hu, ht⟩ := bind_eq_ok ht
  obtain ⟨_, _, _, rfl⟩ := endOfDot_frame ht
  have hflag := modeDot_iflag hm hu
  exact hflag

/-- A dot of Draw requests STAT exactly if it ends Draw with the HBlank source enabled (R104, R162). -/
theorem dotStep_iflag_draw {s t : State} (h : Inv s) (hon : s.engineOn = true) (hm : s.mode = .draw)
    (ht : dotStep s = .ok t) :
    t.iflag = if t.mode = .hblank ∧ s.statHblankInt = true then s.iflag ||| 0x02 else s.iflag := by
  obtain ⟨hly, -, -, hdraw⟩ := h.draw_position hm
  obtain ⟨p, f, hp, -⟩ := pipelineDot_legal s hdraw h.sel hly
  obtain ⟨u, hu, hstep⟩ := drawDotEndsDraw s h hon hm
  cases hp.symm.trans hu
  cases hstep.symm.trans ht
  split
  case isTrue => simp
  case isFalse => simp [hm]

theorem getLsbD_vblank_bit (k : Nat) : (0x01#8).getLsbD k = true ↔ k = 0 := by
  rw [BitVec.getLsbD_one]
  simp

theorem getLsbD_stat_bit (k : Nat) : (0x02#8).getLsbD k = true ↔ k = 1 := by
  have htwo : (0x02#8) = BitVec.twoPow 8 1 := by decide
  rw [htwo, BitVec.getLsbD_twoPow]
  simp [eq_comm]

/-- The pending bits after the first dot of a line, bit by bit (R162, R163). -/
theorem lineStartIflag_getLsbD (s : State) (k : Nat) :
    (lineStartIflag s).getLsbD k = true ↔
      s.iflag.getLsbD k = true ∨ (k = 0 ∧ s.ly.toNat = 144) ∨
        (k = 1 ∧ ((s.ly = s.lyc ∧ s.statLycInt = true) ∨ (s.ly.toNat < 144 ∧ s.statOamInt = true) ∨
          (s.ly.toNat = 144 ∧ s.statVblankInt = true))) := by
  unfold lineStartIflag
  rw [BitVec.getLsbD_or, BitVec.getLsbD_or, Bool.or_eq_true, Bool.or_eq_true, or_assoc]
  refine or_congr Iff.rfl (or_congr ?_ ?_)
  · split
    case isTrue hly => exact (getLsbD_vblank_bit k).trans (and_iff_left hly).symm
    case isFalse hly => simp [hly]
  · split
    case isTrue hevent => exact (getLsbD_stat_bit k).trans (and_iff_left hevent).symm
    case isFalse hevent => simp [hevent]

/-- Settles O32: the first dot of a line requests by its events, a dot of Draw where it ends Draw, and no other dot at
all. -/
theorem requestsOnlyAtEvents : Obligations.RequestsOnlyAtEvents := by
  intro s t h hon ht vblank stat k
  by_cases hdot : s.lineDot = 0
  · obtain ⟨t', ht', -, -, -, -, hiflag, -⟩ := lineStartDot s h hon hdot
    cases ht'.symm.trans ht
    have hm : s.mode ≠ .draw := fun hm => by
      obtain ⟨-, hpos, -⟩ := h.draw_position hm
      omega
    have hbits := lineStartIflag_getLsbD s k
    rw [show lineStartIflag s = t.iflag from hiflag.symm] at hbits
    simpa only [vblank, stat, hdot, hm, true_and, false_and, or_false] using hbits
  · by_cases hm : s.mode = .draw
    · rw [dotStep_iflag_draw h hon hm ht]
      simp only [vblank, stat, hdot, hm, true_and, false_and, and_false, false_or]
      split
      case isTrue hend =>
        rw [BitVec.getLsbD_or, Bool.or_eq_true]
        exact or_congr Iff.rfl ((getLsbD_stat_bit k).trans (and_iff_left hend).symm)
      case isFalse hend => simp [hend]
    · rw [dotStep_iflag_inside hon hdot hm ht]
      simp [vblank, stat, hdot, hm]

/-! ### The modes of a line -/

/-- From the start of a line a run that ends inside it stays on it (R108, R109). -/
theorem runDots_inside_line {s : State} (h : Inv s) (hon : s.engineOn = true) (hdot : s.lineDot = 0) {n : Nat}
    (hn : n < 456) :
    ∃ t, runDots n s = .ok t ∧ Inv t ∧ t.engineOn = true ∧ t.ly = s.ly ∧ t.lineDot = n := by
  obtain ⟨t, ht, hinv, hton, hpos⟩ := runDots_spec n h hon
  have hly := h.ly_lt
  have hlt := hinv.dot_lt
  have htly := hinv.ly_lt
  simp only [framePos, dotsPerFrame_eq, dotsPerLine, linesPerFrame, hdot] at hpos hly hlt htly
  exact ⟨t, ht, hinv, hton, BitVec.eq_of_toNat_eq (by omega), by omega⟩

/-- What a mode handler can change: the scanner, the mode, the count of Draw, the pipeline, the frame buffer and the
pending bits (R98). -/
theorem modeDot_frame {s t : State} (h : modeDot s = .ok t) :
    ∃ y x l m n p f i, t = { s with
      scanY := y, scanX := x, sel := l, mode := m, drawDots := n, pipe := p, fb := f, iflag := i } := by
  unfold modeDot at h
  split at h
  case h_1 =>
    obtain ⟨u, hu, h⟩ := bind_eq_ok h
    obtain ⟨y, x, l, rfl⟩ := oamScanDot_scanner hu
    cases h
    split
    · rw [endOamScan_eq]
      exact ⟨_, _, _, _, _, _, _, _, rfl⟩
    · exact ⟨_, _, _, _, _, _, _, _, rfl⟩
  case h_2 =>
    obtain ⟨u, hu, h⟩ := bind_eq_ok h
    obtain ⟨p, f, rfl, _⟩ := pipelineDot_frame hu
    cases h
    unfold endDrawIfDone
    split
    · rw [requestIf_eq]
      exact ⟨_, _, _, _, _, _, _, _, rfl⟩
    · exact ⟨_, _, _, _, _, _, _, _, rfl⟩
  all_goals
    cases h
    exact ⟨_, _, _, _, _, _, _, _, rfl⟩

/-- The LYC flag changes in the first dot of a line alone (R99). -/
theorem dotStep_lycFlag {s t : State} (hon : s.engineOn = true) (hdot : s.lineDot ≠ 0) (ht : dotStep s = .ok t) :
    t.statLycFlag = s.statLycFlag := by
  rw [dotStep_inside hon hdot] at ht
  obtain ⟨u, hu, ht⟩ := bind_eq_ok ht
  obtain ⟨_, _, _, _, _, _, _, _, rfl⟩ := modeDot_frame hu
  obtain ⟨_, _, _, rfl⟩ := endOfDot_frame ht
  rfl

/-- From the first dot of a line to its end the LYC flag is that of the line (R99). -/
theorem runDots_lycFlag {s t : State} (h : Inv s) (hon : s.engineOn = true) (hdot : s.lineDot = 0) {n : Nat}
    (hn : n < 456) (ht : runDots (n + 1) s = .ok t) : t.statLycFlag = decide (s.ly = s.lyc) := by
  induction n generalizing t with
  | zero =>
    obtain ⟨u, hu, -, -, hflag, -⟩ := lineStartDot s h hon hdot
    rw [runDots_one] at ht
    cases hu.symm.trans ht
    exact hflag
  | succ n ih =>
    obtain ⟨u, hu, huinv, huon, -, hudot⟩ := runDots_inside_line h hon hdot (n := n + 1) (by omega)
    obtain ⟨v, hv, -⟩ := dotStep_spec huinv huon
    cases (runDots_snoc hu hv).symm.trans ht
    rw [dotStep_lycFlag huon (by omega) hv]
    exact ih (by omega) hu

/-- The last dot of a line leads to the start of the next one in the same mode (R108, R109). -/
theorem runDots_whole_line {s : State} (h : Inv s) (hon : s.engineOn = true) (hdot : s.lineDot = 0) :
    ∃ t u, runDots 455 s = .ok t ∧ runDots 456 s = .ok u ∧ u.ly.toNat = (s.ly.toNat + 1) % 154 ∧ u.lineDot = 0 ∧
      u.mode = t.mode ∧ u.statLycFlag = decide (s.ly = s.lyc) := by
  obtain ⟨t, ht, htinv, hton, htly, htdot⟩ := runDots_inside_line h hon hdot (n := 455) (by omega)
  have hstep := endOfLineDot t htinv hton htdot
  have hrun := runDots_snoc ht hstep
  refine ⟨t, _, ht, hrun, ?_, rfl, rfl, runDots_lycFlag h hon hdot (n := 455) (by omega) hrun⟩
  have hly := h.ly_lt
  simp only [linesPerFrame] at hly
  simp only [htly]
  split
  case isTrue hwrap => simp [hwrap]
  case isFalse hne =>
    rw [BitVec.toNat_add]
    simp only [BitVec.ofNat_eq_ofNat, BitVec.toNat_ofNat]
    omega

/-- The Draw of a line lasts at most 242 dots (R184, R185). -/
theorem lineLength_le (s : State) : lineLength s ≤ 242 := by
  have hlen := (qualifying_legal s).1
  have hfilter := List.length_filter_le (fun a : SpriteAttr => decide (a.x < 160)) (qualifying s)
  unfold lineLength
  split <;> split <;> omega

/-- Settles O33: OAM scan for 80 dots, then Draw for the dots of R184's formula, then HBlank; on the later lines the
invariant leaves only VBlank. -/
theorem lineTimeline : Obligations.LineTimeline := by
  intro s h hon hdot
  obtain ⟨tlast, tend, hlast, hend, hendly, hendDot, hendMode, hendFlag⟩ := runDots_whole_line h hon hdot
  have hinside : ∀ n, 0 < n → n < 456 → ∃ t, runDots n s = .ok t ∧ Inv t ∧ t.ly = s.ly ∧ t.lineDot = n ∧
      t.statLycFlag = decide (s.ly = s.lyc) := fun n hpos hn => by
    obtain ⟨t, ht, htinv, -, htly, htdot⟩ := runDots_inside_line h hon hdot hn
    obtain ⟨k, rfl⟩ : ∃ k, n = k + 1 := ⟨n - 1, by omega⟩
    exact ⟨t, ht, htinv, htly, htdot, runDots_lycFlag h hon hdot (by omega) ht⟩
  constructor
  · intro hly
    have hle := lineLength_le s
    have hmode : ∀ n, 0 < n → n < 456 → ∀ t, runDots n s = .ok t →
        t.mode = if n < 80 then .oamScan else if n < 80 + max 172 (lineLength s) then .draw else .hblank := by
      intro n hpos hn t ht
      by_cases hscan : n < 80
      · obtain ⟨u, hu, hum, -⟩ := (scanSelectsFirstTen s hon hdot hly).1 n hpos hscan
        cases hu.symm.trans ht
        rw [if_pos hscan, hum]
      · obtain ⟨k, rfl⟩ : ∃ k, n = 80 + k := ⟨n - 80, by omega⟩
        obtain ⟨u, hu, hum⟩ := drawLengthWithSprites s hon hdot hly k (by omega)
        cases hu.symm.trans ht
        rw [if_neg hscan, hum]
        exact if_congr (Nat.add_lt_add_iff_left (k := 80)).symm rfl rfl
    refine ⟨max 172 (lineLength s), by omega, by omega, fun n hpos hn => ?_, tend, hend,
      by omega, hendDot, ?_, hendFlag⟩
    · obtain ⟨t, ht, -, htly, htdot, hflag⟩ := hinside n hpos hn
      exact ⟨t, ht, htly, htdot, hflag, hmode n hpos hn t ht⟩
    · rw [hendMode, hmode 455 (by omega) (by omega) tlast hlast, if_neg (by omega), if_neg (by omega)]
  · intro hly
    have hmode : ∀ n, 0 < n → n < 456 → ∃ t, runDots n s = .ok t ∧ t.ly = s.ly ∧ t.lineDot = n ∧ t.mode = .vblank ∧
        t.statLycFlag = decide (s.ly = s.lyc) := fun n hpos hn => by
      obtain ⟨t, ht, htinv, htly, htdot, hflag⟩ := hinside n hpos hn
      exact ⟨t, ht, htly, htdot, htinv.mode_vblank (.inr ⟨by rw [htly]; exact hly, by omega⟩), hflag⟩
    refine ⟨hmode, tend, hend, hendly, hendDot, ?_, hendFlag⟩
    obtain ⟨t, ht, -, -, htm, -⟩ := hmode 455 (by omega) (by omega)
    cases ht.symm.trans hlast
    rw [hendMode, htm]

/-! ### The hand-off of a frame -/

/-- The position is inside the frame. -/
theorem Inv.framePos_lt {s : State} (h : Inv s) : framePos s < 70224 := by
  have hly := h.ly_lt
  have hdot := h.dot_lt
  simp only [linesPerFrame, dotsPerLine, framePos] at *
  omega

/-- The position in the frame is LY and the line dot. -/
theorem position_of_framePos {s t : State} (hs : s.lineDot < 456) (ht : t.lineDot < 456)
    (h : framePos t = framePos s) : t.ly = s.ly ∧ t.lineDot = s.lineDot := by
  simp only [framePos, dotsPerLine] at h
  exact ⟨BitVec.eq_of_toNat_eq (by omega), by omega⟩

/-- The dot at position 65664 hands the frame over (R102). -/
theorem dotStep_handOff {s : State} (h : Inv s) (hon : s.engineOn = true) (hpos : framePos s = 65664) :
    ∃ t, dotStep s = .ok t ∧ t.presented = s.fb :: s.presented := by
  have hlt := h.dot_lt
  simp only [framePos, dotsPerLine] at hpos hlt
  have hly : s.ly.toNat = 144 := by omega
  obtain ⟨t, ht, -, -, -, -, -, hpresented, -⟩ := lineStartDot s h hon (by omega)
  exact ⟨t, ht, by rw [hpresented, if_pos hly]⟩

/-- From any position a frame of dots hands one frame over: none before the dot at position 65664, none after (R102,
R110). -/
theorem runDots_frame_handOff {s : State} (h : Inv s) (hon : s.engineOn = true) :
    ∃ t f, runDots 70224 s = .ok t ∧ Inv t ∧ framePos t = framePos s ∧ t.presented = f :: s.presented := by
  have hlt := h.framePos_lt
  obtain ⟨k, hk, hpos⟩ : ∃ k, k < 70224 ∧ (framePos s + k) % 70224 = 65664 := by
    by_cases hbefore : framePos s ≤ 65664
    · exact ⟨65664 - framePos s, by omega, by omega⟩
    · exact ⟨65664 + 70224 - framePos s, by omega, by omega⟩
  obtain ⟨a, ha, hainv, haon, hapos⟩ := runDots_spec k h hon
  have hbefore : a.presented = s.presented :=
    runDots_presented h hon (fun j hj => by rw [dotsPerFrame_eq]; omega) ha
  obtain ⟨b, hb, hafter⟩ := dotStep_handOff hainv haon (by rw [hapos, dotsPerFrame_eq, hpos])
  obtain ⟨b', hb', hbinv, hbon, hbpos⟩ := dotStep_spec hainv haon
  cases hb.symm.trans hb'
  obtain ⟨t, ht, htinv, -, htpos⟩ := runDots_spec (70224 - (k + 1)) hbinv hbon
  rw [dotsPerFrame_eq] at hapos hbpos htpos
  have hrest : t.presented = b.presented :=
    runDots_presented hbinv hbon (fun j hj => by rw [dotsPerFrame_eq]; omega) ht
  refine ⟨t, a.fb, ?_, htinv, by omega, by rw [hrest, hafter, hbefore]⟩
  rw [show 70224 = k + 1 + (70224 - (k + 1)) by omega, runDots_add, runDots_snoc ha hb]
  exact ht

/-- Settles O37: of the positions that a frame of dots runs through, one hands a frame over. -/
theorem oneHandOffPerFrame : Obligations.OneHandOffPerFrame := by
  intro s h hon
  obtain ⟨t, f, ht, htinv, hpos, hpresented⟩ := runDots_frame_handOff (returnNothing_inv h) hon
  obtain ⟨hly, hdot⟩ := position_of_framePos h.dot_lt htinv.dot_lt hpos
  exact ⟨t, f, congrArg outcomeOf ht, hly, hdot, hpresented⟩

end Sys2Proof.Machine
end

section
/-! PROOFS. The scanner's evaluation (spec/42_oam_scanner.md; O29, O40), the sprite check (O47) and the fetcher
(spec/43_bg_window_fetcher.md): the addresses it forms (O41, O42), what it reads (O43), its phases (O44), the drain of a
Push (O45) and the window's trigger (O46). -/

namespace Sys2Proof.Machine

/-! ### The scanner -/

theorem covers_iff (a : SpriteAttr) (ly : Byte) :
    a.covers ly = true ↔ a.y ≤ (ly.toNat : Int) ∧ (ly.toNat : Int) < a.y + a.height := by
  simp [SpriteAttr.covers]

/-- Settles O29: the even and the odd dots of the scan, and the test of the evaluation written out. -/
theorem oamScanDotEvaluates : Obligations.OamScanDotEvaluates := by
  intro s d hd
  obtain ⟨i, rfl | rfl⟩ := Nat.even_or_odd' d
  · have hdiv : 2 * i / 2 = i := by omega
    refine ⟨fun _ => ?_, fun hodd => absurd hodd (by omega)⟩
    rw [hdiv]
    exact oamScanDot_even (by omega) s
  · have hdiv : (2 * i + 1) / 2 = i := by omega
    refine ⟨fun heven => absurd heven (by omega), fun _ => ?_⟩
    rw [hdiv, oamScanDot_odd (by omega), evaluateSprite_eq]
    simp only [covers_iff]
    rfl

/-- Settles O40: the record's y is the raw y less 16. -/
theorem coversByRawY : Obligations.CoversByRawY := by
  intro s i
  have hy : (oamEntry s i).y = ((Memory.read s.oam (4 * i)).toNat : Int) - 16 := rfl
  have hheight : (oamEntry s i).height = if s.lcdc.getLsbD 2 then 16 else 8 := rfl
  have hiff : (oamEntry s i).covers s.ly = true ↔
      s.ly.toNat + 17 ≤ (Memory.read s.oam (4 * i)).toNat + (if s.lcdc.getLsbD 2 then 16 else 8) ∧
        (Memory.read s.oam (4 * i)).toNat ≤ s.ly.toNat + 16 := by
    rw [covers_iff, hy, hheight]
    omega
  refine ⟨hiff, fun hzero => Bool.eq_false_iff.2 fun hcov => ?_⟩
  have hraw : (Memory.read s.oam (4 * i)).toNat = 0 := congrArg BitVec.toNat hzero
  obtain ⟨hlow, -⟩ := hiff.1 hcov
  rw [hraw] at hlow
  split at hlow <;> omega

/-! ### The addresses -/

theorem tileMapBase_cases (b : Bool) : tileMapBase b = 0x9800 ∨ tileMapBase b = 0x9C00 := by
  cases b
  · exact .inl rfl
  · exact .inr rfl

/-- The row and the column of a tile are inside a map of 32 by 32 (R64, R124, R125). -/
theorem tileCoords_lt (s : State) (x : Nat) :
    ((tileCoords s x).base = 0x9800 ∨ (tileCoords s x).base = 0x9C00) ∧ (tileCoords s x).row < 32 ∧
      (tileCoords s x).col < 32 := by
  unfold tileCoords
  split
  · refine ⟨tileMapBase_cases _, Nat.mod_lt _ (by omega), ?_⟩
    simp only [windowCoords]
    omega
  · have hv := (s.scy + s.ly).isLt
    refine ⟨tileMapBase_cases _, ?_, Nat.mod_lt _ (by omega)⟩
    simp only [bgCoords]
    omega

/-- A tile-map address is not cut to 16 bits (R43, R64). -/
theorem mapAddr_toNat {t : TileCoords} (hbase : t.base = 0x9800 ∨ t.base = 0x9C00) (hrow : t.row < 32)
    (hcol : t.col < 32) : t.mapAddr.toNat = t.base + t.row * 32 + t.col := by
  unfold TileCoords.mapAddr
  rw [BitVec.toNat_ofNat]
  omega

/-- The tile-map address of a tile, from its coordinates (R123). -/
theorem tileCoords_mapAddr (s : State) (x : Nat) :
    (tileCoords s x).mapAddr.toNat = (tileCoords s x).base + (tileCoords s x).row * 32 + (tileCoords s x).col := by
  obtain ⟨hbase, hrow, hcol⟩ := tileCoords_lt s x
  exact mapAddr_toNat hbase hrow hcol

/-- The address after an address below 0xFFFF. -/
theorem addr_succ_toNat {a : Addr} (h : a.toNat < 0xFFFF) : (a + 1).toNat = a.toNat + 1 := by
  rw [BitVec.toNat_add]
  simp only [BitVec.ofNat_eq_ofNat, BitVec.toNat_ofNat]
  omega

/-- Settles O41: each address is a base plus bounded offsets; and no Tick faults at all. -/
theorem vramAddressesInRange : Obligations.VramAddressesInRange := by
  refine ⟨fun s x => ?_, fun u t line => ?_, fun a ly => ?_, fun s m a h hfault => ?_⟩
  · obtain ⟨hbase, hrow, hcol⟩ := tileCoords_lt s x
    exact ⟨_, _, _, hbase, hrow, hcol, tileCoords_mapAddr s x⟩
  · obtain ⟨hlow, hhigh⟩ := tileBase_range u t
    have hline := line.isLt
    omega
  · obtain ⟨hlow, hhigh⟩ := rowAddr_range a ly
    exact ⟨hlow, by omega, addr_succ_toNat (by omega)⟩
  · obtain ⟨t, ht⟩ := exec_tick_completes m h
    cases ht.symm.trans hfault

/-- Settles O42: the coordinates of the two layers, with the map address taken apart. -/
theorem getTileCoordinates : Obligations.GetTileCoordinates := by
  intro s x t
  have haddr : t.pipe.mapAddr.toNat = (tileCoords s x).base + (tileCoords s x).row * 32 + (tileCoords s x).col :=
    tileCoords_mapAddr s x
  have hline : t.pipe.tileLine = (tileCoords s x).line := rfl
  refine ⟨rfl, fun hin => ?_, fun hin => ?_⟩
  · have hcoords : tileCoords s x = windowCoords s x := if_pos hin
    rw [haddr, hline, hcoords]
    have hcol : ((windowCoords s x).col : Int) = ((x : Int) - ((s.wx.toNat : Int) - 7)) / 8 % 32 :=
      Int.toNat_of_nonneg (Int.emod_nonneg _ (by decide))
    have hbase : ((windowCoords s x).base : Int) = if s.lcdc.getLsbD 6 then 0x9C00 else 0x9800 := Nat.cast_ite ..
    refine ⟨?_, by simp [windowCoords]⟩
    rw [Nat.cast_add, Nat.cast_add, hcol, hbase, Nat.cast_mul]
    rfl
  · have hcoords : tileCoords s x = bgCoords s x := if_neg (by rw [hin]; nofun)
    have hsum : (s.scy + s.ly).toNat = (s.scy.toNat + s.ly.toNat) % 256 := BitVec.toNat_add ..
    rw [haddr, hline, hcoords]
    refine ⟨?_, ?_⟩
    · simp only [bgCoords, hsum]
      rfl
    · simp only [bgCoords, BitVec.extractLsb'_toNat, hsum, Nat.shiftRight_zero]

/-! ### The reads -/

/-- The tile data address in the second mode: the base 0x9000 and a signed index (R63). -/
theorem tileBase_signed (t : Byte) : (tileBase false t : Int) = 0x9000 + 16 * t.toInt := by
  have ht := t.isLt
  have hsum : (t + 128).toNat = (t.toNat + 128) % 256 := BitVec.toNat_add ..
  have hbase : tileBase false t = 0x8800 + 16 * ((t.toNat + 128) % 256) := hsum ▸ rfl
  rw [hbase, BitVec.toInt_eq_toNat_cond]
  push_cast
  split <;> omega

/-- Settles O43: both reads are at addresses inside VRAM. -/
theorem tileDataReads : Obligations.TileDataReads := by
  refine ⟨fun s hlow hhigh => ?_, fun s hlow hhigh => ?_, fun t => ⟨rfl, tileBase_signed t⟩⟩
  · obtain ⟨hbase, hbase'⟩ := tileBase_range s.tileData (Memory.read s.vram s.pipe.mapAddr.toNat)
    have hline := s.pipe.tileLine.isLt
    have haddr : (BitVec.ofNat 16 (tileBase s.tileData (Memory.read s.vram s.pipe.mapAddr.toNat) +
        2 * s.pipe.tileLine.toNat)).toNat = tileBase s.tileData (Memory.read s.vram s.pipe.mapAddr.toNat) +
        2 * s.pipe.tileLine.toNat := by
      rw [BitVec.toNat_ofNat]
      omega
    refine ⟨_, ?_, haddr.trans ?_⟩
    · unfold dataLowAction
      rw [readVram_ok ⟨hlow, hhigh⟩]
      simp only [bind, Except.bind]
      rw [readVram_ok (by rw [haddr]; omega)]
      rfl
    · rw [tileBase, BitVec.toNat_add]
      rfl
  · have hnext : (s.pipe.tileAddr + 1).toNat = s.pipe.tileAddr.toNat + 1 := addr_succ_toNat (by omega)
    unfold dataHighAction
    rw [readVram_ok (by omega), hnext]
    rfl

/-! ### The phases -/

/-- Settles O44: each phase on either of its dots. -/
theorem fetcherPhases : Obligations.FetcherPhases := by
  refine fun s => ⟨fetcherStep_first_dot, fun hph hdot => ?_, fun hph hdot t ht => ?_, fun hph hdot t ht => ?_,
    fun hph hdot => ?_, fun hph => ?_⟩
  all_goals simp only [fetcherStep, hph]
  · simp only [hdot, fetchPhaseDots, Nat.lt_irrefl, if_false]
  · simp only [hdot, fetchPhaseDots, Nat.lt_irrefl, if_false, ht]
    rfl
  · simp only [hdot, fetchPhaseDots, Nat.lt_irrefl, if_false, ht]
    rfl
  · simp only [hdot, fetchPhaseDots, Nat.lt_irrefl, if_false]

/-! ### The sprite check -/

/-- No fetch starts, and no sprite is passed over, while the next sprite of the list is not at the next pixel (R141). -/
theorem spriteCheck_waits {s : State}
    (h : ∀ a, s.sel[s.pipe.spPtr]? = some a → a.triggerX ≠ (s.pipe.pushX : Int)) : spriteCheck s = (false, s) := by
  unfold spriteCheck
  cases s.sel.length - s.pipe.spPtr with
  | zero => rfl
  | succ n =>
    rw [spriteCheckLoop]
    cases ha : s.sel[s.pipe.spPtr]? with
    | none => rfl
    | some a => exact if_neg (h a ha)

/-- The next sprite of the list starts its fetch at the next pixel (R140, R141). -/
theorem spriteCheck_starts {s : State} {a : SpriteAttr} (ha : s.sel[s.pipe.spPtr]? = some a)
    (htrig : a.triggerX = (s.pipe.pushX : Int)) (hobj : s.objEnable = true) :
    spriteCheck s =
      (true, { s with pipe.spPtr := s.pipe.spPtr + 1, pipe.sfetchCur := a, pipe.sfetchLeft := spriteFetchDots }) := by
  have hlt := (List.getElem?_eq_some_iff.1 ha).1
  obtain ⟨n, hn⟩ := Nat.exists_eq_succ_of_ne_zero (Nat.sub_ne_zero_of_lt hlt)
  rw [spriteCheck, hn, spriteCheckLoop]
  simp only [ha]
  exact (if_pos htrig).trans (if_pos hobj)

/-- While objects are disabled the sprite at the next pixel is passed over (R141). -/
theorem spriteCheck_passes_over {s : State} {a : SpriteAttr} (ha : s.sel[s.pipe.spPtr]? = some a)
    (htrig : a.triggerX = (s.pipe.pushX : Int)) (hobj : s.objEnable = false) :
    spriteCheck s = spriteCheck { s with pipe.spPtr := s.pipe.spPtr + 1 } := by
  have hlt := (List.getElem?_eq_some_iff.1 ha).1
  obtain ⟨n, hn⟩ := Nat.exists_eq_succ_of_ne_zero (Nat.sub_ne_zero_of_lt hlt)
  have hn' : s.sel.length - (s.pipe.spPtr + 1) = n := by omega
  rw [spriteCheck, spriteCheck, hn, spriteCheckLoop]
  simp only [ha, hn']
  exact (if_pos htrig).trans (if_neg (by rw [hobj]; nofun))

/-- Settles O47: the three things the check can do with the next sprite of the list. -/
theorem spriteCheckStartsFetch : Obligations.SpriteCheckStartsFetch := by
  refine ⟨fun s hlen => spriteCheck_waits fun a ha => ?_, fun s a ha => ⟨fun hne => spriteCheck_waits fun b hb => ?_,
    spriteCheck_starts ha, spriteCheck_passes_over ha⟩⟩
  · have hlt := (List.getElem?_eq_some_iff.1 ha).1
    omega
  · cases ha.symm.trans hb
    exact hne

/-! ### The drain of a Push -/

/-- The run that a Push drains: what a sprite fetch left of one, or the pixels of the fetched row (R129). -/
def pushRun (p : Pipeline) : List Colour := if p.run = [] then decodeRun p else p.run

/-- The run as the rules spell it: the row's eight pixels, leftmost first, less the discard on the line's first
background tile (R62, R129, R130). -/
theorem pushRun_eq (p : Pipeline) :
    pushRun p =
      if p.run = [] then
        ((List.range 8).map fun j => p.hi.extractLsb' (7 - j) 1 ++ p.lo.extractLsb' (7 - j) 1).drop
          (if p.fetchX = 0 ∧ p.inWindow = false then p.discard.toNat else 0)
      else p.run := by
  unfold pushRun decodeRun
  refine if_congr Iff.rfl ?_ rfl
  split <;> rfl

theorem pushRun_ne_nil (p : Pipeline) : pushRun p ≠ [] := by
  unfold pushRun
  split
  case isFalse hrun => exact hrun
  case isTrue =>
    have hlen := decodeRun_length p
    have hd := p.discard.isLt
    refine List.ne_nil_of_length_pos ?_
    rw [hlen]
    split <;> omega

/-- A Push drains its run (R129). -/
theorem pushStep_eq (s : State) :
    pushStep s = drainLoop (pushRun s.pipe).length { s with pipe.run := pushRun s.pipe } := by
  have hdecode : decodeIfEmpty s = { s with pipe.run := pushRun s.pipe } := by
    unfold decodeIfEmpty pushRun
    split <;> rfl
  unfold pushStep
  rw [hdecode]

/-- With the window triggered, disabled, not due on the line or still ahead, the window does not trigger (R131). -/
theorem windowTrigger_eq_false {s : State} (h : s.pipe.inWindow = true ∨ s.winEnable = false ∨ s.winLineOk = false ∨
    (s.pipe.pushX : Int) < (s.wx.toNat : Int) - 7) : windowTrigger s = false := by
  unfold windowTrigger
  obtain h | h | h | h := h
  · simp [h]
  · simp [h]
  · simp [h]
  · simp [Int.not_le.2 h]

theorem mem_drop_of_getElem? {α : Type} {l : List α} {k : Nat} {a : α} (h : l[k]? = some a) : a ∈ l.drop k :=
  List.mem_of_getElem? (i := 0) (by rw [List.getElem?_drop, Nat.add_zero, h])

/-- The loop drains `n` pixels and goes on, where the window triggers at none of them and no sprite stands at one (R129,
R131, R141). -/
theorem drainLoop_no_sprite (n k : Nat) (s : State) (hn : n ≤ s.pipe.run.length) (hx : s.pipe.pushX + n ≤ 160)
    (hl : s.pipe.pushX ≤ s.pipe.outputX + s.pipe.spFifo.length)
    (hw : s.pipe.inWindow = true ∨ s.winEnable = false ∨ s.winLineOk = false ∨
      (s.pipe.pushX : Int) + n ≤ (s.wx.toNat : Int) - 7)
    (hs : ∀ a ∈ s.sel.drop s.pipe.spPtr, (s.pipe.pushX : Int) + n ≤ a.triggerX) :
    drainLoop (n + k) s = drainLoop k (drained n s.pipe.spPtr s) := by
  induction n generalizing s with
  | zero => rw [drained_zero hl, Nat.zero_add]
  | succ n ih =>
    cases hr : s.pipe.run with
    | nil => simp [hr] at hn
    | cons c rest =>
      rw [hr, List.length_cons] at hn
      have hnw : windowTrigger s = false :=
        windowTrigger_eq_false (hw.imp id (Or.imp id (Or.imp id fun h => by omega)))
      have hsc : spriteCheck s = (false, s) := spriteCheck_waits fun a ha => by
        have := hs a (mem_drop_of_getElem? ha)
        omega
      have hstep : drainLoop (n + 1 + k) s = drainLoop (n + k) (drainOne c rest s) := by
        rw [Nat.add_right_comm, drainLoop]
        simp only [hr, hnw, hsc, screenW]
        rw [if_pos (by omega)]
        rfl
      rw [hstep, ih (drainOne c rest s) (Nat.le_of_succ_le_succ hn)]
      · exact congrArg (drainLoop k) (drained_drainOne hr hl n s.pipe.spPtr s.pipe.spPtr)
      · show s.pipe.pushX + 1 + n ≤ 160
        omega
      · simp only [drainOne, Fifo.pushBack]
        split
        · rw [List.length_append, List.length_singleton]
          omega
        · omega
      · refine hw.imp id (Or.imp id (Or.imp id fun h => ?_))
        show ((s.pipe.pushX + 1 : Nat) : Int) + n ≤ (s.wx.toNat : Int) - 7
        omega
      · intro a ha
        have := hs a ha
        show ((s.pipe.pushX + 1 : Nat) : Int) + n ≤ a.triggerX
        omega

/-- The loop ends the Push where the run or the screen ends (R129, R134). -/
theorem drainLoop_ends (k : Nat) {s : State} (h : s.pipe.run = [] ∨ 160 ≤ s.pipe.pushX) :
    drainLoop k s = restartFetch s := by
  cases k with
  | zero => rfl
  | succ k =>
    rw [drainLoop]
    cases hr : s.pipe.run with
    | nil => rfl
    | cons c rest =>
      have hx := h.resolve_left (by rw [hr]; nofun)
      exact if_neg (by simp only [screenW]; omega)

/-- The pixels drained have places up to the next pixel, so that the sprite FIFO ends no earlier (R36). -/
theorem FifoAligned.push_le_sp {p : Pipeline} (h : FifoAligned p) : p.pushX ≤ p.outputX + p.spFifo.length := by
  have hbg := h.bg_length
  have hle := h.bg_le_sp
  omega

/-- A Push whose loop drains its run as far as the screen goes ends there (R129, R134). -/
theorem pushStep_of_drained {s : State} {n k ptr : Nat} (hn : n = min (pushRun s.pipe).length (160 - s.pipe.pushX))
    (hk : (pushRun s.pipe).length = n + k)
    (hdrain : drainLoop (n + k) { s with pipe.run := pushRun s.pipe } =
      drainLoop k (drained n ptr { s with pipe.run := pushRun s.pipe })) :
    pushStep s = restartFetch (drained n ptr { s with pipe.run := pushRun s.pipe }) := by
  rw [pushStep_eq, hk, hdrain, drainLoop_ends]
  show (pushRun s.pipe).drop n = [] ∨ 160 ≤ s.pipe.pushX + n
  rw [List.drop_eq_nil_iff]
  omega

/-- A Push that neither the window nor a sprite stops drains its run as far as the screen goes (R129, R132, R134). -/
theorem pushStep_drains {s : State} (h : FifoAligned s.pipe) {n : Nat}
    (hn : n = min (pushRun s.pipe).length (160 - s.pipe.pushX))
    (hw : s.pipe.inWindow = true ∨ s.winEnable = false ∨ s.winLineOk = false ∨
      (s.pipe.pushX : Int) + n ≤ (s.wx.toNat : Int) - 7)
    (hs : ∀ a ∈ s.sel.drop s.pipe.spPtr, (s.pipe.pushX : Int) + n ≤ a.triggerX) :
    pushStep s = restartFetch (drained n s.pipe.spPtr { s with pipe.run := pushRun s.pipe }) := by
  have hle := h.push_le
  simp only [screenW] at hle
  obtain ⟨k, hk⟩ : ∃ k, (pushRun s.pipe).length = n + k := ⟨(pushRun s.pipe).length - n, by omega⟩
  exact pushStep_of_drained hn hk (drainLoop_no_sprite n k { s with pipe.run := pushRun s.pipe }
    (by rw [hk]; exact Nat.le_add_right n k) (by show s.pipe.pushX + n ≤ 160; omega) h.push_le_sp hw hs)

/-- Settles O45: neither check stops the loop before the run or the screen ends. -/
theorem pushDrainsTheRun : Obligations.PushDrainsTheRun := by
  intro s h run n hw hs
  have hrun : pushRun s.pipe = run := pushRun_eq s.pipe
  have hdrain := pushStep_drains h (n := n) (by rw [hrun]) hw hs
  rw [hrun] at hdrain
  exact hdrain

/-! ### The window's trigger -/

/-- The loop enters the window where it triggers before a pixel of the run (R129, R131). -/
theorem drainLoop_enterWindow {k : Nat} {s : State} (hrun : s.pipe.run ≠ []) (hx : s.pipe.pushX < 160)
    (hw : windowTrigger s = true) : drainLoop (k + 1) s = enterWindow s := by
  obtain ⟨c, rest, hr⟩ := List.exists_cons_of_ne_nil hrun
  rw [drainLoop]
  simp only [hr, screenW, hw]
  rw [if_pos hx]
  rfl

/-- When the window triggers (R131). -/
theorem windowTrigger_eq_true_iff {s : State} :
    windowTrigger s = true ↔ s.pipe.inWindow = false ∧ s.winEnable = true ∧ s.winLineOk = true ∧
      (s.wx.toNat : Int) - 7 ≤ (s.pipe.pushX : Int) := by
  simp only [windowTrigger, Bool.and_eq_true, Bool.not_eq_true', decide_eq_true_eq, and_assoc]

/-- A Push drains the pixels left of the window, no sprite fetch starting among them, and enters the window at the next
one (R129, R131). -/
theorem pushStep_enters {s : State} (h : FifoAligned s.pipe) {n : Nat} (hn : n < (pushRun s.pipe).length)
    (hx : s.pipe.pushX + n < 160) (hin : s.pipe.inWindow = false) (hen : s.winEnable = true) (hok : s.winLineOk = true)
    (hbefore : n = 0 ∨ (s.pipe.pushX : Int) + n ≤ (s.wx.toNat : Int) - 7)
    (hreached : (s.wx.toNat : Int) - 7 ≤ (s.pipe.pushX : Int) + n)
    (hs : s.objEnable = false ∨ ∀ a ∈ s.sel.drop s.pipe.spPtr, (s.pipe.pushX : Int) + n ≤ a.triggerX) :
    ∃ ptr, (s.objEnable = true → ptr = s.pipe.spPtr) ∧
      pushStep s = enterWindow (drained n ptr { s with pipe.run := pushRun s.pipe }) := by
  obtain ⟨k, hk⟩ : ∃ k, (pushRun s.pipe).length = n + (k + 1) := ⟨(pushRun s.pipe).length - n - 1, by omega⟩
  obtain ⟨ptr, hptr, hdrain⟩ := drainLoop_prefix n (k + 1) { s with pipe.run := pushRun s.pipe }
    (by rw [hk]; exact Nat.le_add_right n (k + 1)) (by show s.pipe.pushX + n ≤ 160; omega) h.push_le_sp
    (hbefore.imp id fun h => .inr (.inr (.inr h))) hs
  have hrest : (pushRun s.pipe).drop n ≠ [] := by
    rw [Ne, List.drop_eq_nil_iff]
    omega
  have htrigger : windowTrigger (drained n ptr { s with pipe.run := pushRun s.pipe }) = true := by
    refine windowTrigger_eq_true_iff.2 ⟨hin, hen, hok, ?_⟩
    show (s.wx.toNat : Int) - 7 ≤ ((s.pipe.pushX + n : Nat) : Int)
    omega
  refine ⟨ptr, hptr, ?_⟩
  rw [pushStep_eq, hk, hdrain, drainLoop_enterWindow hrest hx htrigger]

/-- The sprite check leaves the window's latch alone. -/
theorem spriteCheck_inWindow (s : State) : (spriteCheck s).2.pipe.inWindow = s.pipe.inWindow := by
  obtain ⟨k, -, -, -, -, h⟩ | ⟨a, -, -, -, h⟩ := spriteCheck_cases s <;> rw [h]

/-- Nothing in a Push clears the window's latch (R131). -/
theorem drainLoop_inWindow (n : Nat) {s : State} (h : s.pipe.inWindow = true) :
    (drainLoop n s).pipe.inWindow = true := by
  induction n generalizing s with
  | zero => exact h
  | succ n ih =>
    rw [drainLoop]
    split
    · exact h
    · split
      · split
        · rfl
        · have hcheck := spriteCheck_inWindow s
          split
          case h_1 t ht =>
            rw [ht] at hcheck
            exact hcheck.trans h
          case h_2 t ht =>
            rw [ht] at hcheck
            exact ih (hcheck.trans h)
      · exact h

theorem pushStep_inWindow {s : State} (h : s.pipe.inWindow = true) : (pushStep s).pipe.inWindow = true := by
  rw [pushStep_eq]
  exact drainLoop_inWindow _ h

theorem fetcherStep_inWindow {s t : State} (h : s.pipe.inWindow = true) (ht : fetcherStep s = .ok t) :
    t.pipe.inWindow = true := by
  unfold fetcherStep at ht
  split at ht
  case h_1 =>
    cases ht
    exact pushStep_inWindow h
  case h_2 => split at ht <;> cases ht <;> exact h
  case h_3 =>
    split at ht
    · cases ht
      exact h
    · obtain ⟨u, hu, ht⟩ := bind_eq_ok ht
      obtain ⟨_, _, hu⟩ := bind_eq_ok hu
      obtain ⟨_, _, hu⟩ := bind_eq_ok hu
      cases hu
      cases ht
      exact h
  case h_4 =>
    split at ht
    · cases ht
      exact h
    · obtain ⟨u, hu, ht⟩ := bind_eq_ok ht
      obtain ⟨_, _, hu⟩ := bind_eq_ok hu
      cases hu
      cases ht
      exact h
  case h_5 =>
    split at ht <;> cases ht
    · exact h
    · exact pushStep_inWindow h

/-- A column of the overlay changes the sprite FIFO only (R146). -/
theorem overlayColumn_frame {a : SpriteAttr} {lo hi : Byte} {c : Nat} {s t : State}
    (h : overlayColumn a lo hi c s = .ok t) : ∃ q, t = { s with pipe.spFifo := q } := by
  unfold overlayColumn at h
  simp only at h
  split at h
  · cases h
    exact ⟨s.pipe.spFifo, rfl⟩
  · split at h
    · cases h
    · split at h
      · split at h <;> cases h
        · exact ⟨_, rfl⟩
        · exact ⟨s.pipe.spFifo, rfl⟩
      · split at h
        · cases h
          exact ⟨_, rfl⟩
        · cases h

/-- The overlay changes the sprite FIFO only (R146). -/
theorem overlayColumns_frame {a : SpriteAttr} {lo hi : Byte} {l : List Nat} {s t : State}
    (h : overlayColumns a lo hi l s = .ok t) : ∃ q, t = { s with pipe.spFifo := q } := by
  induction l generalizing s with
  | nil =>
    cases h
    exact ⟨t.pipe.spFifo, rfl⟩
  | cons c cs ih =>
    obtain ⟨u, hu, h⟩ := bind_eq_ok h
    obtain ⟨q, rfl⟩ := overlayColumn_frame hu
    obtain ⟨r, rfl⟩ := ih h
    exact ⟨r, rfl⟩

/-- A dot of a sprite fetch changes its count and the sprite FIFO only, in every state (R121, R142). -/
theorem spriteStallDot_frame {s t : State} (h : spriteStallDot s = .ok t) :
    ∃ n q, t = { s with pipe.sfetchLeft := n, pipe.spFifo := q } := by
  unfold spriteStallDot at h
  simp only at h
  split at h
  · obtain ⟨_, _, h⟩ := bind_eq_ok h
    obtain ⟨_, _, h⟩ := bind_eq_ok h
    obtain ⟨q, rfl⟩ := overlayColumns_frame h
    exact ⟨_, q, rfl⟩
  · cases h
    exact ⟨_, s.pipe.spFifo, rfl⟩

/-- The mixer's dot changes the FIFOs, the output x and the frame buffer only, in every state (R152). -/
theorem mixerDot_fifos {s t : State} (h : mixerDot s = .ok t) :
    ∃ b q x f, t = { s with pipe.bgFifo := b, pipe.spFifo := q, pipe.outputX := x, fb := f } := by
  unfold mixerDot at h
  split at h
  · cases h
    exact ⟨s.pipe.bgFifo, s.pipe.spFifo, s.pipe.outputX, s.fb, rfl⟩
  · split at h
    · cases h
    · obtain ⟨u, hu, h⟩ := bind_eq_ok h
      unfold fbWrite at hu
      split at hu
      · cases hu
        cases h
        exact ⟨_, _, _, _, rfl⟩
      · cases hu

/-- No dot of the pipeline clears the window's latch, in any state (R131). -/
theorem pipelineDot_inWindow {s t : State} (h : s.pipe.inWindow = true) (ht : pipelineDot s = .ok t) :
    t.pipe.inWindow = true := by
  unfold pipelineDot at ht
  split at ht
  · cases ht
    exact h
  · split at ht
    · obtain ⟨n, q, rfl⟩ := spriteStallDot_frame ht
      exact h
    · obtain ⟨u, hu, ht⟩ := bind_eq_ok ht
      have hin := fetcherStep_inWindow h hu
      split at ht
      · cases ht
        exact hin
      · obtain ⟨b, q, x, f, rfl⟩ := mixerDot_fifos ht
        exact hin

/-- No dot of Draw clears the window's latch (R131). -/
theorem dotStep_draw_inWindow {s t : State} (hm : s.mode = .draw) (hdot : s.lineDot ≠ 0) (ht : dotStep s = .ok t)
    (h : s.pipe.inWindow = true) : t.pipe.inWindow = true := by
  cases hon : s.engineOn
  case false =>
    rw [dotStep, hon] at ht
    cases ht
    exact h
  case true =>
    rw [dotStep_inside hon hdot] at ht
    obtain ⟨u, hu, ht⟩ := bind_eq_ok ht
    obtain ⟨_, _, _, rfl⟩ := endOfDot_frame ht
    rw [modeDot, hm] at hu
    obtain ⟨v, hv, hu⟩ := bind_eq_ok hu
    have hin := pipelineDot_inWindow h hv
    cases hu
    unfold endDrawIfDone
    split
    · rw [requestIf_eq]
      exact hin
    · exact hin

/-- Settles O46: the drain up to the window's first pixel, and the window entered there; nothing in a Draw clears the
latch. -/
theorem windowTriggersOncePerLine : Obligations.WindowTriggersOncePerLine := by
  refine ⟨fun s => windowTrigger_eq_true_iff, fun s hx hw => ?_,
    fun s n h => ?_, fun s hin => windowTrigger_eq_false (.inl hin),
    fun s t hm hdot ht hin => dotStep_draw_inWindow hm hdot ht hin, fun s _ => rfl⟩
  · obtain ⟨k, hk⟩ := Nat.exists_eq_succ_of_ne_zero (List.length_pos_of_ne_nil (pushRun_ne_nil s.pipe)).ne'
    have henter := drainLoop_enterWindow (k := k) (s := { s with pipe.run := pushRun s.pipe })
      (pushRun_ne_nil s.pipe) hx hw
    rw [pushStep_eq, hk]
    exact henter.trans rfl
  · intro run hn hx hin hen hok hbefore hreached hs
    have hrun : pushRun s.pipe = run := pushRun_eq s.pipe
    obtain ⟨ptr, hptr, hpush⟩ := pushStep_enters h (hrun ▸ hn) hx hin hen hok hbefore hreached hs
    rw [hrun] at hpush
    exact ⟨ptr, hptr, hpush⟩

end Sys2Proof.Machine
end

section
/-! PROOFS. The sprite fetch (spec/44_sprite_fetcher.md; O48, O49, O50), the mixer's tables (spec/45_fifo_mixer.md; O51,
O52), and what a Tick leaves unchanged (O56, O57). -/

namespace Sys2Proof.Machine

/-! ### The dots of a sprite fetch -/

/-- The end of Draw changes the mode and the pending bits only (R104). -/
theorem endDrawIfDone_frame (s : State) : ∃ m i, endDrawIfDone s = { s with mode := m, iflag := i } := by
  unfold endDrawIfDone
  split
  · rw [requestIf_eq]
    exact ⟨_, _, rfl⟩
  · exact ⟨s.mode, s.iflag, rfl⟩

/-- A dot of Draw with pixels missing at its end only counts beside the pipeline's dot (R104). -/
theorem dotStep_draw_missing {s t : State} (hon : s.engineOn = true) (hm : s.mode = .draw)
    (hdot : s.lineDot ≠ 0 ∧ s.lineDot ≠ 455) (ht : pipelineDot s = .ok t) (ho : t.pipe.outputX ≠ 160) :
    dotStep s = .ok { t with drawDots := t.drawDots + 1, lineDot := s.lineDot + 1 } := by
  have hmore : endDrawIfDone { t with drawDots := t.drawDots + 1 } = { t with drawDots := t.drawDots + 1 } :=
    if_neg fun h => ho h.1
  rw [dotStep_draw hon hm hdot ht, hmore]

/-- A dot that starts a sprite fetch is the fetch's first: five are left, the Push holds its run, and no pixel is
written (R121, R142). -/
theorem dotStep_starts_fetch {s t : State} (h : Inv s) (hon : s.engineOn = true) (hm : s.mode = .draw)
    (hleft : s.pipe.sfetchLeft = 0) (ht : dotStep s = .ok t) (hpos : 0 < t.pipe.sfetchLeft) :
    ∃ p, t = { s with lineDot := s.lineDot + 1, drawDots := s.drawDots + 1, pipe := p } ∧ p.sfetchLeft = 5 ∧
      p.phase = .push ∧ p.run ≠ [] ∧ p.outputX = s.pipe.outputX ∧ s.pipe.outputX < 160 := by
  obtain ⟨-, hdot, hle, hdraw⟩ := h.draw_position hm
  have hinside : s.lineDot ≠ 0 ∧ s.lineDot ≠ 455 := by omega
  have hx : s.pipe.outputX ≤ 160 := by
    have hlen := hdraw.fifos.bg_length
    have hpush := hdraw.fifos.push_le
    simp only [screenW] at hpush
    omega
  by_cases ho : s.pipe.outputX = 160
  · cases (dotStep_draw hon hm hinside (if_pos ho : pipelineDot s = .ok s)).symm.trans ht
    obtain ⟨m, i, hend⟩ := endDrawIfDone_frame { s with drawDots := s.drawDots + 1 }
    rw [hend] at hpos
    exact absurd hpos (by simp [hleft])
  · obtain ⟨p, hp, hout, -, ⟨hp0, -⟩ | ⟨hp6, -, hfetcher, -⟩⟩ := fetcherStep_legal s hdraw (by omega) hleft
    · have hpipe := pipelineDot_after_fetcherStep ho hleft hp
      rw [if_neg (by simp [hp0])] at hpipe
      cases hmix : mixerDot { s with pipe := p } with
      | error e =>
        have herr : modeDot s = .error e := by
          rw [modeDot, hm]
          simp only [drawDot, hpipe, hmix]
          rfl
        rw [dotStep_inside hon hinside.1, herr] at ht
        cases ht
      | ok u =>
        rw [hmix] at hpipe
        obtain ⟨b, q, x, f, rfl⟩ := mixerDot_fifos hmix
        cases (dotStep_draw hon hm hinside hpipe).symm.trans ht
        obtain ⟨m, i, hend⟩ := endDrawIfDone_frame { s with
          pipe := { p with bgFifo := b, spFifo := q, outputX := x }, fb := f, drawDots := s.drawDots + 1 }
        rw [hend] at hpos
        exact absurd hpos (by simp [hp0])
    · have hphase : p.phase = .push := by
        by_contra hne
        have := (hfetcher.run_nil hne).2
        rw [hp6] at this
        cases this
      have hpipe := pipelineDot_after_fetcherStep ho hleft hp
      rw [if_pos (by simp [hp6])] at hpipe
      cases (dotStep_draw_missing hon hm hinside hpipe (by simpa [hout] using ho)).symm.trans ht
      exact ⟨{ p with sfetchLeft := p.sfetchLeft - 1 }, rfl, by simp [hp6], hphase, (hfetcher.run_held hphase).1, hout,
        by omega⟩

/-- While a sprite fetch is in progress, its dot is the pipeline's (R121). -/
theorem pipelineDot_fetching {s : State} (ho : s.pipe.outputX ≠ 160) (hleft : 0 < s.pipe.sfetchLeft) :
    pipelineDot s = spriteStallDot s := by
  rw [pipelineDot, if_neg ho, if_pos hleft]

/-- `s` with `k` more dots of its sprite fetch done. -/
def fetchDots (k : Nat) (s : State) : State :=
  { s with lineDot := s.lineDot + k, drawDots := s.drawDots + k, pipe.sfetchLeft := s.pipe.sfetchLeft - k }

/-- The dots of a fetch in progress but the last change its count only (R121, R142). -/
theorem runDots_fetching {s : State} (hon : s.engineOn = true) (hm : s.mode = .draw) (ho : s.pipe.outputX ≠ 160)
    (hpos : s.lineDot ≠ 0) {k : Nat} (hk : k < s.pipe.sfetchLeft) (hend : s.lineDot + k ≤ 455) :
    runDots k s = .ok (fetchDots k s) := by
  induction k with
  | zero => rfl
  | succ k ih =>
    have hleft : (fetchDots k s).pipe.sfetchLeft = s.pipe.sfetchLeft - k := rfl
    have hdot : (fetchDots k s).lineDot = s.lineDot + k := rfl
    have hstall : pipelineDot (fetchDots k s) =
        .ok { fetchDots k s with pipe.sfetchLeft := (fetchDots k s).pipe.sfetchLeft - 1 } := by
      refine (pipelineDot_fetching (s := fetchDots k s) ho (by omega)).trans (if_neg ?_)
      show (fetchDots k s).pipe.sfetchLeft - 1 ≠ 0
      omega
    exact runDots_snoc (ih (by omega) (by omega))
      (dotStep_draw_missing (s := fetchDots k s) hon hm (by omega) hstall ho)

/-- A column of the overlay reads and changes the pipeline only (R146). -/
theorem overlayColumn_setPipe (t : State) {a : SpriteAttr} {lo hi : Byte} {c : Nat} {s u : State}
    (h : overlayColumn a lo hi c s = .ok u) :
    overlayColumn a lo hi c { t with pipe := s.pipe } = .ok { t with pipe := u.pipe } := by
  unfold overlayColumn at h ⊢
  simp only at h ⊢
  split at h
  case isTrue hoff =>
    cases h
    rw [if_pos hoff]
  case isFalse hoff =>
    rw [if_neg hoff]
    split at h
    case isTrue => cases h
    case isFalse hpos =>
      rw [if_neg hpos]
      split at h
      case h_1 old hold =>
        split at h
        case isTrue hyield =>
          cases h
          rw [if_pos hyield]
        case isFalse hyield =>
          cases h
          rw [if_neg hyield]
      case h_2 hold =>
        split at h
        case isTrue hlen =>
          cases h
          rw [if_pos hlen]
        case isFalse => cases h

/-- The overlay reads and changes the pipeline only (R146). -/
theorem overlayColumns_setPipe (t : State) {a : SpriteAttr} {lo hi : Byte} {l : List Nat} {s u : State}
    (h : overlayColumns a lo hi l s = .ok u) :
    overlayColumns a lo hi l { t with pipe := s.pipe } = .ok { t with pipe := u.pipe } := by
  induction l generalizing s with
  | nil =>
    cases h
    rfl
  | cons c cs ih =>
    obtain ⟨v, hv, h⟩ := bind_eq_ok h
    rw [overlayColumns, overlayColumn_setPipe t hv]
    exact ih h

/-- The end of a sprite fetch reads the pipeline, LY and the two bytes of the sprite's row (R143 to R146). -/
theorem spriteFetchComplete_congr {s t u : State} (h : spriteFetchComplete s = .ok u) (hpipe : t.pipe = s.pipe)
    (hly : t.ly = s.ly)
    (hlow : Memory.read t.vram (s.pipe.sfetchCur.rowAddr s.ly).toNat =
      Memory.read s.vram (s.pipe.sfetchCur.rowAddr s.ly).toNat)
    (hhigh : Memory.read t.vram ((s.pipe.sfetchCur.rowAddr s.ly).toNat + 1) =
      Memory.read s.vram ((s.pipe.sfetchCur.rowAddr s.ly).toNat + 1)) :
    spriteFetchComplete t = .ok { t with pipe := u.pipe } := by
  obtain ⟨hmin, hmax⟩ := rowAddr_range s.pipe.sfetchCur s.ly
  have hnext := addr_succ_toNat (a := s.pipe.sfetchCur.rowAddr s.ly) (by omega)
  unfold spriteFetchComplete at h ⊢
  simp only [hpipe, hly] at h ⊢
  rw [readVram_ok (by omega), readVram_ok (by omega), hnext] at h ⊢
  rw [hlow, hhigh]
  have hrow := overlayColumns_setPipe t h
  have ht : { t with pipe := s.pipe } = t := by rw [← hpipe]
  rw [ht] at hrow
  refine hrow.trans ?_
  rw [hly]

/-- The last dot of a sprite fetch gives the sprite FIFO the sprite's pixels (R121, R142). -/
theorem dotStep_fetched {s u : State} (hon : s.engineOn = true) (hm : s.mode = .draw)
    (hdot : s.lineDot ≠ 0 ∧ s.lineDot ≠ 455) (ho : s.pipe.outputX ≠ 160) (hleft : s.pipe.sfetchLeft = 1)
    (hu : spriteFetchComplete { s with pipe.sfetchLeft := 0 } = .ok u) :
    dotStep s = .ok { u with drawDots := u.drawDots + 1, lineDot := s.lineDot + 1 } := by
  have hpipe : pipelineDot s = .ok u := by
    rw [pipelineDot_fetching ho (by omega), spriteStallDot, hleft]
    exact (if_pos rfl).trans hu
  have hout : u.pipe.outputX = s.pipe.outputX := by
    obtain ⟨_, _, hu⟩ := bind_eq_ok hu
    obtain ⟨_, _, hu⟩ := bind_eq_ok hu
    obtain ⟨q, rfl⟩ := overlayColumns_frame hu
    rfl
  exact dotStep_draw_missing hon hm hdot hpipe (hout.trans_ne ho)

/-- Settles O48: the first dot of the fetch, the four that only count, and the last with the overlay. -/
theorem spriteFetchTakesSixDots : Obligations.SpriteFetchTakesSixDots := by
  intro s t h hon hm hleft ht hpos
  obtain ⟨t', ht', hinv, -⟩ := dotStep_spec h hon
  cases ht'.symm.trans ht
  obtain ⟨p, rfl, hp5, hphase, hrun, hout, hx⟩ := dotStep_starts_fetch h hon hm hleft ht hpos
  obtain ⟨-, hdot, hle, hdraw⟩ := hinv.draw_position hm
  have ho : p.outputX ≠ 160 := by omega
  have hfetching : ∀ k, k ≤ 4 → runDots k { s with
      lineDot := s.lineDot + 1, drawDots := s.drawDots + 1, pipe := p } = .ok (fetchDots k { s with
      lineDot := s.lineDot + 1, drawDots := s.drawDots + 1, pipe := p }) := fun k hk =>
    runDots_fetching (s := { s with lineDot := s.lineDot + 1, drawDots := s.drawDots + 1, pipe := p }) hon hm ho
      (Nat.succ_ne_zero _) (by simp only [hp5]; omega) (by simp only at hdot hle ⊢; omega)
  refine ⟨hp5, hphase, hrun, hout, rfl, fun k hk => ?_, ?_⟩
  · rw [hfetching k hk, fetchDots]
    simp only [hp5]
  · have hbg := hdraw.fifos.bg_length
    have hsp := hdraw.fifos.push_le_sp
    obtain ⟨-, htrig⟩ := hdraw.sprites.fetching hpos
    obtain ⟨q, hq, -⟩ := spriteFetchComplete_spec
      { s with lineDot := s.lineDot + 1, drawDots := s.drawDots + 1, pipe := { p with sfetchLeft := 0 } }
      (by simp only at htrig hbg ⊢; omega) (by simp only at htrig hsp ⊢; omega) hdraw.fifos.sp_le
    refine ⟨_, q, hq, rfl, runDots_snoc (hfetching 4 le_rfl) ?_⟩
    have hq' := spriteFetchComplete_congr
      (t := { fetchDots 4 { s with lineDot := s.lineDot + 1, drawDots := s.drawDots + 1, pipe := p } with
        pipe.sfetchLeft := 0 }) hq rfl rfl rfl rfl
    simp only at hdot hle
    exact dotStep_fetched (s := fetchDots 4 { s with
      lineDot := s.lineDot + 1, drawDots := s.drawDots + 1, pipe := p }) hon hm (by simp only [fetchDots]; omega) ho
      (by simp only [fetchDots, hp5]) hq'

/-- Settles O49: the address is not cut to 16 bits. -/
theorem spriteRowAddress : Obligations.SpriteRowAddress := by
  intro a ly line _ hlt hline
  have hline' : a.line ly = (line : Int) := hline.symm
  have htile := (a.tileFor (a.line ly)).isLt
  have hmod : ((line : Int) % 8).toNat = line % 8 := by omega
  have haddr : (a.rowAddr ly).toNat = 0x8000 + 16 * (a.tileFor (a.line ly)).toNat + 2 * (line % 8) := by
    unfold SpriteAttr.rowAddr
    simp only [tileDataBaseUnsigned, BitVec.toNat_ofNat, hline', hmod] at htile ⊢
    omega
  rw [haddr, hline', SpriteAttr.tileFor]
  simp only [Nat.cast_lt_ofNat]

/-- Settles O50: the slots of the merged FIFO, with the sprite's columns counted from its left edge. -/
theorem spriteOverlayMerges : Obligations.SpriteOverlayMerges := by
  intro s h htrig a lo hi
  have hbg := h.bg_length
  have hsp := h.push_le_sp
  have hlen := h.sp_le
  simp only [screenW] at hlen
  have htrig' : s.pipe.sfetchCur.triggerX = (s.pipe.pushX : Int) := htrig
  obtain ⟨q, hq, -, -, hslots⟩ := spriteFetchComplete_spec s (by omega) (by omega) hlen
  refine ⟨q, hq, fun k c hc hx hk => ?_, fun k hout => ?_⟩
  · have hcol : (((s.pipe.outputX + k : Nat) : Int) - a.x).toNat = c := by omega
    have hnew : overlayPixel a lo hi (s.pipe.outputX + k) =
        .pixel (planeColour lo hi (if a.xflip then c else 7 - c)) (if a.pal then .obj1 else .obj0) a.oam a.bgPrio
          (s.pipe.outputX + k) := by
      rw [overlayPixel, hcol]
      rfl
    have hx' : s.pipe.sfetchCur.x + c = ((s.pipe.outputX + k : Nat) : Int) := hx
    refine (hslots k).trans ((if_pos ⟨by omega, by omega, hk⟩).trans (congrArg some ?_))
    cases s.pipe.spFifo[k]? with
    | none => exact hnew
    | some old =>
      cases old with
      | blank x => exact hnew
      | pixel col pal oam prio x =>
        show (if decide (a.oam < oam) = true then overlayPixel a lo hi (s.pipe.outputX + k)
          else .pixel col pal oam prio x) = _
        rw [hnew]
        simp only [decide_eq_true_eq]
        rfl
  · rw [hslots k, if_neg]
    rintro ⟨h1, h2, h3⟩
    obtain hout | hout | hout := hout
    · exact absurd h1 (Int.not_le.2 hout)
    · exact absurd h2 (Int.not_lt.2 hout)
    · omega

/-! ### The mixer's tables -/

/-- Settles O51: the cases of the arbiter. -/
theorem priorityArbiter : Obligations.PriorityArbiter := by
  intro en bg x
  refine ⟨fun hblank => ?_, fun hb hen => ?_, fun c pal oam prio => ⟨fun hblank => ?_, fun hb hen hbg => ?_,
    fun hb hen hc hsp => ?_⟩⟩
  · obtain h | h := hblank <;> simp [mix, h]
  · simp [mix, hb, hen]
  · obtain h | h := hblank <;> simp [mix, h]
  · simp only [mix, hb, hen, Bool.not_true, Bool.or_self, Bool.false_eq_true, if_false, if_pos hbg]
  · have hnot : ¬(c = 0 ∨ (prio = true ∧ bg.color ≠ 0)) := by
      rintro (h0 | ⟨hprio, hcol⟩)
      · exact hc h0
      · obtain h | h := hsp
        · rw [h] at hprio
          cases hprio
        · exact hcol h
    simp only [mix, hb, hen, Bool.not_true, Bool.or_self, Bool.false_eq_true, if_false, if_neg hnot]

/-- Settles O52: the shade is two bits of the register. -/
theorem paletteSamples : Obligations.PaletteSamples := by
  intro s c pal p
  have hp : s.paletteReg pal = p := by cases pal <;> rfl
  have hshade : (shadeOf p c).toNat = p.toNat / 2 ^ (2 * c.toNat) % 4 := by
    rw [shadeOf, BitVec.extractLsb'_toNat, Nat.shiftRight_eq_div_pow]
  refine ⟨?_, rfl⟩
  show sampleTable (shadeOf (s.paletteReg pal) c) = _
  rw [hp, sampleTable, hshade] <;> rfl

/-! ### What a Tick leaves unchanged -/

/-- A mask of the two request bits has no other bit (R163). -/
theorem getLsbD_of_and_mask {m : Byte} (hm : m &&& 0xFC#8 = 0) {k : Nat} (hk : 2 ≤ k) : m.getLsbD k = false := by
  by_cases hlt : k < 8
  · have hbit : (0xFC#8).getLsbD k = true := by interval_cases k <;> rfl
    have hand := congrArg (·.getLsbD k) hm
    simpa only [BitVec.getLsbD_and, hbit, Bool.and_true, BitVec.ofNat_eq_ofNat, BitVec.getLsbD_zero] using hand
  · exact BitVec.getLsbD_of_ge m k (by omega)

/-- Settles O56: each dot keeps the registers and the memories, and only sets request bits. -/
theorem tickFrame : Obligations.TickFrame := by
  intro m s t h
  have hkept := runDots_kept (runDots_of_exec_tick h)
  obtain ⟨mask, hmask, hflag⟩ := hkept.iflag
  have hflag' : t.iflag = s.iflag ||| mask := hflag
  refine ⟨hkept.lcdc, hkept.lycInt, hkept.oamInt, hkept.vblankInt, hkept.hblankInt, hkept.scy, hkept.scx, hkept.lyc,
    hkept.bgp, hkept.obp0, hkept.obp1, hkept.wy, hkept.wx, hkept.engineOn, hkept.pending, hkept.returned,
    fun _ => congrArg (Memory.read · _) hkept.vram, fun _ => congrArg (Memory.read · _) hkept.oam, fun k hk => ?_,
    fun k hk => ?_⟩
  · rw [hflag', BitVec.getLsbD_or, hk, Bool.true_or]
  · rw [hflag', BitVec.getLsbD_or, getLsbD_of_and_mask hmask hk, Bool.or_false]

/-! ### The bytes a dot may write -/

/-- A byte other than the one written reads as before. -/
theorem fb_read_write_other {f : FrameBuffer} {i j : Nat} {v : Byte} (h : j ≠ i) :
    FrameBuffer.read (FrameBuffer.write f i v) j = FrameBuffer.read f j := by
  rw [fb_read_write, if_neg h]

/-- A dot of Draw writes at most the byte of the next pixel to come out (R152, R159). -/
theorem dotStep_draw_fb {s t : State} {i : Nat} (ht : dotStep s = .ok t) (hdot : s.lineDot ≠ 0) (hm : s.mode = .draw)
    (hi : i ≠ s.ly.toNat * 160 + s.pipe.outputX) : FrameBuffer.read t.fb i = FrameBuffer.read s.fb i := by
  cases hon : s.engineOn with
  | false =>
    rw [dotStep, hon] at ht
    cases ht
    rfl
  | true =>
    rw [dotStep_inside hon hdot] at ht
    obtain ⟨u, hu, ht⟩ := bind_eq_ok ht
    obtain ⟨_, _, _, rfl⟩ := endOfDot_frame ht
    rw [modeDot, hm] at hu
    obtain ⟨v, hv, hu⟩ := bind_eq_ok hu
    cases hu
    obtain ⟨p, f, rfl, hf⟩ := pipelineDot_frame hv
    obtain ⟨m, b, hend⟩ := endDrawIfDone_frame { s with pipe := p, fb := f, drawDots := s.drawDots + 1 }
    rw [hend]
    obtain rfl | ⟨v, rfl⟩ := hf
    · rfl
    · exact fb_read_write_other hi

/-- Outside Draw the mode's dot writes no byte (R159). -/
theorem modeDot_fb {s t : State} (hm : s.mode ≠ .draw) (h : modeDot s = .ok t) : t.fb = s.fb := by
  unfold modeDot at h
  split at h
  case h_1 =>
    obtain ⟨u, hu, h⟩ := bind_eq_ok h
    obtain ⟨y, x, l, rfl⟩ := oamScanDot_scanner hu
    cases h
    split <;> rfl
  case h_2 hdraw => exact absurd hdraw hm
  case h_3 =>
    cases h
    rfl
  case h_4 =>
    cases h
    rfl

/-- The line start leaves the frame buffer alone (R99 to R102). -/
theorem lineStart_fb (s : State) : (lineStart s).fb = s.fb := by
  obtain hly | hly | hly := lt_trichotomy s.ly.toNat 144
  · rw [lineStart_visible_eq hly]
  · rw [lineStart_144_eq hly]
  · rw [lineStart_later_eq hly]

theorem lineStartIfDue_fb (s : State) : (lineStartIfDue s).fb = s.fb := by
  unfold lineStartIfDue
  split
  · exact lineStart_fb s
  · rfl

/-- No line starts in Draw (R98, R109). -/
theorem Inv.lineStart_mode {s : State} (h : Inv s) (hdot : s.lineDot = 0) : (lineStart s).mode ≠ .draw := by
  obtain hly | hly | hly := lt_trichotomy s.ly.toNat 144
  · rw [lineStart_visible_eq hly]
    nofun
  · rw [lineStart_144_eq hly]
    nofun
  · rw [lineStart_later_eq hly]
    intro hm
    obtain ⟨-, hpos, -⟩ := h.draw_position hm
    omega

/-- A dot whose mode is not Draw writes no byte (R159). -/
theorem dotStep_fb_of_mode {s t : State} (ht : dotStep s = .ok t) (hm : (lineStartIfDue s).mode ≠ .draw) :
    t.fb = s.fb := by
  unfold dotStep at ht
  split at ht
  case isFalse =>
    cases ht
    rfl
  case isTrue =>
    obtain ⟨u, hu, ht⟩ := bind_eq_ok ht
    obtain ⟨_, _, _, rfl⟩ := endOfDot_frame ht
    exact (modeDot_fb hm hu).trans (lineStartIfDue_fb s)

/-- A dot that begins a line or is outside Draw writes no byte (R159). -/
theorem dotStep_fb {s t : State} (ht : dotStep s = .ok t) (hm : s.lineDot = 0 ∨ s.mode ≠ .draw) (h : Inv s) :
    t.fb = s.fb := by
  refine dotStep_fb_of_mode ht ?_
  by_cases hdot : s.lineDot = 0
  · have hdue : lineStartIfDue s = lineStart s := if_pos hdot
    rw [hdue]
    exact h.lineStart_mode hdot
  · rw [lineStartIfDue_inside hdot]
    exact hm.resolve_left hdot

/-- A dot writes no byte of another line, and none in VBlank (R159). -/
theorem dotStep_fb_line {s t : State} {i : Nat} (h : Inv s) (ht : dotStep s = .ok t)
    (hi : 144 ≤ s.ly.toNat ∨ i < s.ly.toNat * 160 ∨ s.ly.toNat * 160 + 160 ≤ i) :
    FrameBuffer.read t.fb i = FrameBuffer.read s.fb i := by
  by_cases hm : s.lineDot ≠ 0 ∧ s.mode = .draw
  · obtain ⟨hdot, hm⟩ := hm
    by_cases ho : s.pipe.outputX = 160
    · obtain ⟨hly, hpos, hle, -⟩ := h.draw_position hm
      cases hon : s.engineOn with
      | false =>
        rw [dotStep, hon] at ht
        cases ht
        rfl
      | true =>
        cases (dotStep_draw hon hm (by omega) (if_pos ho : pipelineDot s = .ok s)).symm.trans ht
        obtain ⟨m, b, hend⟩ := endDrawIfDone_frame { s with drawDots := s.drawDots + 1 }
        rw [hend]
    · obtain ⟨hly, -, -, hdraw⟩ := h.draw_position hm
      have hlen := hdraw.fifos.bg_length
      have hpush := hdraw.fifos.push_le
      simp only [screenW] at hpush
      exact dotStep_draw_fb ht hdot hm (by omega)
  · rw [dotStep_fb ht (by tauto) h]

/-- Within a line no byte of another line is written, and none in VBlank (R159). -/
theorem runDots_fb_line {s t : State} {n i : Nat} (h : Inv s) (ht : runDots n s = .ok t) (hend : s.lineDot + n ≤ 456)
    (hi : 144 ≤ s.ly.toNat ∨ i < s.ly.toNat * 160 ∨ s.ly.toNat * 160 + 160 ≤ i) :
    FrameBuffer.read t.fb i = FrameBuffer.read s.fb i := by
  cases hon : s.engineOn with
  | false =>
    cases (runDots_off hon).symm.trans ht
    rfl
  | true =>
    induction n generalizing s with
    | zero =>
      cases ht
      rfl
    | succ n ih =>
      obtain ⟨u, hu, ht⟩ := bind_eq_ok ht
      have hfb := dotStep_fb_line h hu hi
      cases n with
      | zero =>
        cases ht
        exact hfb
      | succ n =>
        obtain ⟨u', hu', hinv, huon, hpos⟩ := dotStep_spec h hon
        cases hu'.symm.trans hu
        have hly := dotStep_ly hu (by omega)
        have hlt := h.ly_lt
        simp only [framePos, hly, dotsPerFrame_eq, dotsPerLine, linesPerFrame] at hpos hlt
        rw [← hfb]
        exact ih hinv ht (by omega) (hly ▸ hi) huon

/-- Settles O57: the bytes of a dot of Draw, of another dot, and of a Tick within the line. -/
theorem tickWritesOnlyItsLine : Obligations.TickWritesOnlyItsLine :=
  ⟨fun _ _ _ ht hdot hm hi => dotStep_draw_fb ht hdot hm hi, fun _ _ ht hm h => dotStep_fb ht hm h,
    fun _ s _ _ h ht hend hi =>
      runDots_fb_line (s := returnNothing s) (returnNothing_inv h) (runDots_of_exec_tick ht) hend hi⟩

end Sys2Proof.Machine
end

section
/-! PROOFS. Independence: what a dot reads of the palettes, the frame buffer and the memories (spec/45_fifo_mixer.md,
spec/20_memory.md section 3; O58, O59). -/

namespace Sys2Proof.Machine

/-! ### States with other contents -/

/-- The parts of the state that decide no timing by themselves: LCDC, the palettes, the frames and the memories. -/
structure Contents where
  lcdc : Byte
  bgp : Byte
  obp0 : Byte
  obp1 : Byte
  fb : FrameBuffer
  presented : List FrameBuffer
  vram : Memory
  oam : Memory

/-- `s` with other contents. -/
def withContents (c : Contents) (s : State) : State :=
  { s with lcdc := c.lcdc, bgp := c.bgp, obp0 := c.obp0, obp1 := c.obp1, fb := c.fb, presented := c.presented,
           vram := c.vram, oam := c.oam }

/-- LCDC agrees with that of `s` in every bit but `LCDC.BG_WIN_ENABLE`. -/
def SameSwitches (c : Contents) (s : State) : Prop := ∀ k, 1 ≤ k → c.lcdc.getLsbD k = s.lcdc.getLsbD k

/-- All that decides the samples written, and the frame buffer, agree with those of `s` (R154, R157). -/
structure SameSamples (c : Contents) (s : State) : Prop where
  lcdc : c.lcdc = s.lcdc
  bgp : c.bgp = s.bgp
  obp0 : c.obp0 = s.obp0
  obp1 : c.obp1 = s.obp1
  fb : c.fb = s.fb

/-- The switches stay through any dots (R47). -/
theorem SameSwitches.of_kept {c : Contents} {s t : State} (h : SameSwitches c s) (hkept : Kept s t) :
    SameSwitches c t := fun k hk => (h k hk).trans (congrArg (·.getLsbD k) hkept.lcdc.symm)

/-! ### The fetcher -/

theorem spriteCheckLoop_withContents {c : Contents} (n : Nat) {s : State} (h : SameSwitches c s) :
    spriteCheckLoop n (withContents c s) =
      ((spriteCheckLoop n s).1, withContents c (spriteCheckLoop n s).2) := by
  induction n generalizing s with
  | zero => rfl
  | succ n ih =>
    have hobj : (withContents c s).objEnable = s.objEnable := h 1 le_rfl
    have hsel : (withContents c s).sel[(withContents c s).pipe.spPtr]? = s.sel[s.pipe.spPtr]? := rfl
    rw [spriteCheckLoop, spriteCheckLoop, hsel, hobj]
    cases s.sel[s.pipe.spPtr]? with
    | none => rfl
    | some a =>
      simp only
      by_cases htrig : a.triggerX = (s.pipe.pushX : Int)
      · rw [if_pos htrig, if_pos (show a.triggerX = ((withContents c s).pipe.pushX : Int) from htrig)]
        cases s.objEnable with
        | true => rfl
        | false => exact ih (s := { s with pipe.spPtr := s.pipe.spPtr + 1 }) h
      · rw [if_neg htrig, if_neg (show ¬ a.triggerX = ((withContents c s).pipe.pushX : Int) from htrig)]

theorem spriteCheck_withContents {c : Contents} {s : State} (h : SameSwitches c s) :
    spriteCheck (withContents c s) = ((spriteCheck s).1, withContents c (spriteCheck s).2) :=
  spriteCheckLoop_withContents _ h

theorem windowTrigger_withContents {c : Contents} {s : State} (h : SameSwitches c s) :
    windowTrigger (withContents c s) = windowTrigger s := by
  have hwin : (withContents c s).winEnable = s.winEnable := h 5 (by decide)
  rw [windowTrigger, hwin]
  rfl

theorem drainLoop_withContents {c : Contents} (n : Nat) {s : State} (h : SameSwitches c s) :
    drainLoop n (withContents c s) = withContents c (drainLoop n s) := by
  induction n generalizing s with
  | zero => rfl
  | succ n ih =>
    rw [drainLoop, drainLoop, windowTrigger_withContents h, spriteCheck_withContents h]
    have hrun : (withContents c s).pipe.run = s.pipe.run := rfl
    rw [hrun]
    cases s.pipe.run with
    | nil => rfl
    | cons colour rest =>
      simp only
      by_cases hx : s.pipe.pushX < screenW
      · rw [if_pos hx, if_pos (show (withContents c s).pipe.pushX < screenW from hx)]
        cases windowTrigger s with
        | true => rfl
        | false =>
          obtain ⟨p, hp⟩ := spriteCheckLoop_pipe (s.sel.length - s.pipe.spPtr) s
          cases hcheck : spriteCheck s with
          | mk b t =>
            have ht : t = { s with pipe := p } := (congrArg Prod.snd hcheck.symm).trans hp
            cases b with
            | true => rfl
            | false => exact ih (s := drainOne colour rest t) (by rw [ht]; exact h)
      · rw [if_neg hx, if_neg (show ¬ (withContents c s).pipe.pushX < screenW from hx)]
        rfl

theorem pushStep_withContents {c : Contents} {s : State} (h : SameSwitches c s) :
    pushStep (withContents c s) = withContents c (pushStep s) := by
  rw [pushStep_eq, pushStep_eq]
  exact drainLoop_withContents _ (s := { s with pipe.run := pushRun s.pipe }) h

theorem tileCoords_withContents {c : Contents} {s : State} (h : SameSwitches c s) (x : Nat) :
    tileCoords (withContents c s) x = tileCoords s x := by
  have hwin : (withContents c s).winMap = s.winMap := h 6 (by decide)
  have hbg : (withContents c s).bgMap = s.bgMap := h 3 (by decide)
  simp only [tileCoords, windowCoords, bgCoords, hwin, hbg]
  rfl

/-- The VRAM addresses that the pipeline's dot reads (R53, R126, R127, R144): a read is made in the second dot of
DataLow or of DataHigh, or in the last dot of a sprite fetch. -/
inductive PipelineReads (s : State) : Nat → Prop where
  | index (hphase : s.pipe.phase = .dataLow) (hdot : s.pipe.phaseDot ≠ 0) : PipelineReads s s.pipe.mapAddr.toNat
  | low (hphase : s.pipe.phase = .dataLow) (hdot : s.pipe.phaseDot ≠ 0) : PipelineReads s
      (BitVec.ofNat 16
        (tileBase s.tileData (Memory.read s.vram s.pipe.mapAddr.toNat) + 2 * s.pipe.tileLine.toNat)).toNat
  | high (hphase : s.pipe.phase = .dataHigh) (hdot : s.pipe.phaseDot ≠ 0) :
      PipelineReads s (s.pipe.tileAddr + 1).toNat
  | spriteLow (hleft : s.pipe.sfetchLeft = 1) : PipelineReads s (s.pipe.sfetchCur.rowAddr s.ly).toNat
  | spriteHigh (hleft : s.pipe.sfetchLeft = 1) : PipelineReads s ((s.pipe.sfetchCur.rowAddr s.ly).toNat + 1)

theorem readVram_withContents {c : Contents} {s : State} {a : Addr}
    (h : Memory.read c.vram a.toNat = Memory.read s.vram a.toNat) : readVram (withContents c s) a = readVram s a := by
  unfold readVram
  rw [← h]
  rfl

theorem dataLowAction_withContents {c : Contents} {s t : State} (h : SameSwitches c s)
    (hphase : s.pipe.phase = .dataLow) (hdot : s.pipe.phaseDot ≠ 0)
    (hv : ∀ a, PipelineReads s a → Memory.read c.vram a = Memory.read s.vram a) (ht : dataLowAction s = .ok t) :
    dataLowAction (withContents c s) = .ok (withContents c t) := by
  have hdata : (withContents c s).tileData = s.tileData := h 4 (by decide)
  unfold dataLowAction at ht ⊢
  obtain ⟨index, hindex, ht⟩ := bind_eq_ok ht
  obtain ⟨lo, hlo, ht⟩ := bind_eq_ok ht
  cases ht
  have hread : index = Memory.read s.vram s.pipe.mapAddr.toNat := by
    unfold readVram at hindex
    split at hindex
    · exact (Except.ok.inj hindex).symm
    · cases hindex
  have hindex' := (readVram_withContents (hv _ (.index hphase hdot))).trans hindex
  have hlow := hv _ (.low hphase hdot)
  rw [← hread] at hlow
  have hlo' := (readVram_withContents hlow).trans hlo
  show (readVram (withContents c s) s.pipe.mapAddr >>= _) = _
  rw [hindex', hdata]
  show (readVram (withContents c s) _ >>= _) = _
  rw [show (withContents c s).pipe.tileLine = s.pipe.tileLine from rfl, hlo']
  rfl

theorem dataHighAction_withContents {c : Contents} {s t : State}
    (hphase : s.pipe.phase = .dataHigh) (hdot : s.pipe.phaseDot ≠ 0)
    (hv : ∀ a, PipelineReads s a → Memory.read c.vram a = Memory.read s.vram a) (ht : dataHighAction s = .ok t) :
    dataHighAction (withContents c s) = .ok (withContents c t) := by
  unfold dataHighAction at ht ⊢
  obtain ⟨hi, hhi, ht⟩ := bind_eq_ok ht
  cases ht
  have hhi' := (readVram_withContents (hv _ (.high hphase hdot))).trans hhi
  show (readVram (withContents c s) (s.pipe.tileAddr + 1) >>= _) = _
  rw [hhi']
  rfl

theorem fetcherStep_withContents {c : Contents} {s t : State} (h : SameSwitches c s)
    (hv : ∀ a, PipelineReads s a → Memory.read c.vram a = Memory.read s.vram a) (ht : fetcherStep s = .ok t) :
    fetcherStep (withContents c s) = .ok (withContents c t) := by
  by_cases hpush : s.pipe.phase = .push
  · have hpush' : (withContents c s).pipe.phase = .push := hpush
    simp only [fetcherStep, hpush, hpush'] at ht ⊢
    cases ht
    exact congrArg Except.ok (pushStep_withContents h)
  · by_cases hdot : s.pipe.phaseDot = 0
    · cases (fetcherStep_first_dot hpush hdot).symm.trans ht
      exact fetcherStep_first_dot (s := withContents c s) hpush hdot
    · have hlast : ¬ s.pipe.phaseDot + 1 < 2 := by omega
      have hlast' : ¬ (withContents c s).pipe.phaseDot + 1 < 2 := hlast
      cases hphase : s.pipe.phase
      case push => exact absurd hphase hpush
      case getTile =>
        have hphase' : (withContents c s).pipe.phase = .getTile := hphase
        simp only [fetcherStep, hphase, hphase', fetchPhaseDots, if_neg hlast, if_neg hlast'] at ht ⊢
        cases ht
        have hcoords := tileCoords_withContents h s.pipe.pushX
        simp only [getTileAction, show (withContents c s).pipe.pushX = s.pipe.pushX from rfl, hcoords]
        rfl
      case dataLow =>
        have hphase' : (withContents c s).pipe.phase = .dataLow := hphase
        simp only [fetcherStep, hphase, hphase', fetchPhaseDots, if_neg hlast, if_neg hlast'] at ht ⊢
        obtain ⟨u, hu, ht⟩ := bind_eq_ok ht
        cases ht
        rw [dataLowAction_withContents h hphase hdot hv hu]
        rfl
      case dataHigh =>
        have hphase' : (withContents c s).pipe.phase = .dataHigh := hphase
        simp only [fetcherStep, hphase, hphase', fetchPhaseDots, if_neg hlast, if_neg hlast'] at ht ⊢
        obtain ⟨u, hu, ht⟩ := bind_eq_ok ht
        cases ht
        rw [dataHighAction_withContents hphase hdot hv hu]
        rfl
      case idle =>
        have hphase' : (withContents c s).pipe.phase = .idle := hphase
        simp only [fetcherStep, hphase, hphase', fetchPhaseDots, if_neg hlast, if_neg hlast'] at ht ⊢
        cases ht
        exact congrArg Except.ok (pushStep_withContents (s := { s with pipe.phaseDot := 0, pipe.phase := .push }) h)

theorem spriteStallDot_withContents {c : Contents} {s t : State} (hpos : 0 < s.pipe.sfetchLeft)
    (hv : ∀ a, PipelineReads s a → Memory.read c.vram a = Memory.read s.vram a) (ht : spriteStallDot s = .ok t) :
    spriteStallDot (withContents c s) = .ok (withContents c t) := by
  by_cases hleft : s.pipe.sfetchLeft - 1 = 0
  · have ht' : spriteFetchComplete { s with pipe.sfetchLeft := s.pipe.sfetchLeft - 1 } = .ok t :=
      (if_pos hleft).symm.trans ht
    have hone : s.pipe.sfetchLeft = 1 := by omega
    have hdone := spriteFetchComplete_congr
      (t := { withContents c s with pipe.sfetchLeft := (withContents c s).pipe.sfetchLeft - 1 }) ht' rfl rfl
      (hv _ (.spriteLow hone)) (hv _ (.spriteHigh hone))
    refine (if_pos hleft).trans (hdone.trans ?_)
    obtain ⟨n, q, rfl⟩ := spriteStallDot_frame ht
    rfl
  · cases (if_neg hleft).symm.trans ht
    exact if_neg hleft

/-! ### The mixer and the pipeline -/

/-- The mixer's dot moves the FIFOs alike whatever the palettes and the enable of the background; with the same ones it
writes the same sample (R152, R154, R157). -/
theorem mixerDot_withContents (c : Contents) {s t : State} (ht : mixerDot s = .ok t) :
    ∃ f, mixerDot (withContents c s) = .ok (withContents { c with fb := f } t) ∧ (SameSamples c s → f = t.fb) := by
  unfold mixerDot at ht ⊢
  have hbg : (withContents c s).pipe.bgFifo = s.pipe.bgFifo := rfl
  have hsp : (withContents c s).pipe.spFifo = s.pipe.spFifo := rfl
  rw [hbg, hsp]
  cases hbgs : s.pipe.bgFifo with
  | nil =>
    rw [hbgs] at ht
    cases ht
    exact ⟨c.fb, rfl, fun h => h.fb⟩
  | cons bg bgs =>
    cases hsps : s.pipe.spFifo with
    | nil =>
      rw [hbgs, hsps] at ht
      cases ht
    | cons sp sps =>
      rw [hbgs, hsps] at ht
      obtain ⟨u, hu, ht⟩ := bind_eq_ok ht
      unfold fbWrite at hu ⊢
      split at hu
      case isFalse => cases hu
      case isTrue hi =>
        cases hu
        cases ht
        refine ⟨FrameBuffer.write c.fb (s.ly.toNat * screenW + s.pipe.outputX)
          (sample (withContents c s) (mix (withContents c s).bgWinEnable bg sp)), ?_, fun h => ?_⟩
        · simp only
          rw [if_pos (show (withContents c s).ly.toNat * screenW + (withContents c s).pipe.outputX < _ from hi)]
          rfl
        · have hsame : withContents c s = { s with vram := c.vram, oam := c.oam, presented := c.presented } := by
            obtain ⟨hlcdc, hbgp, hobp0, hobp1, hfb⟩ := h
            simp only [withContents, hlcdc, hbgp, hobp0, hobp1, hfb]
          rw [hsame, h.fb]
          rfl

/-- The pipeline's dot depends on the contents by the bytes it reads, and on the palettes and the background's enable by
the sample it writes only (R53, R121, R154, R157). -/
theorem pipelineDot_withContents {c : Contents} {s t : State} (h : SameSwitches c s)
    (hv : ∀ a, PipelineReads s a → Memory.read c.vram a = Memory.read s.vram a) (ht : pipelineDot s = .ok t) :
    ∃ f, pipelineDot (withContents c s) = .ok (withContents { c with fb := f } t) ∧ (SameSamples c s → f = t.fb) := by
  by_cases ho : s.pipe.outputX = 160
  · cases (if_pos ho).symm.trans ht
    exact ⟨c.fb, if_pos ho, fun h => h.fb⟩
  · by_cases hleft : 0 < s.pipe.sfetchLeft
    · rw [pipelineDot_fetching ho hleft] at ht
      refine ⟨c.fb, (pipelineDot_fetching (s := withContents c s) ho hleft).trans
        (spriteStallDot_withContents hleft hv ht), fun h => ?_⟩
      obtain ⟨n, q, rfl⟩ := spriteStallDot_frame ht
      exact h.fb
    · have hidle : s.pipe.sfetchLeft = 0 := by omega
      rw [pipelineDot, if_neg ho, if_neg hleft] at ht
      obtain ⟨u, hu, ht⟩ := bind_eq_ok ht
      obtain ⟨p, hp⟩ := fetcherStep_pipe hu
      rw [pipelineDot_after_fetcherStep (s := withContents c s) ho hidle (fetcherStep_withContents h hv hu)]
      split at ht
      case isTrue hstart =>
        cases ht
        refine ⟨c.fb, if_pos hstart, fun h => h.fb.trans ?_⟩
        rw [hp]
      case isFalse hno =>
        obtain ⟨f, hf, hsame⟩ := mixerDot_withContents c ht
        refine ⟨f, (if_neg hno).trans hf, fun h => hsame ?_⟩
        rw [hp]
        exact ⟨h.lcdc, h.bgp, h.obp0, h.obp1, h.fb⟩

/-! ### The dot -/

/-- The two OAM bytes of a scan dot (R114). -/
theorem oamScanDot_withContents {c : Contents} {d : Nat} {s t : State} (h : SameSwitches c s)
    (hm : ∀ a, 2 * d ≤ a → a < 2 * d + 2 → a < 160 → Memory.read c.oam a = Memory.read s.oam a)
    (ht : oamScanDot d s = .ok t) : oamScanDot d (withContents c s) = .ok (withContents c t) := by
  have hread : ∀ a, 2 * d ≤ a → a < 2 * d + 2 → readOam (withContents c s) a = readOam s a := fun a hlow hhigh => by
    unfold readOam
    split
    case isTrue hlt => exact congrArg Except.ok (hm a hlow hhigh hlt)
    case isFalse => rfl
  unfold oamScanDot at ht ⊢
  split at ht
  case isTrue heven =>
    rw [if_pos heven, hread _ (by omega) (by omega), hread _ (by omega) (by omega)]
    obtain ⟨y, hy, ht⟩ := bind_eq_ok ht
    obtain ⟨x, hx, ht⟩ := bind_eq_ok ht
    cases ht
    rw [hy, hx]
    rfl
  case isFalse hodd =>
    rw [if_neg hodd, hread _ (by omega) (by omega), hread _ (by omega) (by omega)]
    obtain ⟨tile, htile, ht⟩ := bind_eq_ok ht
    obtain ⟨attr, hattr, ht⟩ := bind_eq_ok ht
    cases ht
    have hheight : (withContents c s).objHeight = s.objHeight := by
      rw [State.objHeight, show (withContents c s).objSize = s.objSize from h 2 (by decide)]
      rfl
    rw [htile, hattr]
    refine congrArg Except.ok ?_
    rw [hheight, evaluateSprite_eq, evaluateSprite_eq]
    rfl

theorem endDrawIfDone_withContents (c : Contents) (s : State) :
    endDrawIfDone (withContents c s) = withContents c (endDrawIfDone s) := by
  unfold endDrawIfDone
  rw [requestIf_eq, requestIf_eq]
  by_cases hdone : s.pipe.outputX = screenW ∧ drawMinDots ≤ s.drawDots
  · rw [if_pos hdone]
    exact if_pos hdone
  · rw [if_neg hdone]
    exact if_neg hdone

/-- The mode's dot reads two bytes of OAM in the scan, and what the pipeline reads in Draw. -/
theorem modeDot_withContents {c : Contents} {s t : State} (h : SameSwitches c s)
    (hm : s.mode = .oamScan → ∀ a, 2 * s.lineDot ≤ a → a < 160 → Memory.read c.oam a = Memory.read s.oam a)
    (hv : s.mode = .draw → ∀ a, PipelineReads s a → Memory.read c.vram a = Memory.read s.vram a)
    (ht : modeDot s = .ok t) :
    ∃ f, modeDot (withContents c s) = .ok (withContents { c with fb := f } t) ∧ (SameSamples c s → f = t.fb) := by
  have hmode : (withContents c s).mode = s.mode := rfl
  unfold modeDot at ht ⊢
  rw [hmode]
  cases hmd : s.mode <;> rw [hmd] at ht <;> simp only at ht ⊢
  case hblank =>
    cases ht
    exact ⟨c.fb, rfl, fun h => h.fb⟩
  case vblank =>
    cases ht
    exact ⟨c.fb, rfl, fun h => h.fb⟩
  case oamScan =>
    obtain ⟨u, hu, ht⟩ := bind_eq_ok ht
    cases ht
    have hscan := oamScanDot_withContents h (fun a hlow _ => hm hmd a hlow) hu
    refine ⟨c.fb, ?_, fun h => h.fb.trans ?_⟩
    · rw [oamDot, show (withContents c s).lineDot = s.lineDot from rfl, hscan]
      refine congrArg Except.ok ?_
      split
      · rw [endOamScan_eq, endOamScan_eq]
        rfl
      · rfl
    · obtain ⟨y, x, l, rfl⟩ := oamScanDot_scanner hu
      split <;> rfl
  case draw =>
    obtain ⟨u, hu, ht⟩ := bind_eq_ok ht
    cases ht
    obtain ⟨f, hf, hsame⟩ := pipelineDot_withContents h (hv hmd) hu
    refine ⟨f, ?_, fun h => (hsame h).trans ?_⟩
    · rw [drawDot, hf]
      exact congrArg Except.ok (endDrawIfDone_withContents { c with fb := f } { u with drawDots := u.drawDots + 1 })
    · obtain ⟨m, i, hend⟩ := endDrawIfDone_frame { u with drawDots := u.drawDots + 1 }
      rw [hend]

/-- The line start reads none of the contents but the window's enable; on line 144 it hands the frame over (R99 to
R102). -/
theorem lineStartIfDue_withContents {c : Contents} {s : State} (h : SameSwitches c s) :
    ∃ l, lineStartIfDue (withContents c s) = withContents { c with presented := l } (lineStartIfDue s) ∧
      (c.presented.length = s.presented.length → l.length = (lineStartIfDue s).presented.length) ∧
      (c.fb = s.fb → c.presented = s.presented → l = (lineStartIfDue s).presented) := by
  by_cases hdot : s.lineDot = 0
  · have hdue : lineStartIfDue s = lineStart s := if_pos hdot
    have hdue' : lineStartIfDue (withContents c s) = lineStart (withContents c s) := if_pos hdot
    rw [hdue, hdue']
    obtain hly | hly | hly := lt_trichotomy s.ly.toNat 144
    · have hwin : (withContents c s).winEnable = s.winEnable := h 5 (by decide)
      rw [lineStart_visible_eq hly, lineStart_visible_eq (s := withContents c s) hly, hwin]
      exact ⟨c.presented, rfl, id, fun _ => id⟩
    · rw [lineStart_144_eq hly, lineStart_144_eq (s := withContents c s) hly]
      exact ⟨c.fb :: c.presented, rfl, congrArg (· + 1), fun hf hl => by rw [hf, hl]⟩
    · rw [lineStart_later_eq hly, lineStart_later_eq (s := withContents c s) hly]
      exact ⟨c.presented, rfl, id, fun _ => id⟩
  · rw [lineStartIfDue_inside hdot, lineStartIfDue_inside (s := withContents c s) hdot]
    exact ⟨c.presented, rfl, id, fun _ => id⟩

theorem endOfDot_withContents {c : Contents} {s t : State} (ht : endOfDot s = .ok t) :
    endOfDot (withContents c s) = .ok (withContents c t) := by
  unfold endOfDot at ht ⊢
  split at ht
  case isTrue hlast =>
    split at ht
    case isTrue => cases ht
    case isFalse hm =>
      cases ht
      refine (if_pos hlast).trans ((if_neg hm).trans (congrArg Except.ok ?_))
      rw [endOfLine_eq, endOfLine_eq]
      rfl
  case isFalse hinside =>
    cases ht
    exact if_neg hinside

/-- A dot with other contents of which those it reads are the same: the same dot, but for the samples it writes and the
frame it hands over (R53, R154, R157). -/
theorem dotStep_withContents {c : Contents} {s t : State} (h : SameSwitches c s)
    (hm : (lineStartIfDue s).mode = .oamScan → ∀ a, 2 * s.lineDot ≤ a → a < 160 →
      Memory.read c.oam a = Memory.read s.oam a)
    (hv : (lineStartIfDue s).mode = .draw → ∀ a, PipelineReads (lineStartIfDue s) a →
      Memory.read c.vram a = Memory.read s.vram a)
    (ht : dotStep s = .ok t) :
    ∃ f l, dotStep (withContents c s) = .ok (withContents { c with fb := f, presented := l } t) ∧
      (c.presented.length = s.presented.length → l.length = t.presented.length) ∧
      (SameSamples c s → c.presented = s.presented → f = t.fb ∧ l = t.presented) := by
  cases hon : s.engineOn with
  | false =>
    have hon' : (withContents c s).engineOn = false := hon
    rw [dotStep, hon] at ht
    rw [dotStep, hon']
    cases ht
    exact ⟨c.fb, c.presented, rfl, id, fun h hl => ⟨h.fb, hl⟩⟩
  | true =>
    have hon' : (withContents c s).engineOn = true := hon
    rw [dotStep, hon] at ht
    rw [dotStep, hon']
    obtain ⟨u, hu, ht⟩ := bind_eq_ok ht
    have hkept := lineStartIfDue_kept s
    have hfb := lineStartIfDue_fb s
    obtain ⟨hly, hpos⟩ := lineStartIfDue_position s
    obtain ⟨l, hl, hlen, hpresented⟩ := lineStartIfDue_withContents h
    obtain ⟨f, hf, hsame⟩ := modeDot_withContents (c := { c with presented := l }) (h.of_kept hkept)
      (fun hmd a hlow hlt => by rw [hkept.oam]; exact hm hmd a (by omega) hlt)
      (fun hmd a ha => by rw [hkept.vram]; exact hv hmd a ha) hu
    have hpres := modeDot_presented hu
    obtain ⟨d, ly, w, hend⟩ := endOfDot_frame ht
    refine ⟨f, l, ?_, fun hl' => ?_, fun hs hl' => ⟨?_, ?_⟩⟩
    · rw [hl]
      simp only [if_true, hf]
      exact endOfDot_withContents ht
    · rw [hlen hl', ← hpres, hend]
    · rw [hsame ⟨hs.lcdc.trans hkept.lcdc.symm, hs.bgp.trans hkept.bgp.symm, hs.obp0.trans hkept.obp0.symm,
        hs.obp1.trans hkept.obp1.symm, hs.fb.trans hfb.symm⟩, hend]
    · rw [hpresented hs.fb hl', ← hpres, hend]

/-! ### The palettes and the background's enable -/

/-- A run of dots with other palettes, another enable of the background and another frame buffer (R154, R157). -/
theorem runDots_withContents {c : Contents} {n : Nat} {s t : State} (h : SameSwitches c s) (hv : c.vram = s.vram)
    (hm : c.oam = s.oam) (hlen : c.presented.length = s.presented.length) (ht : runDots n s = .ok t) :
    ∃ f l, runDots n (withContents c s) = .ok (withContents { c with fb := f, presented := l } t) ∧
      l.length = t.presented.length := by
  induction n generalizing s c with
  | zero =>
    cases ht
    exact ⟨c.fb, c.presented, rfl, hlen⟩
  | succ n ih =>
    obtain ⟨u, hu, ht⟩ := bind_eq_ok ht
    obtain ⟨f, l, hstep, hlen', -⟩ := dotStep_withContents h (fun _ _ _ _ => by rw [hm]) (fun _ _ _ => by rw [hv]) hu
    have hkept := dotStep_kept hu
    obtain ⟨g, l', hrun, hlen''⟩ := ih (c := { c with fb := f, presented := l }) (h.of_kept hkept)
      (hv.trans hkept.vram.symm) (hm.trans hkept.oam.symm) (hlen' hlen) ht
    refine ⟨g, l', ?_, hlen''⟩
    rw [runDots, hstep]
    exact hrun

/-- Bit 0 of LCDC replaced, the other bits stay. -/
theorem getLsbD_replaceBit0 (v : Byte) (b : Bool) {k : Nat} (hk : 1 ≤ k) :
    (v.extractLsb' 1 7 ++ BitVec.ofBool b).getLsbD k = v.getLsbD k := by
  obtain ⟨j, rfl⟩ := Nat.exists_eq_add_of_le hk
  rw [BitVec.getLsbD_append, if_neg (by omega), BitVec.getLsbD_extractLsb', Nat.add_sub_cancel_left]
  by_cases hj : j < 7
  · rw [decide_eq_true hj, Bool.true_and]
  · rw [decide_eq_false hj, Bool.false_and, BitVec.getLsbD_of_ge v (1 + j) (by omega)]

/-- Settles O58: the other contents are read by the mixer's sample and the hand-off only. -/
theorem palettesDoNotTouchTiming : Obligations.PalettesDoNotTouchTiming := by
  intro m s t b p p0 p1 f h recolour
  have hrun := runDots_of_exec_tick h
  have hkept := runDots_kept hrun
  obtain ⟨g, l, hrun', hlen⟩ := runDots_withContents (s := returnNothing s)
    (c := { lcdc := s.lcdc.extractLsb' 1 7 ++ BitVec.ofBool b, bgp := p, obp0 := p0, obp1 := p1, fb := f,
            presented := s.presented, vram := s.vram, oam := s.oam })
    (fun k hk => getLsbD_replaceBit0 s.lcdc b hk) rfl rfl rfl hrun
  refine ⟨g, l, (congrArg outcomeOf hrun').trans (congrArg Host.Outcome.next ?_), hlen⟩
  have hlcdc : t.lcdc = s.lcdc := hkept.lcdc
  have hvram : t.vram = s.vram := hkept.vram
  have hoam : t.oam = s.oam := hkept.oam
  simp only [withContents, recolour, hlcdc, ← hvram, ← hoam]

/-! ### The bytes already read -/

/-- A dot with other memories, of which the bytes it reads are the same (R53). -/
theorem dotStep_setMemories {s t : State} {vram oam : Memory}
    (hm : (lineStartIfDue s).mode = .oamScan → ∀ a, 2 * s.lineDot ≤ a → a < 160 →
      Memory.read oam a = Memory.read s.oam a)
    (hv : (lineStartIfDue s).mode = .draw → ∀ a, PipelineReads (lineStartIfDue s) a →
      Memory.read vram a = Memory.read s.vram a)
    (ht : dotStep s = .ok t) :
    dotStep { s with vram := vram, oam := oam } = .ok { t with vram := vram, oam := oam } := by
  obtain ⟨f, l, hstep, -, hsame⟩ := dotStep_withContents
    (c := { lcdc := s.lcdc, bgp := s.bgp, obp0 := s.obp0, obp1 := s.obp1, fb := s.fb, presented := s.presented,
            vram := vram, oam := oam }) (fun _ _ => rfl) hm hv ht
  obtain ⟨rfl, rfl⟩ := hsame ⟨rfl, rfl, rfl, rfl, rfl⟩ rfl
  have hkept := dotStep_kept ht
  have hstep' : dotStep { s with vram := vram, oam := oam } = _ := hstep
  rw [hstep', withContents, ← hkept.lcdc, ← hkept.bgp, ← hkept.obp0, ← hkept.obp1]

/-- A dot reads no byte of OAM before offset `2d`, `d` being its line dot (R53, R114). -/
theorem dotStep_setOam {s t : State} {m : Memory} (h : Inv s) (hon : s.engineOn = true) (ht : dotStep s = .ok t)
    (hm : ∀ a, s.ly.toNat < 144 → 2 * s.lineDot ≤ a → a < 160 → Memory.read m a = Memory.read s.oam a) :
    dotStep { s with oam := m } = .ok { t with oam := m } := by
  have hvisible : (lineStartIfDue s).mode = .oamScan → s.ly.toNat < 144 := fun hmd => by
    obtain ⟨-, hrunning, -, hly⟩ := lineStartIfDue_spec h hon
    rw [Running, hmd] at hrunning
    exact hly ▸ hrunning.1
  have hstep := dotStep_setMemories (vram := s.vram) (oam := m) (fun hmd a => hm a (hvisible hmd))
    (fun _ _ _ => rfl) ht
  rw [hstep, ← (dotStep_kept ht).vram]

/-- From a line dot to the end of the line no OAM byte before it is read (R53). -/
theorem runDots_setOam {s t : State} {m : Memory} {n : Nat} (h : Inv s) (hend : s.lineDot + n ≤ 456)
    (ht : runDots n s = .ok t)
    (hm : ∀ a, s.ly.toNat < 144 → 2 * s.lineDot ≤ a → a < 160 → Memory.read m a = Memory.read s.oam a) :
    runDots n { s with oam := m } = .ok { t with oam := m } := by
  by_cases hon : s.engineOn = true
  case neg =>
    have hoff := Bool.eq_false_of_not_eq_true hon
    cases (runDots_off hoff).symm.trans ht
    exact runDots_off hoff
  case pos =>
    induction n generalizing s with
    | zero =>
      cases ht
      rfl
    | succ n ih =>
      obtain ⟨u, hu, ht⟩ := bind_eq_ok ht
      have hstep := dotStep_setOam h hon hu hm
      refine (congrArg (· >>= runDots n) hstep).trans ?_
      cases n with
      | zero =>
        cases ht
        rfl
      | succ n =>
        obtain ⟨u', hu', hinv, huon, hpos⟩ := dotStep_spec h hon
        cases hu'.symm.trans hu
        have hly := dotStep_ly hu (by omega)
        have hlt := h.ly_lt
        have hoam := (dotStep_kept hu).oam
        simp only [framePos, hly, dotsPerFrame_eq, dotsPerLine, linesPerFrame] at hpos hlt
        refine ih hinv (by omega) ht (fun a hvis hlow hlt => ?_) huon
        rw [hoam]
        exact hm a (hly ▸ hvis) (by omega) hlt

/-- A dot reads VRAM in Draw only, and there what the pipeline's dot reads (R53). -/
theorem dotStep_setVram {s t : State} {m : Memory} (h : Inv s) (ht : dotStep s = .ok t)
    (hm : s.mode = .draw → ∀ a, PipelineReads s a → Memory.read m a = Memory.read s.vram a) :
    dotStep { s with vram := m } = .ok { t with vram := m } := by
  have hstep := dotStep_setMemories (vram := m) (oam := s.oam) (fun _ _ _ _ => rfl) (fun hmd => ?_) ht
  · rw [hstep, ← (dotStep_kept ht).oam]
  · by_cases hdot : s.lineDot = 0
    · have hdue : lineStartIfDue s = lineStart s := if_pos hdot
      rw [hdue] at hmd
      exact absurd hmd (h.lineStart_mode hdot)
    · rw [lineStartIfDue_inside hdot] at hmd ⊢
      exact hm hmd

/-- Settles O59: a dot with the bytes it reads unchanged is the same dot; of OAM those are the two bytes at twice the
line dot, of VRAM those that `PipelineReads` names. -/
theorem latchedBytesAreNotReread : Obligations.LatchedBytesAreNotReread := by
  refine ⟨fun s t m n h hend ht hm => runDots_setOam h hend ht hm, fun s t m h ht hidle => dotStep_setVram h ht
    fun hmd a ha => ?_, fun s t m h hmd ht hlow hhigh hsprite => dotStep_setVram h ht fun _ a ha => ?_⟩
  all_goals
    obtain ⟨-, -, -, hdraw⟩ := h.draw_position hmd
    have hlt := hdraw.fetcher.phaseDot_lt
    simp only [fetchPhaseDots] at hlt
  · obtain hne | ⟨hphase, hleft⟩ := hidle
    · exact absurd hmd hne
    · cases ha with
      | index hph hdot => exact absurd ⟨.inl hph, by omega⟩ hphase
      | low hph hdot => exact absurd ⟨.inl hph, by omega⟩ hphase
      | high hph hdot => exact absurd ⟨.inr hph, by omega⟩ hphase
      | spriteLow hone => exact absurd hone hleft
      | spriteHigh hone => exact absurd hone hleft
  · cases ha with
    | index hph hdot => exact (hlow hph (by omega)).1
    | low hph hdot =>
      have hrow := (hlow hph (by omega)).2
      obtain ⟨hbase, hbase'⟩ := tileBase_range s.tileData (Memory.read s.vram s.pipe.mapAddr.toNat)
      have hline := s.pipe.tileLine.isLt
      rw [BitVec.toNat_ofNat, Nat.mod_eq_of_lt (by omega)]
      exact hrow
    | high hph hdot =>
      have hrange := hdraw.fetcher.tile_range hph
      rw [addr_succ_toNat (by omega)]
      exact hhigh hph (by omega)
    | spriteLow hone => exact (hsprite hone).1
    | spriteHigh hone => exact (hsprite hone).2

end Sys2Proof.Machine
end

section
/-! PROOFS. The cadence of a line with the background only (spec/43_bg_window_fetcher.md section 4, R136; O34). -/

namespace Sys2Proof.Machine

/-- A Push that neither the window nor a sprite fetch stops drains its run as far as the screen goes; while objects are
disabled it passes over the sprites it reaches (R129, R132, R134, R141). -/
theorem pushStep_drains_passing {s : State} (h : FifoAligned s.pipe) {n : Nat}
    (hn : n = min (pushRun s.pipe).length (160 - s.pipe.pushX))
    (hw : s.pipe.inWindow = true ∨ s.winEnable = false ∨ s.winLineOk = false ∨
      (s.pipe.pushX : Int) + n ≤ (s.wx.toNat : Int) - 7)
    (hs : s.objEnable = false ∨ ∀ a ∈ s.sel.drop s.pipe.spPtr, (s.pipe.pushX : Int) + n ≤ a.triggerX) :
    ∃ ptr, (s.objEnable = true → ptr = s.pipe.spPtr) ∧
      pushStep s = restartFetch (drained n ptr { s with pipe.run := pushRun s.pipe }) := by
  have hle := h.push_le
  simp only [screenW] at hle
  obtain ⟨k, hk⟩ : ∃ k, (pushRun s.pipe).length = n + k := ⟨(pushRun s.pipe).length - n, by omega⟩
  obtain ⟨ptr, hptr, hdrain⟩ := drainLoop_prefix n k { s with pipe.run := pushRun s.pipe }
    (by rw [hk]; exact Nat.le_add_right n k) (by show s.pipe.pushX + n ≤ 160; omega) h.push_le_sp (.inr hw) hs
  exact ⟨ptr, hptr, pushStep_of_drained hn hk hdrain⟩

/-! ### The dots from Draw entry on -/

/-- A run of dots and a run after it. -/
theorem runDots_append {m n : Nat} {s t u : State} (ht : runDots m s = .ok t) (hu : runDots n t = .ok u) :
    runDots (m + n) s = .ok u := by
  rw [runDots_add, ht]
  exact hu

/-- A dot between Draw entry and the end of the line is one of Draw, or one of the HBlank after it that only counts
(R104, R105). -/
theorem DrawnFor.dot_cases {d n : Nat} {s t : State} (h : DrawnFor d n s) (hn : n < 375) (ht : dotStep s = .ok t) :
    (Drawing d n s ∧ ∃ p f, pipelineDot s = .ok { s with pipe := p, fb := f } ∧ t =
      { endDrawIfDone { s with pipe := p, fb := f, drawDots := s.drawDots + 1 } with lineDot := s.lineDot + 1 }) ∨
    (s.mode = .hblank ∧ max 172 d ≤ n ∧ t = { s with lineDot := s.lineDot + 1 }) := by
  obtain ⟨hon, hdot, hmode⟩ := h
  split at hmode
  case isTrue =>
    obtain ⟨p, f, hp, -⟩ := hmode.after_pipelineDot
    cases (dotStep_draw hon hmode.mode (by omega) hp).symm.trans ht
    exact .inl ⟨hmode, p, f, hp, rfl⟩
  case isFalse hlate =>
    have hstep : dotStep s = .ok { s with lineDot := s.lineDot + 1 } := by
      rw [dotStep_blank hon (.inl hmode) (by omega), endOfDot_inside (by omega)]
    cases hstep.symm.trans ht
    exact .inr ⟨hmode, Nat.le_of_not_lt hlate, rfl⟩

/-- What holds at Draw entry and is kept by each dot of Draw and of the HBlank after it holds to the end of the line. -/
theorem runDots_drawn_induction {d : Nat} {P : Nat → State → Prop} {s : State} (hs : Drawing d 0 s) (h : P 0 s)
    (hstep : ∀ {n : Nat} {t u : State}, n < 375 → DrawnFor d n t → P n t → dotStep t = .ok u → P (n + 1) u) {n : Nat}
    (hn : n < 376) : ∃ t, runDots n s = .ok t ∧ DrawnFor d n t ∧ P n t := by
  obtain ⟨t, ht, hdrawn⟩ := runDots_drawnFor hs hn
  refine ⟨t, ht, hdrawn, ?_⟩
  induction n generalizing t with
  | zero =>
    cases ht
    exact h
  | succ n ih =>
    obtain ⟨u, hu, hdrawn'⟩ := runDots_drawnFor hs (n := n) (by omega)
    rw [runDots_add, hu] at ht
    exact hstep (by omega) hdrawn' (ih (by omega) u hu hdrawn') ((runDots_one u).symm.trans ht)

/-! ### The cadence -/

/-- The pixels out after `n` dots of Draw, the first tile's discard being `d` (R136). -/
def cadence (d n : Nat) : Nat :=
  min 160 (if n ≤ 7 then 0 else if n ≤ 15 - d then n - 7 else max (8 - d) (n - 7 - d))

/-- The pipeline after `n` dots of the Draw of a line with neither sprites nor window (R136): a tile is pushed every
eighth dot, and a pixel leaves in each dot that finds one. -/
structure Cadence (d n : Nat) (s : State) : Prop where
  no_sprite : s.sel = [] ∨ s.objEnable = false
  no_window : s.winEnable = false ∨ s.winLineOk = false
  inWindow : s.pipe.inWindow = false
  discard : s.pipe.discard.toNat = d
  out : s.pipe.outputX = cadence d n
  fetch : s.pipe.outputX < 160 →
    s.pipe.phase ≠ .push ∧ s.pipe.elapsed = n % 8 ∧ s.pipe.pushX = min 160 (8 * (n / 8) - d)

/-- The mixer's dot takes a pixel out if one is there (R152). -/
theorem mixerDot_outputX {s t : State} (h : FifoAligned s.pipe) (hly : s.ly.toNat < 144) (ht : mixerDot s = .ok t) :
    ∃ b q f, t = { s with
      fb := f, pipe.bgFifo := b, pipe.spFifo := q
      pipe.outputX := if s.pipe.pushX = s.pipe.outputX then s.pipe.outputX else s.pipe.outputX + 1 } := by
  have hlen := h.bg_length
  obtain ⟨hempty, hm⟩ | ⟨bg, bgs, sp, sps, hbg, -, -, hm⟩ := mixerDot_spec s h hly
  · cases hm.symm.trans ht
    have hsame : s.pipe.pushX = s.pipe.outputX := by
      rw [hempty] at hlen
      exact hlen.symm
    rw [if_pos hsame]
    exact ⟨_, _, _, rfl⟩
  · cases hm.symm.trans ht
    rw [hbg, List.length_cons] at hlen
    rw [if_neg (by omega)]
    exact ⟨_, _, _, rfl⟩

/-- A pixel leaves in dot `n + 1` if one has been pushed and not yet left (R136). -/
theorem cadence_succ {d n : Nat} (hd : d < 8) (ho : cadence d n < 160) :
    cadence d (n + 1) =
      if min 160 (8 * ((n + 1) / 8) - d) = cadence d n then cadence d n else cadence d n + 1 := by
  unfold cadence at ho ⊢
  split_ifs at ho ⊢ <;> omega

/-- The mixer's dot after a fetcher's step that kept the cadence. -/
theorem cadence_of_mixerDot {d n : Nat} {u t : State} (h : FifoAligned u.pipe) (hly : u.ly.toNat < 144)
    (hsprite : u.sel = [] ∨ u.objEnable = false) (hwindow : u.winEnable = false ∨ u.winLineOk = false)
    (hin : u.pipe.inWindow = false) (hdis : u.pipe.discard.toNat = d) (hout : u.pipe.outputX = cadence d n)
    (ho : u.pipe.outputX < 160) (hphase : u.pipe.phase ≠ .push) (helapsed : u.pipe.elapsed = (n + 1) % 8)
    (hpush : u.pipe.pushX = min 160 (8 * ((n + 1) / 8) - d)) (ht : mixerDot u = .ok t) : Cadence d (n + 1) t := by
  have hd := u.pipe.discard.isLt
  obtain ⟨b, q, f, rfl⟩ := mixerDot_outputX h hly ht
  refine ⟨hsprite, hwindow, hin, hdis, ?_, fun _ => ⟨hphase, helapsed, hpush⟩⟩
  simp only
  rw [hpush, hout, cadence_succ (by omega) (by omega)]

/-- The decoded run of a tile: eight pixels, less the discard on the line's first (R129, R130). -/
theorem Cadence.pushRun_length {d n : Nat} {s : State} (h : Cadence d n s) (hf : FetcherLegal s.pipe)
    (hphase : s.pipe.phase ≠ .push) (hlast : s.pipe.elapsed = 7) :
    (pushRun { s.pipe with phaseDot := 0, phase := .push }).length = 8 - if s.pipe.pushX = 0 then d else 0 := by
  obtain ⟨hidlePhase, -⟩ := idle_of_elapsed hphase hf.phaseDot_lt hlast
  have hdecode : pushRun { s.pipe with phaseDot := 0, phase := .push } =
      decodeRun { s.pipe with phaseDot := 0, phase := .push } := if_pos (hf.run_nil hphase).1
  rw [hdecode, decodeRun_length, ← h.discard]
  simp only [hf.fetch_eq (.inr (.inr hidlePhase)), h.inWindow, and_true]

/-- A dot of the pipeline keeps the cadence: between two Pushes the fetch moves on, and on the eighth dot of a fetch the
Push drains the tile; in either case a pixel that is there leaves (R122, R129, R152). -/
theorem Cadence.pipelineDot {d n : Nat} {s t : State} (h : Cadence d n s) (hdraw : DrawLegal s)
    (hly : s.ly.toNat < 144) (ho : s.pipe.outputX < 160) (ht : pipelineDot s = .ok t) : Cadence d (n + 1) t := by
  obtain ⟨hphase, helapsed, hpush⟩ := h.fetch ho
  have hf := hdraw.fetcher
  obtain ⟨-, hidle⟩ := hf.run_nil hphase
  have hlen := hdraw.fifos.bg_length
  have hle := hf.fifo_le hphase
  have hd := s.pipe.discard.isLt
  have hdis := h.discard
  obtain ⟨p, hp, -, -, hlegal⟩ := fetcherStep_legal s hdraw ho hidle
  rw [pipelineDot_after_fetcherStep ho.ne hidle hp] at ht
  have hfetched (hp0 : p.sfetchLeft = 0) : FifoAligned p := by
    obtain ⟨-, hfetched, -⟩ | ⟨hp6, -⟩ := hlegal
    · exact hfetched.fifos
    · cases hp0.symm.trans hp6
  by_cases hlast : s.pipe.elapsed = 7
  · obtain ⟨ptr, -, hdrain⟩ := pushStep_drains_passing (s := { s with pipe.phaseDot := 0, pipe.phase := .push })
      ⟨hdraw.fifos.1, hdraw.fifos.2, hdraw.fifos.3, hdraw.fifos.4, hdraw.fifos.5⟩ rfl (.inr (h.no_window.imp id .inl))
      (h.no_sprite.symm.imp id fun hsel a ha => by rw [show s.sel = [] from hsel, List.drop_nil] at ha; cases ha)
    have heq := congrArg State.pipe (Except.ok.inj
      (hp.symm.trans ((fetcherStep_push hphase hf.phaseDot_lt hlast).trans (congrArg _ hdrain))))
    have hrunLen := h.pushRun_length hf hphase hlast
    simp only at heq hrunLen
    have hp0 : p.sfetchLeft = 0 := heq ▸ hidle
    rw [if_neg (by simp [hp0])] at ht
    refine cadence_of_mixerDot (u := { s with pipe := p }) (hfetched hp0) hly h.no_sprite h.no_window (heq ▸ h.inWindow)
      (heq ▸ h.discard) (heq ▸ h.out) (heq ▸ ho) (heq ▸ nofun) ?_ ?_ ht
    · have hstart : p.elapsed = 0 := heq ▸ rfl
      exact hstart.trans (by omega)
    · have hdrained : p.pushX = s.pipe.pushX +
          min (pushRun { s.pipe with phaseDot := 0, phase := .push }).length (160 - s.pipe.pushX) := heq ▸ rfl
      rw [hrunLen] at hdrained
      simp only [hdrained]
      split <;> omega
  · obtain ⟨ph, e, fx, ma, tl, ta, lo, hi, hne, hnext, heq⟩ := fetcherStep_advance hp hphase hf.phaseDot_lt hlast
    have heq := congrArg State.pipe heq
    simp only at heq
    have hp0 : p.sfetchLeft = 0 := heq ▸ hidle
    rw [if_neg (by simp [hp0])] at ht
    refine cadence_of_mixerDot (u := { s with pipe := p }) (hfetched hp0) hly h.no_sprite h.no_window (heq ▸ h.inWindow)
      (heq ▸ h.discard) (heq ▸ h.out) (heq ▸ ho) (heq ▸ hne) ?_ ?_ ht
    · have hmoved : p.elapsed = s.pipe.elapsed + 1 := heq ▸ hnext
      exact hmoved.trans (by omega)
    · have hsame : p.pushX = s.pipe.pushX := heq ▸ rfl
      simp only [hsame, hpush]
      omega

/-- The schedule is no part of the cadence. -/
theorem Cadence.setSchedule {d n : Nat} {s : State} (h : Cadence d n s) (dot draw : Nat) (m : Mode) (i : Byte) :
    Cadence d n { s with lineDot := dot, drawDots := draw, mode := m, iflag := i } := by
  obtain ⟨h1, h2, h3, h4, h5, h6⟩ := h
  exact ⟨h1, h2, h3, h4, h5, h6⟩

/-- A dot of Draw or of the HBlank after it keeps the cadence (R104, R105). -/
theorem Cadence.dot {d n D : Nat} {s t : State} (h : Cadence d n s) (hn : n < 375) (hD : D = 167 + d)
    (hs : DrawnFor D n s) (ht : dotStep s = .ok t) : Cadence d (n + 1) t := by
  have hd := s.pipe.discard.isLt
  have hdis := h.discard
  obtain ⟨hdrawing, p, f, hp, rfl⟩ | ⟨-, hlate, rfl⟩ := hs.dot_cases hn ht
  · have hafter : Cadence d (n + 1) { s with pipe := p, fb := f } := by
      by_cases ho : s.pipe.outputX < 160
      · exact h.pipelineDot hdrawing.legal hdrawing.line ho hp
      · have hout := h.out
        have ho' : s.pipe.outputX = 160 := by
          unfold cadence at hout
          omega
        have hsame : { s with pipe := p, fb := f } = s := Except.ok.inj (hp.symm.trans (if_pos ho'))
        rw [hsame]
        refine ⟨h.no_sprite, h.no_window, h.inWindow, h.discard, ?_, fun hlt => absurd hlt ho⟩
        unfold cadence at hout ⊢
        split_ifs at hout ⊢ <;> omega
    obtain ⟨m, i, hend⟩ := endDrawIfDone_frame { s with pipe := p, fb := f, drawDots := s.drawDots + 1 }
    rw [hend]
    exact hafter.setSchedule _ _ _ _
  · have hout := h.out
    have ho : s.pipe.outputX = 160 ∧ cadence d (n + 1) = 160 := by
      unfold cadence at hout ⊢
      split_ifs at hout ⊢ <;> omega
    exact ⟨h.no_sprite, h.no_window, h.inWindow, h.discard, ho.1.trans ho.2.symm, fun hlt => absurd ho.1 hlt.ne⟩

/-- The cadence from Draw entry to the end of the line (R136). -/
theorem runDots_cadence {d D : Nat} {s : State} (hD : D = 167 + d) (hs : Drawing D 0 s) (h : Cadence d 0 s) {n : Nat}
    (hn : n < 376) : ∃ t, runDots n s = .ok t ∧ DrawnFor D n t ∧ Cadence d n t :=
  runDots_drawn_induction hs h (fun hn hdrawn hcadence ht => hcadence.dot hn hD hdrawn ht) hn

/-- Settles O34: the cadence at Draw entry, and from there dot by dot. -/
theorem drawCadenceBackgroundOnly : Obligations.DrawCadenceBackgroundOnly := by
  intro s hon hdot hly hsprite hwindow d n hn
  obtain ⟨u, hu, -, -, hsel, hlatch⟩ := runDots_drawEntry hon hdot hly
  obtain ⟨v, hv, -, hdrawing⟩ := runDots_drawing hon hdot hly
  cases hv.symm.trans hu
  have hkept := runDots_kept hu
  have hlcdc : u.lcdc = s.lcdc := hkept.lcdc
  have hscx : u.scx = s.scx := hkept.scx
  have hentry : Cadence d 0 (endOamScan u) := by
    rw [endOamScan_eq]
    refine ⟨hsprite.imp (fun hq => ?_) (fun hobj => ?_), ?_, rfl, ?_, rfl, fun _ => ⟨nofun, rfl, ?_⟩⟩
    · simp only [hsel, hq, sortSprites]
    · simpa only [State.objEnable, hlcdc] using hobj
    · simp only [State.winEnable, hlcdc, hlatch]
      refine hwindow.imp id fun hwy => ?_
      rw [decide_eq_false (by omega), Bool.and_false]
    · simp only [hscx, BitVec.extractLsb'_toNat, Nat.shiftRight_zero]
      rfl
    · rw [Nat.zero_div, Nat.mul_zero, Nat.zero_sub]
      rfl
  have hlen : lineLength s = 167 + d := by
    have hwin : ¬ (s.lcdc.getLsbD 5 = true ∧ s.wy.toNat ≤ s.ly.toNat ∧ s.wx.toNat < 167) := by
      rintro ⟨h5, hwy, -⟩
      obtain h | h := hwindow
      · rw [h] at h5
        cases h5
      · omega
    have hk : (if s.lcdc.getLsbD 1 then ((qualifying s).filter fun a => decide (a.x < 160)).length else 0) = 0 := by
      obtain h | h := hsprite
      · rw [h]
        split <;> rfl
      · rw [h]
        rfl
    rw [lineLength, if_neg hwin, hk]
    rfl
  obtain ⟨t, ht, ⟨-, -, hmode⟩, hcadence⟩ := runDots_cadence hlen hdrawing hentry hn
  refine ⟨t, runDots_append hv ht, ?_, hcadence.out⟩
  rw [hlen] at hmode
  split at hmode
  case isTrue hlt => rw [if_pos hlt, hmode.mode]
  case isFalse hge => rw [if_neg hge, hmode]

end Sys2Proof.Machine
end

section
/-! PROOFS. What a line shows, tile by tile and sprite by sprite (spec/30_encoding.md section 2,
spec/44_sprite_fetcher.md; O55): the colours of a fetched tile row against those read straight from the tile map, and the
sprite layer built up sprite by sprite. -/

namespace Sys2Proof.Machine

/-! ### The tiles -/

/-- The colour at screen x of the layer that the fetcher is in (R123, R131). -/
def fetchedColourAt (s : State) (x : Nat) : Colour :=
  if s.pipe.inWindow then windowColourAt s x else bgColourAt s x

/-- The address of the row of the tile looked up at screen x (R126). -/
def tileRowAddr (s : State) (x : Nat) : Nat :=
  tileBase s.tileData (Memory.read s.vram (tileCoords s x).mapAddr.toNat) + 2 * (tileCoords s x).line.toNat

/-- Whether a tile of the layer that the fetcher is in starts at screen x: the background's first is cut by the discard
(R130), the window's first starts with the window (R131). -/
def TileStart (s : State) (x : Nat) : Prop :=
  if s.pipe.inWindow then windowStart s ≤ x ∧ (x - windowStart s) % 8 = 0 else x = 0 ∨ (x + s.scx.toNat) % 8 = 0

/-- The colour of the plane's pixel (`px`, `py`) is that of its tile's row (R62, R63, R64). -/
theorem mapColour_of_tileCoords {s : State} {x px py : Nat} (hcol : px / 8 = (tileCoords s x).col)
    (hrow : py / 8 = (tileCoords s x).row) (hline : py % 8 = (tileCoords s x).line.toNat) :
    mapColour s (tileCoords s x).base px py =
      planeColour (Memory.read s.vram (tileRowAddr s x)) (Memory.read s.vram (tileRowAddr s x + 1)) (7 - px % 8) := by
  unfold mapColour tileRowAddr
  rw [tileCoords_mapAddr, hcol, hrow, hline]

/-- The pixels of a tile of the window (R124). -/
theorem windowColourAt_of_tile {s : State} {x k : Nat} (hin : s.pipe.inWindow = true) (hx : windowStart s ≤ x)
    (halign : (x - windowStart s) % 8 = 0) (hk : k < 8) :
    windowColourAt s (x + k) =
      planeColour (Memory.read s.vram (tileRowAddr s x)) (Memory.read s.vram (tileRowAddr s x + 1)) (7 - k) := by
  have hcoords : tileCoords s x = windowCoords s x := if_pos hin
  have hpixel : (x + k - windowStart s) % 256 % 8 = k := by omega
  have hmap := mapColour_of_tileCoords (s := s) (x := x) (px := (x + k - windowStart s) % 256)
    (py := s.windowLine % 256) (by
      rw [hcoords]
      unfold windowStart at hx halign ⊢
      simp only [windowCoords]
      omega) (by
      rw [hcoords]
      simp only [windowCoords]
      omega) (by
      rw [hcoords]
      simp only [windowCoords, BitVec.toNat_ofNat]
      omega)
  rw [hpixel, hcoords] at hmap
  exact hmap

/-- The pixels of a tile of the background, the first `d` being left out (R125, R130). -/
theorem bgColourAt_of_tile {s : State} {x k d : Nat} (hin : s.pipe.inWindow = false)
    (hd : (x = 0 ∧ d = s.scx.toNat % 8) ∨ ((x + s.scx.toNat) % 8 = 0 ∧ d = 0)) (hk : k + d < 8) :
    bgColourAt s (x + k) =
      planeColour (Memory.read s.vram (tileRowAddr s x)) (Memory.read s.vram (tileRowAddr s x + 1)) (7 - (k + d)) := by
  have hcoords : tileCoords s x = bgCoords s x := if_neg (by rw [hin]; nofun)
  have hsum : (s.scy + s.ly).toNat = (s.scy.toNat + s.ly.toNat) % 256 := BitVec.toNat_add ..
  have hpixel : (s.scx.toNat + (x + k)) % 256 % 8 = k + d := by omega
  have hmap := mapColour_of_tileCoords (s := s) (x := x) (px := (s.scx.toNat + (x + k)) % 256)
    (py := (s.scy.toNat + s.ly.toNat) % 256) (by
      rw [hcoords]
      simp only [bgCoords]
      omega) (by
      rw [hcoords]
      simp only [bgCoords, hsum]) (by
      rw [hcoords]
      simp only [bgCoords, BitVec.extractLsb'_toNat, hsum, Nat.shiftRight_zero])
  rw [hpixel, hcoords] at hmap
  exact hmap

/-- The pixels of a decoded run, `d` of them left out (R129, R130). -/
theorem decodeRun_getElem? {p : Pipeline} {d k : Nat} {c : Colour}
    (hd : d = if p.fetchX = 0 ∧ p.inWindow = false then p.discard.toNat else 0) (h : (decodeRun p)[k]? = some c) :
    k + d < 8 ∧ c = planeColour p.lo p.hi (7 - (k + d)) := by
  have hrun : decodeRun p = (tileRow p.lo p.hi).drop d := by
    rw [hd, decodeRun]
    split
    · rfl
    · exact List.drop_zero.symm
  rw [hrun, List.getElem?_drop, tileRow, List.getElem?_map] at h
  obtain ⟨j, hj, rfl⟩ := Option.map_eq_some_iff.1 h
  obtain ⟨hlt, hget⟩ := List.getElem?_eq_some_iff.1 hj
  rw [List.length_range] at hlt
  rw [List.getElem_range] at hget
  rw [← hget, Nat.add_comm d k]
  exact ⟨by omega, rfl⟩

/-- A run decoded from the row of the tile at the next pixel is the layer's colours from there on (R123, R129). -/
theorem decodeRun_colours {s : State} (hstart : TileStart s s.pipe.pushX) (hfetch : s.pipe.fetchX = s.pipe.pushX)
    (hdis : s.pipe.discard.toNat = s.scx.toNat % 8) (hlo : s.pipe.lo = Memory.read s.vram (tileRowAddr s s.pipe.pushX))
    (hhi : s.pipe.hi = Memory.read s.vram (tileRowAddr s s.pipe.pushX + 1)) {k : Nat} {c : Colour}
    (h : (decodeRun s.pipe)[k]? = some c) : c = fetchedColourAt s (s.pipe.pushX + k) := by
  obtain ⟨hk, hc⟩ := decodeRun_getElem?
    (d := if s.pipe.fetchX = 0 ∧ s.pipe.inWindow = false then s.pipe.discard.toNat else 0) rfl h
  rw [hfetch] at hk hc
  rw [hc, hlo, hhi]
  unfold TileStart at hstart
  unfold fetchedColourAt
  cases hin : s.pipe.inWindow with
  | true =>
    rw [hin, if_pos rfl] at hstart
    rw [if_pos rfl, windowColourAt_of_tile hin hstart.1 hstart.2 (by simpa [hin] using hk)]
    simp
  | false =>
    rw [hin, if_neg Bool.false_ne_true] at hstart
    rw [if_neg Bool.false_ne_true]
    simp only [hin, and_true] at hk ⊢
    refine (bgColourAt_of_tile hin ?_ hk).symm
    split_ifs with h0
    · exact .inl ⟨h0, hdis⟩
    · exact .inr ⟨hstart.resolve_left h0, rfl⟩

/-- The tile after the decoded one starts where the run ends (R129, R134). -/
theorem TileStart.after_run {s : State} (hstart : TileStart s s.pipe.pushX) (hfetch : s.pipe.fetchX = s.pipe.pushX)
    (hdis : s.pipe.discard.toNat = s.scx.toNat % 8) : TileStart s (s.pipe.pushX + (decodeRun s.pipe).length) := by
  rw [decodeRun_length, hfetch]
  unfold TileStart at hstart ⊢
  cases hin : s.pipe.inWindow with
  | true =>
    simp only [hin, if_true, Bool.true_eq_false, and_false, if_false] at hstart ⊢
    omega
  | false =>
    simp only [hin, Bool.false_eq_true, if_false, and_true] at hstart ⊢
    split_ifs <;> omega

/-! ### The sprites -/

/-- The pixel that the sprites of a list show at screen x: that of the lowest OAM index (R148). -/
def spriteSlot (s : State) (l : List SpriteAttr) (x : Nat) : SpritePixel :=
  match lowestOam (spritesAt l x) with
  | some a => spritePixelAt s a x
  | none => .blank x

theorem spriteLayerAt_eq (s : State) (x : Nat) :
    spriteLayerAt s x = if s.objEnable then spriteSlot s (qualifying s) x else .blank x := rfl

/-- With no sprite at screen x the slot is blank. -/
theorem spriteSlot_of_nil (s : State) {l : List SpriteAttr} {x : Nat} (h : spritesAt l x = []) :
    spriteSlot s l x = .blank x := by
  rw [spriteSlot, h]
  rfl

/-- The lowest index of a list and one more sprite. -/
theorem lowestOam_append (l : List SpriteAttr) (a : SpriteAttr) :
    lowestOam (l ++ [a]) =
      some (match lowestOam l with
        | none => a
        | some b => if a.oam < b.oam then a else b) := by
  induction l with
  | nil => rfl
  | cons b l ih =>
    rw [List.cons_append, lowestOam, ih, lowestOam]
    cases lowestOam l with
    | none => grind
    | some c => grind

theorem lowestOam_eq_none {l : List SpriteAttr} (h : lowestOam l = none) : l = [] := by
  rcases l.eq_nil_or_concat with rfl | ⟨l, a, rfl⟩
  · rfl
  · rw [List.concat_eq_append, lowestOam_append] at h
    cases h

/-- The sprite of the lowest index is one of the list, and none has a lower one. -/
theorem lowestOam_spec {l : List SpriteAttr} {a : SpriteAttr} (h : lowestOam l = some a) :
    a ∈ l ∧ ∀ b ∈ l, a.oam ≤ b.oam := by
  induction l generalizing a with
  | nil => cases h
  | cons b l ih =>
    rw [lowestOam] at h
    cases hl : lowestOam l with
    | none =>
      rw [hl] at h
      cases h
      obtain rfl := lowestOam_eq_none hl
      exact ⟨List.mem_singleton_self _, fun c hc => by rw [List.mem_singleton.1 hc]⟩
    | some c =>
      rw [hl] at h
      obtain ⟨hc, hmin⟩ := ih hl
      simp only at h
      split_ifs at h with hle <;> cases h
      · exact ⟨List.mem_cons_self, fun d hd => (List.mem_cons.1 hd).elim (fun e => e ▸ le_rfl)
          fun hd => hle.trans (hmin d hd)⟩
      · exact ⟨List.mem_cons_of_mem b hc, fun d hd => (List.mem_cons.1 hd).elim (fun e => by rw [e]; omega) (hmin d)⟩

/-- Where the indices are distinct the lowest one does not depend on the order. -/
theorem lowestOam_perm {l m : List SpriteAttr} (h : l.Perm m) (hnodup : (l.map SpriteAttr.oam).Nodup) :
    lowestOam l = lowestOam m := by
  cases hl : lowestOam l with
  | none =>
    obtain rfl := lowestOam_eq_none hl
    rw [List.nil_perm.1 h]
    rfl
  | some a =>
    cases hm : lowestOam m with
    | none =>
      obtain rfl := lowestOam_eq_none hm
      rw [List.perm_nil.1 h] at hl
      cases hl
    | some b =>
      obtain ⟨ha, hamin⟩ := lowestOam_spec hl
      obtain ⟨hb, hbmin⟩ := lowestOam_spec hm
      have hoam : a.oam = b.oam := le_antisymm (hamin b (h.mem_iff.2 hb)) (hbmin a (h.mem_iff.1 ha))
      rw [List.inj_on_of_nodup_map hnodup ha (h.mem_iff.2 hb) hoam]

/-- One more sprite on the line, at the pixels it covers. -/
theorem spritesAt_append_of_covers {l : List SpriteAttr} {a : SpriteAttr} {x : Nat}
    (h : a.x ≤ (x : Int) ∧ (x : Int) < a.x + 8) : spritesAt (l ++ [a]) x = spritesAt l x ++ [a] := by
  rw [spritesAt, List.filter_append]
  exact congrArg _ (List.filter_eq_self.2 fun b hb => by
    rw [List.mem_singleton.1 hb]
    simpa only [Bool.and_eq_true, decide_eq_true_eq] using h)

/-- One more sprite on the line, at the pixels it does not cover. -/
theorem spritesAt_append_of_not_covers {l : List SpriteAttr} {a : SpriteAttr} {x : Nat}
    (h : ¬(a.x ≤ (x : Int) ∧ (x : Int) < a.x + 8)) : spritesAt (l ++ [a]) x = spritesAt l x := by
  rw [spritesAt, List.filter_append]
  have hnone : [a].filter (fun a => decide (a.x ≤ (x : Int)) && decide ((x : Int) < a.x + 8)) = [] :=
    List.filter_eq_nil_iff.2 fun b hb => by
      rw [List.mem_singleton.1 hb]
      simpa only [Bool.and_eq_true, decide_eq_true_eq] using h
  rw [hnone, List.append_nil]
  rfl

/-- The sprites not yet reached by the drain cover no pixel drained (R140, R141). -/
theorem spritesAt_take {l : List SpriteAttr} {n x px : Nat} (hmissed : ∀ a ∈ l.drop n, (px : Int) ≤ a.triggerX)
    (hx : x < px) : spritesAt (l.take n) x = spritesAt l x := by
  have hnone : spritesAt (l.drop n) x = [] := List.filter_eq_nil_iff.2 fun a ha => by
    have htrig := hmissed a ha
    unfold SpriteAttr.triggerX at htrig
    simp only [Bool.and_eq_true, decide_eq_true_eq]
    omega
  have happend : spritesAt l x = spritesAt (l.take n) x ++ spritesAt (l.drop n) x := by
    unfold spritesAt
    rw [← List.filter_append, List.take_append_drop]
  rw [happend, hnone, List.append_nil]

/-- With all the sprites reached that can cover a pixel, the slot is that of the line's sprites (R141, R148). -/
theorem spriteSlot_of_reached {s : State} {n x px : Nat} (hperm : s.sel.Perm (qualifying s))
    (hmissed : ∀ a ∈ s.sel.drop n, (px : Int) ≤ a.triggerX) (hx : x < px) :
    spriteSlot s (s.sel.take n) x = spriteSlot s (qualifying s) x := by
  have hnodup : ((spritesAt s.sel x).map SpriteAttr.oam).Nodup := by
    have hall : (s.sel.map SpriteAttr.oam).Nodup := (hperm.map _).nodup_iff.2 (qualifying_oam_nodup s)
    exact hall.sublist (List.filter_sublist.map _)
  unfold spriteSlot
  have hsame : lowestOam (spritesAt s.sel x) = lowestOam (spritesAt (qualifying s) x) :=
    lowestOam_perm (hperm.filter _) hnodup
  rw [spritesAt_take hmissed hx, hsame]

/-- One more sprite merged into a slot of the FIFO (R146, R148). -/
theorem mergeSlot_spriteSlot {s : State} {l : List SpriteAttr} {a : SpriteAttr} {x : Nat} {old : Option SpritePixel}
    (hcover : a.x ≤ (x : Int) ∧ (x : Int) < a.x + 8)
    (hold : old = some (spriteSlot s l x) ∨ old = none ∧ spritesAt l x = []) :
    mergeSlot a (Memory.read s.vram (a.rowAddr s.ly).toNat) (Memory.read s.vram ((a.rowAddr s.ly).toNat + 1)) x old =
      spriteSlot s (l ++ [a]) x := by
  have hnew : spriteSlot s (l ++ [a]) x =
      spritePixelAt s (match lowestOam (spritesAt l x) with
        | none => a
        | some b => if a.oam < b.oam then a else b) x := by
    rw [spriteSlot, spritesAt_append_of_covers hcover, lowestOam_append]
  rw [hnew]
  obtain rfl | ⟨rfl, hnil⟩ := hold
  · unfold spriteSlot
    cases lowestOam (spritesAt l x) with
    | none => rfl
    | some b =>
      show (if decide (a.oam < b.oam) = true then spritePixelAt s a x else spritePixelAt s b x) = _
      simp only [decide_eq_true_eq]
      split <;> rfl
  · rw [hnil]
    rfl

end Sys2Proof.Machine
end

section
/-! PROOFS. What the pipeline holds of a line (spec/43_bg_window_fetcher.md, spec/44_sprite_fetcher.md,
spec/45_fifo_mixer.md; O55): the invariant that the FIFOs, the run and the fetcher's latches hold the layers' pixels,
kept by the drain of a Push, by a sprite fetch and by the mixer. -/

namespace Sys2Proof.Machine

/-! ### The invariant -/

/-- The background's side: what the FIFO, the run and the tile in progress hold of the layer's colours (R123, R129,
R131). -/
structure LayerShown (s : State) : Prop where
  latch : s.winLineOk = (s.winEnable && decide (s.wy.toNat ≤ s.ly.toNat))
  discard : s.pipe.discard.toNat = s.scx.toNat % 8
  window : s.pipe.inWindow = true → s.winEnable = true ∧ s.winLineOk = true ∧ windowStart s ≤ s.pipe.pushX
  bg : ∀ k q, s.pipe.bgFifo[k]? = some q → q.color = layerColourAt s (s.pipe.outputX + k)
  run : ∀ k c, s.pipe.run[k]? = some c → s.pipe.pushX + k < 160 → c = fetchedColourAt s (s.pipe.pushX + k)
  edge : 160 ≤ s.pipe.pushX + s.pipe.run.length ∨ TileStart s (s.pipe.pushX + s.pipe.run.length)

/-- The sprites whose pixels the sprite FIFO has taken: those passed by the drain, but the one being fetched (R141,
R142). -/
def overlaidSprites (s : State) : List SpriteAttr :=
  if s.objEnable then s.sel.take (s.pipe.spPtr - if s.pipe.sfetchLeft = 0 then 0 else 1) else []

/-- The slot at screen x shows the sprites of a list, or there is none and no sprite of the list covers x. -/
def SlotShown (s : State) (l : List SpriteAttr) (x : Nat) (q : Option SpritePixel) : Prop :=
  q = some (spriteSlot s l x) ∨ q = none ∧ spritesAt l x = []

/-- Where the FIFO has no slot no sprite of the list has a pixel. -/
theorem SlotShown.nil_of_none {s : State} {l : List SpriteAttr} {x : Nat} (h : SlotShown s l x none) :
    spritesAt l x = [] := by
  obtain h | ⟨-, h⟩ := h
  · cases h
  · exact h

/-- The sprites' side: each slot of the FIFO holds the pixel of the sprites overlaid so far, and no sprite overlaid has
a pixel right of the FIFO's end (R132, R146). -/
structure SpritesShown (s : State) : Prop where
  slots : ∀ k, s.pipe.outputX + k < 160 → SlotShown s (overlaidSprites s) (s.pipe.outputX + k) s.pipe.spFifo[k]?
  fetching : 0 < s.pipe.sfetchLeft →
    s.objEnable = true ∧ ∃ i, s.pipe.spPtr = i + 1 ∧ s.sel[i]? = some s.pipe.sfetchCur
  selected : s.sel.Perm (qualifying s)

/-- The latches of the tile fetch hold the tile at the next pixel to drain (R123, R126, R127). -/
structure TileFetched (s : State) : Prop where
  looked_up : s.pipe.phase = .dataLow → s.pipe.mapAddr = (tileCoords s s.pipe.pushX).mapAddr ∧
    s.pipe.tileLine = (tileCoords s s.pipe.pushX).line
  low : s.pipe.phase = .dataHigh → s.pipe.tileAddr.toNat = tileRowAddr s s.pipe.pushX ∧
    s.pipe.lo = Memory.read s.vram (tileRowAddr s s.pipe.pushX)
  row : s.pipe.phase = .idle → s.pipe.lo = Memory.read s.vram (tileRowAddr s s.pipe.pushX) ∧
    s.pipe.hi = Memory.read s.vram (tileRowAddr s s.pipe.pushX + 1)

/-- What the FIFOs and the run hold. -/
structure FifosShown (s : State) : Prop where
  layer : LayerShown s
  sprites : SpritesShown s

/-- The fetch's own counters and latches are no part of what the FIFOs hold. -/
theorem FifosShown.setFetch {s : State} (h : FifosShown s) (ph : Phase) (d fx : Nat) (ma ta : Addr) (tl : BitVec 3)
    (lo hi : Byte) : FifosShown { s with pipe := { s.pipe with
      phase := ph, phaseDot := d, fetchX := fx, mapAddr := ma, tileLine := tl, tileAddr := ta, lo := lo
      hi := hi } } := by
  obtain ⟨⟨latch, discard, window, bg, run, edge⟩, ⟨slots, fetching, selected⟩⟩ := h
  exact ⟨⟨latch, discard, window, bg, run, edge⟩, ⟨slots, fetching, selected⟩⟩

/-- While a sprite fetch goes on its count is no part of what the FIFOs hold. -/
theorem FifosShown.setLeft {s : State} (h : FifosShown s) {m : Nat} (hm : 0 < m) (hleft : 0 < s.pipe.sfetchLeft) :
    FifosShown { s with pipe.sfetchLeft := m } := by
  obtain ⟨⟨latch, discard, window, bg, run, edge⟩, ⟨slots, fetching, selected⟩⟩ := h
  have hsame : overlaidSprites { s with pipe.sfetchLeft := m } = overlaidSprites s := by
    simp only [overlaidSprites, if_neg hm.ne', if_neg hleft.ne']
    rfl
  exact ⟨⟨latch, discard, window, bg, run, edge⟩, ⟨hsame ▸ slots, fun _ => fetching hleft, selected⟩⟩

/-! ### The drain -/

/-- At a pixel of the screen where the window does not trigger, the fetcher is in the line's layer (R131). -/
theorem LayerShown.fetchedColourAt_eq {s : State} (h : LayerShown s) (hx : s.pipe.pushX < 160)
    (hw : windowTrigger s = false) : fetchedColourAt s s.pipe.pushX = layerColourAt s s.pipe.pushX := by
  have hok : s.winEnable = true → (s.winLineOk = true ↔ s.wy.toNat ≤ s.ly.toNat) := fun hen => by
    rw [h.latch, hen, Bool.true_and, decide_eq_true_eq]
  unfold fetchedColourAt layerColourAt
  cases hin : s.pipe.inWindow with
  | true =>
    obtain ⟨hen, hlatch, hstart⟩ := h.window hin
    rw [if_pos rfl, if_pos ⟨hen, (hok hen).1 hlatch, hstart⟩]
  | false =>
    rw [if_neg Bool.false_ne_true, if_neg]
    rintro ⟨hen, hwy, hstart⟩
    have htrigger : windowTrigger s = true := windowTrigger_eq_true_iff.2
      ⟨hin, hen, (hok hen).2 hwy, by unfold windowStart at hstart; omega⟩
    cases hw.symm.trans htrigger

/-- The end of a Push: what is dropped of the run lies right of the screen (R134). -/
theorem restartFetch_shown {s : State} (h : FifosShown s) (hend : s.pipe.run = [] ∨ s.pipe.pushX = 160) :
    FifosShown (restartFetch s) := by
  obtain ⟨⟨latch, discard, window, bg, run, edge⟩, ⟨slots, fetching, selected⟩⟩ := h
  refine ⟨⟨latch, discard, window, bg, nofun, ?_⟩, ⟨slots, fetching, selected⟩⟩
  obtain hrun | hx := hend
  · rw [hrun] at edge
    exact edge
  · exact .inl hx.ge

/-- The window is entered at its start, where its first tile begins (R131). -/
theorem enterWindow_shown {s : State} (h : FifosShown s) (hg : OnGrid s) (hx : s.pipe.pushX < 160)
    (hw : windowTrigger s = true) : FifosShown (enterWindow s) := by
  obtain ⟨⟨latch, discard, window, bg, run, edge⟩, ⟨slots, fetching, selected⟩⟩ := h
  obtain ⟨hin, hdue, hstart⟩ := (windowTrigger_iff hx).1 hw
  obtain ⟨-, hen, hok, -⟩ := windowTrigger_eq_true_iff.1 hw
  have hbefore := hg.before_window hin hdue
  refine ⟨⟨latch, discard, fun _ => ⟨hen, hok, hstart⟩, bg, nofun, .inr ⟨hstart, ?_⟩⟩, ⟨slots, fetching, selected⟩⟩
  show (s.pipe.pushX - windowStart s) % 8 = 0
  omega

/-- The pixel drained is the layer's (R132). -/
theorem LayerShown.drainOne {s : State} {c : Colour} {rest : List Colour} (h : LayerShown s) (hf : FifoAligned s.pipe)
    (hr : s.pipe.run = c :: rest) (hx : s.pipe.pushX < 160) (hw : windowTrigger s = false) :
    LayerShown (drainOne c rest s) := by
  have hcolour := h.fetchedColourAt_eq hx hw
  obtain ⟨latch, discard, window, bg, run, edge⟩ := h
  have hlen := hf.bg_length
  rw [hr] at run edge
  refine ⟨latch, discard, fun hin => ?_, fun k q hq => ?_, fun k e he hk => ?_, ?_⟩
  · obtain ⟨hen, hok, hstart⟩ := window hin
    exact ⟨hen, hok, Nat.le_succ_of_le hstart⟩
  · have hq' : (s.pipe.bgFifo ++ [({ color := c, blank := false, pal := .bg } : BgPixel)])[k]? = some q := hq
    rw [List.getElem?_append] at hq'
    split at hq'
    case isTrue => exact bg k q hq'
    case isFalse hk =>
      have hk0 : k - s.pipe.bgFifo.length = 0 := by
        have := (List.getElem?_eq_some_iff.1 hq').1
        rw [List.length_singleton] at this
        omega
      have hlast : s.pipe.outputX + k = s.pipe.pushX := by omega
      rw [hk0] at hq'
      cases hq'
      show c = layerColourAt s (s.pipe.outputX + k)
      rw [hlast, ← hcolour]
      exact run 0 c rfl (by omega)
  · have hshift : s.pipe.pushX + 1 + k = s.pipe.pushX + (k + 1) := by omega
    have hk' : s.pipe.pushX + 1 + k < 160 := hk
    show e = fetchedColourAt s (s.pipe.pushX + 1 + k)
    rw [hshift] at hk' ⊢
    exact run (k + 1) e he hk'
  · have hshift : s.pipe.pushX + 1 + rest.length = s.pipe.pushX + (c :: rest).length := by
      rw [List.length_cons]
      omega
    show 160 ≤ s.pipe.pushX + 1 + rest.length ∨ TileStart s (s.pipe.pushX + 1 + rest.length)
    rw [hshift]
    exact edge

/-- Beside the pixel drained a blank slot is made where no sprite overlaid covers it (R132). -/
theorem SpritesShown.drainOne {s : State} {c : Colour} {rest : List Colour} (h : SpritesShown s)
    (hf : FifoAligned s.pipe) : SpritesShown (drainOne c rest s) := by
  obtain ⟨slots, fetching, selected⟩ := h
  have hlen := hf.push_le_sp
  refine ⟨fun k hk => ?_, fetching, selected⟩
  have hslot := slots k hk
  show SlotShown s (overlaidSprites s) (s.pipe.outputX + k)
    (if s.pipe.outputX + s.pipe.spFifo.length ≤ s.pipe.pushX then s.pipe.spFifo ++ [.blank s.pipe.pushX]
      else s.pipe.spFifo)[k]?
  split
  case isFalse => exact hslot
  case isTrue hend =>
    rw [List.getElem?_append]
    split
    case isTrue => exact hslot
    case isFalse hk' =>
      rw [List.getElem?_eq_none (Nat.le_of_not_lt hk')] at hslot
      have hnil := hslot.nil_of_none
      obtain hk0 | hk1 : k = s.pipe.spFifo.length ∨ s.pipe.spFifo.length + 1 ≤ k := by omega
      · have hx' : s.pipe.pushX = s.pipe.outputX + k := by omega
        rw [hk0, Nat.sub_self, hx', ← hk0]
        exact .inl (congrArg some (spriteSlot_of_nil s hnil).symm)
      · exact .inr ⟨List.getElem?_eq_none (by rw [List.length_singleton]; omega), hnil⟩

/-- A sprite passed over, objects being disabled, gives the FIFO nothing (R141). -/
theorem passOver_shown {s : State} {k : Nat} (h : FifosShown s) (hleft : s.pipe.sfetchLeft = 0)
    (hk : s.objEnable = true → k = s.pipe.spPtr) : FifosShown { s with pipe.spPtr := k } := by
  obtain ⟨⟨latch, discard, window, bg, run, edge⟩, ⟨slots, fetching, selected⟩⟩ := h
  have hsame : overlaidSprites { s with pipe.spPtr := k } = overlaidSprites s := by
    by_cases hobj : s.objEnable = true
    · rw [hk hobj]
    · rw [overlaidSprites, overlaidSprites, if_neg hobj]
      exact if_neg hobj
  exact ⟨⟨latch, discard, window, bg, run, edge⟩,
    ⟨hsame ▸ slots, fun hpos => absurd hleft (Nat.ne_of_gt hpos), selected⟩⟩

/-- A sprite whose fetch starts is not overlaid yet (R141, R142). -/
theorem startFetch_shown {s : State} {a : SpriteAttr} (h : FifosShown s) (hleft : s.pipe.sfetchLeft = 0)
    (ha : s.sel[s.pipe.spPtr]? = some a) (hobj : s.objEnable = true) :
    FifosShown { s with
      pipe.spPtr := s.pipe.spPtr + 1, pipe.sfetchCur := a, pipe.sfetchLeft := spriteFetchDots } := by
  obtain ⟨⟨latch, discard, window, bg, run, edge⟩, ⟨slots, fetching, selected⟩⟩ := h
  have hsame : overlaidSprites { s with
      pipe.spPtr := s.pipe.spPtr + 1, pipe.sfetchCur := a, pipe.sfetchLeft := spriteFetchDots } =
      overlaidSprites s := by
    rw [overlaidSprites, overlaidSprites, if_pos hobj, hleft]
    exact if_pos hobj
  exact ⟨⟨latch, discard, window, bg, run, edge⟩, ⟨hsame ▸ slots, fun _ => ⟨hobj, _, rfl, ha⟩, selected⟩⟩

/-- The drain of a Push keeps what the FIFOs hold (R129). -/
theorem drainLoop_shown (n : Nat) {s : State} (h : Pushing s) (hs : FifosShown s) (hn : s.pipe.run.length ≤ n) :
    FifosShown (drainLoop n s) ∧ ((drainLoop n s).pipe.phase = .getTile ∨ (drainLoop n s).pipe.phase = .push) := by
  induction n generalizing s with
  | zero => exact ⟨restartFetch_shown hs (.inl (List.length_eq_zero_iff.1 (by omega))), .inl rfl⟩
  | succ n ih =>
    cases hr : s.pipe.run with
    | nil =>
      have hloop : drainLoop (n + 1) s = restartFetch s := by simp only [drainLoop, hr]
      rw [hloop]
      exact ⟨restartFetch_shown hs (.inl hr), .inl rfl⟩
    | cons c rest =>
      rw [hr, List.length_cons] at hn
      have hle := h.fifos.push_le
      simp only [drainLoop, hr]
      split
      case isFalse hx => exact ⟨restartFetch_shown hs (.inr (by simp only [screenW] at hx hle; omega)), .inl rfl⟩
      case isTrue hx =>
        split
        case isTrue hw => exact ⟨enterWindow_shown hs h.grid hx hw, .inl rfl⟩
        case isFalse hw =>
          obtain ⟨k, -, -, -, hk, hcheck⟩ | ⟨a, ha, htrig, hobj, hcheck⟩ := spriteCheck_cases s
          · obtain ⟨h', -⟩ := passOver_dotsToGo h hk
            obtain ⟨h'', -⟩ := drainOne_dotsToGo (c := c) (rest := rest) h' hr hx hw
            have hs' := passOver_shown hs h.idle hk
            have hw' : windowTrigger { s with pipe.spPtr := k } = false := Bool.eq_false_of_not_eq_true hw
            rw [hcheck]
            exact ih h'' ⟨hs'.layer.drainOne h'.fifos hr hx hw', hs'.sprites.drainOne h'.fifos⟩
              (Nat.le_of_succ_le_succ hn)
          · rw [hcheck]
            exact ⟨startFetch_shown hs h.idle ha hobj, .inr h.phase⟩

/-! ### The fetcher -/

/-- A dot of a tile fetch before its Push looks the tile up, or reads a byte of its row, or only counts (R122, R123,
R126, R127). -/
theorem TileFetched.fetcherStep {s t : State} (h : TileFetched s) (hf : FetcherLegal s.pipe)
    (hphase : s.pipe.phase ≠ .push) (hlast : s.pipe.elapsed ≠ 7) (ht : fetcherStep s = .ok t) : TileFetched t := by
  have hlt := hf.phaseDot_lt
  simp only [fetchPhaseDots] at hlt
  by_cases hdot : s.pipe.phaseDot = 0
  · cases (fetcherStep_first_dot hphase hdot).symm.trans ht
    obtain ⟨looked_up, low, row⟩ := h
    exact ⟨looked_up, low, row⟩
  · have hdot1 : s.pipe.phaseDot = 1 := by omega
    unfold Machine.fetcherStep at ht
    cases hph : s.pipe.phase <;>
      simp only [hph, hdot1, fetchPhaseDots, Nat.reduceAdd, Nat.lt_irrefl, if_false] at ht
    case getTile =>
      cases ht
      exact ⟨fun _ => ⟨rfl, rfl⟩, nofun, nofun⟩
    case dataLow =>
      obtain ⟨hmap, hline⟩ := h.looked_up hph
      obtain ⟨a, ha, -, -, hlow⟩ := dataLowAction_spec s (hf.map_range hph)
      rw [hlow] at ht
      cases ht
      rw [hmap, hline] at ha
      exact ⟨nofun, fun _ => ⟨ha, congrArg (Memory.read s.vram) ha⟩, nofun⟩
    case dataHigh =>
      obtain ⟨haddr, hlow⟩ := h.low hph
      rw [dataHighAction_spec s (hf.tile_range hph)] at ht
      cases ht
      exact ⟨nofun, nofun, fun _ => ⟨hlow, congrArg (fun a => Memory.read s.vram (a + 1)) haddr⟩⟩
    case idle => simp [Pipeline.elapsed, hph, hdot1, Phase.index] at hlast
    case push => exact absurd hph hphase

/-- A run decoded at the end of a tile fetch is the layer's colours from the next pixel on (R129, R130). -/
theorem decode_shown {s : State} (hs : FifosShown s) (ht : TileFetched s) (hf : FetcherLegal s.pipe)
    (hphase : s.pipe.phase ≠ .push) (hlast : s.pipe.elapsed = 7) :
    FifosShown (decodeIfEmpty { s with pipe.phaseDot := 0, pipe.phase := .push }) := by
  obtain ⟨hidle, -⟩ := idle_of_elapsed hphase hf.phaseDot_lt hlast
  obtain ⟨hlo, hhi⟩ := ht.row hidle
  have hfetch := hf.fetch_eq (.inr (.inr hidle))
  obtain ⟨hrun, -⟩ := hf.run_nil hphase
  have hdecode : decodeIfEmpty { s with pipe.phaseDot := 0, pipe.phase := .push } = { s with
      pipe.phaseDot := 0, pipe.phase := .push, pipe.run := decodeRun s.pipe } := if_pos hrun
  obtain ⟨⟨latch, discard, window, bg, -, edge⟩, ⟨slots, fetching, selected⟩⟩ := hs
  rw [hrun] at edge
  rw [hdecode]
  refine ⟨⟨latch, discard, window, bg, fun k c hc hk => ?_, ?_⟩, ⟨slots, fetching, selected⟩⟩
  · obtain hout | hstart := edge
    · exact absurd hk (by simp only [List.length_nil] at hout ⊢; omega)
    · exact decodeRun_colours hstart hfetch discard hlo hhi hc
  · obtain hout | hstart := edge
    · exact .inl (Nat.le_trans hout (Nat.add_le_add_left (Nat.zero_le _) _))
    · exact .inr (TileStart.after_run hstart hfetch discard)

/-- The fetcher's step of a dot with pixels to go (R122). -/
theorem fetcherStep_shown {s t : State} (hs : FifosShown s) (hfetched : TileFetched s) (h : DrawLegal s)
    (hg : OnGrid s) (ho : s.pipe.outputX < 160) (hidle : s.pipe.sfetchLeft = 0) (ht : fetcherStep s = .ok t) :
    FifosShown t ∧ TileFetched t := by
  have hf := h.fetcher
  have htile : ∀ u : State, u.pipe.phase = .getTile ∨ u.pipe.phase = .push → TileFetched u := fun u hu => by
    constructor <;> intro hph <;> rw [hph] at hu <;> simp at hu
  by_cases hphase : s.pipe.phase = .push
  · obtain ⟨hrun, -, hle⟩ := hf.run_held hphase
    have hpush : fetcherStep s = .ok (pushStep s) := by simp only [fetcherStep, hphase]
    have hdecode : decodeIfEmpty s = s := if_neg hrun
    cases hpush.symm.trans ht
    unfold pushStep
    rw [hdecode]
    obtain ⟨hshown, hph⟩ := drainLoop_shown _ ⟨hphase, hidle, h.fifos, by omega, hg⟩ hs le_rfl
    exact ⟨hshown, htile _ hph⟩
  · by_cases hlast : s.pipe.elapsed = 7
    · obtain ⟨hpushing, -⟩ := decode_dotsToGo h hg ho hphase hlast
      cases (fetcherStep_push hphase hf.phaseDot_lt hlast).symm.trans ht
      obtain ⟨hshown, hph⟩ := drainLoop_shown _ hpushing (decode_shown hs hfetched hf hphase hlast) le_rfl
      exact ⟨hshown, htile _ hph⟩
    · have hnext := hfetched.fetcherStep hf hphase hlast ht
      obtain ⟨ph, d, fx, ma, tl, ta, lo, hi, -, -, rfl⟩ := fetcherStep_advance ht hphase hf.phaseDot_lt hlast
      exact ⟨hs.setFetch ph d fx ma ta tl lo hi, hnext⟩

/-! ### The sprite fetch -/

/-- The sprites overlaid when a fetch ends are those before it and the one fetched (R142). -/
theorem overlaidSprites_fetched {s : State} (h : SpritesShown s) (hpos : 0 < s.pipe.sfetchLeft) :
    overlaidSprites { s with pipe.sfetchLeft := 0 } = overlaidSprites s ++ [s.pipe.sfetchCur] := by
  obtain ⟨hobj, i, hptr, hcur⟩ := h.fetching hpos
  have hafter : overlaidSprites { s with pipe.sfetchLeft := 0 } = s.sel.take s.pipe.spPtr := if_pos hobj
  have hbefore : overlaidSprites s = s.sel.take i := by
    rw [overlaidSprites, if_pos hobj, if_neg hpos.ne', hptr, Nat.add_sub_cancel]
  rw [hafter, hbefore, hptr, List.take_add_one, hcur]
  rfl

/-- The dots of a sprite fetch: the last gives each slot the sprite covers its pixel, by index (R142, R146, R148). -/
theorem spriteStallDot_shown {s t : State} (hs : FifosShown s) (h : DrawLegal s) (hpos : 0 < s.pipe.sfetchLeft)
    (ht : spriteStallDot s = .ok t) : FifosShown t := by
  by_cases hone : s.pipe.sfetchLeft - 1 = 0
  · have hbg := h.fifos.bg_length
    have hsp := h.fifos.push_le_sp
    obtain ⟨-, htrig⟩ := h.sprites.fetching hpos
    obtain ⟨q, hq, -, -, hslots⟩ := spriteFetchComplete_spec { s with pipe.sfetchLeft := s.pipe.sfetchLeft - 1 }
      (by simp only; omega) (by simp only; omega) h.fifos.sp_le
    have hlast : spriteStallDot s = .ok { s with pipe.sfetchLeft := s.pipe.sfetchLeft - 1, pipe.spFifo := q } :=
      (if_pos hone).trans hq
    cases hlast.symm.trans ht
    have hover := overlaidSprites_fetched hs.sprites hpos
    obtain ⟨⟨latch, discard, window, bg, run, edge⟩, ⟨slots, fetching, selected⟩⟩ := hs
    rw [hone]
    refine ⟨⟨latch, discard, window, bg, run, edge⟩, ⟨fun k hk => ?_, nofun, selected⟩⟩
    have hk' : s.pipe.outputX + k < 160 := hk
    have hslot := slots k hk'
    show SlotShown s (overlaidSprites { s with pipe.sfetchLeft := 0 }) (s.pipe.outputX + k) q[k]?
    rw [hover]
    have hqk := hslots k
    simp only at hqk
    by_cases hcover : s.pipe.sfetchCur.x ≤ ((s.pipe.outputX + k : Nat) : Int) ∧
        ((s.pipe.outputX + k : Nat) : Int) < s.pipe.sfetchCur.x + 8
    · rw [if_pos ⟨hcover.1, hcover.2, hk'⟩] at hqk
      rw [hqk, mergeSlot_spriteSlot hcover hslot]
      exact .inl rfl
    · rw [if_neg fun hc => hcover ⟨hc.1, hc.2.1⟩] at hqk
      rw [hqk, SlotShown, spriteSlot, spritesAt_append_of_not_covers hcover]
      exact hslot
  · cases (if_neg hone).symm.trans ht
    exact hs.setLeft (by omega) hpos

/-! ### The mixer -/

/-- What the mixer takes out at a pixel is the line's pixel (R152, R153). -/
theorem sample_of_shown {s : State} (hs : FifosShown s) (h : FifoAligned s.pipe) (hleft : s.pipe.sfetchLeft = 0)
    (hmissed : ∀ a ∈ s.sel.drop s.pipe.spPtr, (s.pipe.pushX : Int) ≤ a.triggerX)
    (hpixels : ∀ q ∈ s.pipe.bgFifo, q.blank = false ∧ q.pal = .bg) {bg : BgPixel} {bgs : List BgPixel}
    {sp : SpritePixel} {sps : List SpritePixel} (hbg : s.pipe.bgFifo = bg :: bgs) (hsp : s.pipe.spFifo = sp :: sps) :
    sample s (mix s.bgWinEnable bg sp) = sampleAt s s.pipe.outputX := by
  have hlen := h.bg_length
  have hle := h.push_le
  rw [hbg, List.length_cons] at hlen
  simp only [screenW] at hle
  obtain ⟨hblank, hpal⟩ := hpixels bg (hbg ▸ List.mem_cons_self)
  have hcolour := hs.layer.bg 0 bg (by rw [hbg]; rfl)
  have hbg' : bg = { color := layerColourAt s s.pipe.outputX, blank := false, pal := .bg } := by
    rw [Nat.add_zero] at hcolour
    rw [← hcolour, ← hblank, ← hpal]
  have hsp' : sp = spriteLayerAt s s.pipe.outputX := by
    obtain hslot | ⟨hnone, -⟩ := hs.sprites.slots 0 (by omega)
    · rw [hsp] at hslot
      have hslot' : sp = spriteSlot s (overlaidSprites s) s.pipe.outputX := Option.some.inj hslot
      rw [hslot', spriteLayerAt_eq, overlaidSprites, hleft, if_pos rfl, Nat.sub_zero]
      split
      · exact spriteSlot_of_reached hs.sprites.selected hmissed (by omega)
      · rfl
    · rw [hsp] at hnone
      cases hnone
  rw [hbg', hsp']
  rfl

/-- The mixer's dot takes the pixel out and keeps what is left (R152). -/
theorem mixerDot_shown {s t : State} (hs : FifosShown s) (h : Fetched s) (hfetched : TileFetched s)
    (hly : s.ly.toNat < 144) (ht : mixerDot s = .ok t) :
    FifosShown t ∧ TileFetched t ∧
      (t = s ∨ t.pipe.outputX = s.pipe.outputX + 1 ∧
        t.fb = FrameBuffer.write s.fb (s.ly.toNat * 160 + s.pipe.outputX) (sampleAt s s.pipe.outputX)) := by
  obtain ⟨-, hm⟩ | ⟨bg, bgs, sp, sps, hbg, hsp, -, hm⟩ := mixerDot_spec s h.fifos hly
  · cases hm.symm.trans ht
    exact ⟨hs, hfetched, .inl rfl⟩
  · have hsample := sample_of_shown hs h.fifos h.idle h.sprites.not_missed h.bg_pixels hbg hsp
    rw [hsample] at hm
    cases hm.symm.trans ht
    obtain ⟨⟨latch, discard, window, bgFifo, run, edge⟩, ⟨slots, fetching, selected⟩⟩ := hs
    obtain ⟨looked_up, low, row⟩ := hfetched
    rw [hbg] at bgFifo
    rw [hsp] at slots
    have hshift : ∀ k, s.pipe.outputX + 1 + k = s.pipe.outputX + (k + 1) := fun k => by omega
    refine ⟨⟨⟨latch, discard, window, fun k q hq => ?_, run, edge⟩, ⟨fun k hk => ?_, fetching, selected⟩⟩,
      ⟨looked_up, low, row⟩, .inr ⟨rfl, rfl⟩⟩
    · show q.color = layerColourAt s (s.pipe.outputX + 1 + k)
      rw [hshift]
      exact bgFifo (k + 1) q hq
    · have hk' : s.pipe.outputX + 1 + k < 160 := hk
      show SlotShown s (overlaidSprites s) (s.pipe.outputX + 1 + k) sps[k]?
      rw [hshift] at hk' ⊢
      exact slots (k + 1) hk'

end Sys2Proof.Machine
end

section
/-! PROOFS. What a line shows (spec/43_bg_window_fetcher.md, spec/44_sprite_fetcher.md, spec/45_fifo_mixer.md; O54,
O55): every dot of Draw keeps what the pipeline holds and writes the line's pixels. -/

namespace Sys2Proof.Machine

/-! ### The dot -/

/-- The Draw of line `ly` half way: the pixels out are written as `g` says, the bytes of the other lines read as in `f`,
and the pipeline holds the pixels that come next. -/
structure LineShown (ly : Byte) (g : Nat → Byte) (f : FrameBuffer) (s : State) : Prop where
  fifos : FifosShown s
  fetched : TileFetched s
  line : s.ly = ly
  sample : ∀ x, sampleAt s x = g x
  written : ∀ x, x < s.pipe.outputX → FrameBuffer.read s.fb (ly.toNat * 160 + x) = g x
  other : ∀ i, i < ly.toNat * 160 ∨ ly.toNat * 160 + 160 ≤ i → FrameBuffer.read s.fb i = FrameBuffer.read f i

/-- The schedule is no part of what a line shows. -/
theorem LineShown.setSchedule {ly : Byte} {g : Nat → Byte} {f : FrameBuffer} {s : State} (h : LineShown ly g f s)
    (dot draw : Nat) (m : Mode) (i : Byte) :
    LineShown ly g f { s with lineDot := dot, drawDots := draw, mode := m, iflag := i } := by
  obtain ⟨⟨⟨latch, discard, window, bg, run, edge⟩, ⟨slots, fetching, selected⟩⟩, ⟨looked_up, low, row⟩, line, sample,
    written, other⟩ := h
  exact ⟨⟨⟨latch, discard, window, bg, run, edge⟩, ⟨slots, fetching, selected⟩⟩, ⟨looked_up, low, row⟩, line, sample,
    written, other⟩

/-- Where no pixel is written the frame buffer stays. -/
theorem LineShown.of_unwritten {ly : Byte} {g : Nat → Byte} {f : FrameBuffer} {s t : State} (h : LineShown ly g f s)
    (hfifos : FifosShown t) (hfetched : TileFetched t) (hframe : ∃ p, t = { s with pipe := p })
    (hout : t.pipe.outputX = s.pipe.outputX) : LineShown ly g f t := by
  obtain ⟨p, rfl⟩ := hframe
  exact ⟨hfifos, hfetched, h.line, h.sample, fun x hx => h.written x (hout ▸ hx), h.other⟩

/-- The pixel written is the line's, and no other byte of the frame buffer changes (R159). -/
theorem LineShown.of_written {ly : Byte} {g : Nat → Byte} {f : FrameBuffer} {s t : State} (h : LineShown ly g f s)
    (hfifos : FifosShown t) (hfetched : TileFetched t) (hx : s.pipe.outputX < 160)
    (hframe : ∃ p, t = { s with
      pipe := p, fb := FrameBuffer.write s.fb (s.ly.toNat * 160 + s.pipe.outputX) (sampleAt s s.pipe.outputX) })
    (hout : t.pipe.outputX = s.pipe.outputX + 1) : LineShown ly g f t := by
  obtain ⟨p, rfl⟩ := hframe
  have hly := h.line
  refine ⟨hfifos, hfetched, hly, h.sample, fun x hlt => ?_, fun i hi => ?_⟩
  · have hlt' : x < s.pipe.outputX + 1 := hout ▸ hlt
    show FrameBuffer.read (FrameBuffer.write _ _ _) _ = _
    rw [fb_read_write, hly]
    split
    case isTrue heq => rw [h.sample, show x = s.pipe.outputX by omega]
    case isFalse hne => exact h.written x (by omega)
  · show FrameBuffer.read (FrameBuffer.write _ _ _) _ = _
    rw [fb_read_write_other (by rw [hly]; omega)]
    exact h.other i hi

/-- A dot of the pipeline writes the line's next pixel or none, and keeps what the pipeline holds (R121). -/
theorem LineShown.pipelineDot {ly : Byte} {g : Nat → Byte} {f : FrameBuffer} {s t : State} (h : LineShown ly g f s)
    (hdraw : DrawLegal s) (hg : OnGrid s) (hly : s.ly.toNat < 144) (ht : pipelineDot s = .ok t) :
    LineShown ly g f t := by
  have hle := hdraw.fifos.push_le
  have hlen := hdraw.fifos.bg_length
  simp only [screenW] at hle
  by_cases ho : s.pipe.outputX = 160
  · cases (if_pos ho).symm.trans ht
    exact h
  · by_cases hleft : 0 < s.pipe.sfetchLeft
    · rw [pipelineDot_fetching ho hleft] at ht
      have hfifos := spriteStallDot_shown h.fifos hdraw hleft ht
      obtain ⟨n, q, rfl⟩ := spriteStallDot_frame ht
      obtain ⟨looked_up, low, row⟩ := h.fetched
      exact h.of_unwritten hfifos ⟨looked_up, low, row⟩ ⟨_, rfl⟩ rfl
    · have hidle : s.pipe.sfetchLeft = 0 := by omega
      obtain ⟨p, hp, hout, -, hlegal⟩ := fetcherStep_legal s hdraw (by omega) hidle
      obtain ⟨hfifos, hfetched⟩ := fetcherStep_shown h.fifos h.fetched hdraw hg (by omega) hidle hp
      have hstep : LineShown ly g f { s with pipe := p } := h.of_unwritten hfifos hfetched ⟨p, rfl⟩ hout
      rw [pipelineDot_after_fetcherStep ho hidle hp] at ht
      obtain ⟨hp0, hready, -⟩ | ⟨hp6, -⟩ := hlegal
      · rw [if_neg (by simp [hp0])] at ht
        obtain ⟨hfifos', hfetched', rfl | ⟨hout', hfb⟩⟩ := mixerDot_shown hfifos hready hfetched hly ht
        · exact hstep
        · obtain ⟨b, q, x, fb, rfl⟩ := mixerDot_fifos ht
          simp only at hfb
          exact hstep.of_written hfifos' hfetched' (by simp only; omega) ⟨_, by rw [hfb]⟩ hout'
      · rw [if_pos (by simp [hp6])] at ht
        cases ht
        obtain ⟨looked_up, low, row⟩ := hfetched
        exact hstep.of_unwritten (hfifos.setLeft (by simp [hp6]) (by simp [hp6])) ⟨looked_up, low, row⟩ ⟨_, rfl⟩ rfl

/-! ### The line -/

/-- A line's Draw shown as far as it has come, and to its end once HBlank is reached (R104). -/
def ShownTo (ly : Byte) (g : Nat → Byte) (f : FrameBuffer) (s : State) : Prop :=
  LineShown ly g f s ∧ (s.mode = .hblank → s.pipe.outputX = 160)

/-- A dot of Draw or of the HBlank after it (R104, R105). -/
theorem ShownTo.dot {ly : Byte} {g : Nat → Byte} {f : FrameBuffer} {d n : Nat} {s t : State} (h : ShownTo ly g f s)
    (hn : n < 375) (hs : DrawnFor d n s) (ht : dotStep s = .ok t) : ShownTo ly g f t := by
  obtain ⟨hshown, hdone⟩ := h
  obtain ⟨hdrawing, p, fb, hp, rfl⟩ | ⟨-, -, rfl⟩ := hs.dot_cases hn ht
  · have hafter := hshown.pipelineDot hdrawing.legal hdrawing.grid hdrawing.line hp
    unfold endDrawIfDone
    split
    case isTrue hend =>
      rw [requestIf_eq]
      exact ⟨hafter.setSchedule _ _ _ _, fun _ => hend.1⟩
    case isFalse => exact ⟨hafter.setSchedule _ _ _ _, fun hm => by cases hdrawing.mode.symm.trans hm⟩
  · exact ⟨hshown.setSchedule _ _ _ _, hdone⟩

/-- From Draw entry to the end of the line. -/
theorem runDots_shownTo {ly : Byte} {g : Nat → Byte} {f : FrameBuffer} {d : Nat} {s : State} (hs : Drawing d 0 s)
    (h : ShownTo ly g f s) {n : Nat} (hn : n < 376) :
    ∃ t, runDots n s = .ok t ∧ DrawnFor d n t ∧ ShownTo ly g f t :=
  runDots_drawn_induction (P := fun _ => ShownTo ly g f) hs h (fun hn hdrawn hshown ht => hshown.dot hn hdrawn ht) hn

/-! ### Draw entry -/

/-- A dot before the last of a line leaves the window line alone (R108). -/
theorem dotStep_windowLine {s t : State} (ht : dotStep s = .ok t) (hdot : s.lineDot ≠ 455) :
    t.windowLine = s.windowLine := by
  unfold dotStep at ht
  split at ht
  case isFalse =>
    cases ht
    rfl
  case isTrue =>
    obtain ⟨u, hu, ht⟩ := bind_eq_ok ht
    obtain ⟨-, hpos⟩ := lineStartIfDue_position s
    obtain ⟨-, hpos'⟩ := modeDot_position hu
    have hstart : (lineStartIfDue s).windowLine = s.windowLine := by
      unfold lineStartIfDue
      split
      · obtain hly | hly | hly := lt_trichotomy s.ly.toNat 144
        · rw [lineStart_visible_eq hly]
        · rw [lineStart_144_eq hly]
        · rw [lineStart_later_eq hly]
      · rfl
    rw [endOfDot_inside (by omega)] at ht
    cases ht
    obtain ⟨_, _, _, _, _, _, _, _, rfl⟩ := modeDot_frame hu
    exact hstart

/-- The scan leaves the window line and the frame buffer alone (R108, R159). -/
theorem runDots_scan_frame {s t : State} (hon : s.engineOn = true) (hdot : s.lineDot = 0) (hly : s.ly.toNat < 144)
    {n : Nat} (hn : n ≤ 80) (ht : runDots n s = .ok t) : t.windowLine = s.windowLine ∧ t.fb = s.fb := by
  induction n generalizing t with
  | zero =>
    cases ht
    exact ⟨rfl, rfl⟩
  | succ n ih =>
    obtain ⟨u, hu, -, hpos, hscan⟩ := runDots_scanning hon hdot hly (n := n) (by omega)
    obtain ⟨hwin, hfb⟩ := ih (by omega) hu
    rw [runDots_add, hu] at ht
    have ht' : dotStep u = .ok t := (runDots_one u).symm.trans ht
    have hfb' := dotStep_fb_of_mode ht' (by rw [hscan.mode]; nofun)
    exact ⟨(dotStep_windowLine ht' (by omega)).trans hwin, hfb'.trans hfb⟩

/-- The line's sprites and samples depend on what no dot of the line changes. -/
theorem sources_of_kept {s t : State} (hkept : Kept s t) (hly : t.ly = s.ly) (hwin : t.windowLine = s.windowLine) :
    qualifying t = qualifying s ∧ ∀ x, sampleAt t x = sampleAt s x := by
  have ht : t = { t with
      lcdc := s.lcdc, scy := s.scy, scx := s.scx, wy := s.wy, wx := s.wx, bgp := s.bgp, obp0 := s.obp0, obp1 := s.obp1
      vram := s.vram, oam := s.oam, ly := s.ly, windowLine := s.windowLine } := by
    rw [← hkept.lcdc, ← hkept.scy, ← hkept.scx, ← hkept.wy, ← hkept.wx, ← hkept.bgp, ← hkept.obp0, ← hkept.obp1,
      ← hkept.vram, ← hkept.oam, ← hly, ← hwin]
  rw [ht]
  exact ⟨rfl, fun _ => rfl⟩

/-- At Draw entry the pipeline holds nothing, and nothing is written (R120). -/
theorem endOamScan_shown {s u : State} (hkept : Kept s (endOamScan u)) (hly : u.ly = s.ly)
    (hwin : u.windowLine = s.windowLine) (hfb : u.fb = s.fb) (hsel : u.sel = qualifying s)
    (hlatch : u.winLineOk = (s.winEnable && decide (s.wy.toNat ≤ s.ly.toNat))) :
    ShownTo s.ly (sampleAt s) s.fb (endOamScan u) := by
  obtain ⟨hqualifying, hsample⟩ := sources_of_kept hkept hly hwin
  have hperm : (sortSprites u.sel).Perm (qualifying (endOamScan u)) := by
    rw [hqualifying, ← hsel]
    exact sortSprites_perm u.sel
  have hlatch' : u.winLineOk = (u.winEnable && decide (u.wy.toNat ≤ u.ly.toNat)) := by
    have hlcdc : u.lcdc = s.lcdc := hkept.lcdc
    have hwy : u.wy = s.wy := hkept.wy
    rw [hlatch, hly, hwy, State.winEnable, State.winEnable, hlcdc]
  have hdiscard : (u.scx.extractLsb' 0 3).toNat = u.scx.toNat % 8 := by
    rw [BitVec.extractLsb'_toNat, Nat.shiftRight_zero]
  have hnone : overlaidSprites (endOamScan u) = [] := by
    rw [overlaidSprites]
    split
    · rfl
    · rfl
  rw [endOamScan_eq] at hnone ⊢
  refine ⟨⟨⟨⟨hlatch', hdiscard, nofun, nofun, nofun, .inr (.inl rfl)⟩, ⟨fun k _ => ?_, nofun, hperm⟩⟩,
    ⟨nofun, nofun, nofun⟩, hly, hsample, nofun, fun i _ => ?_⟩, nofun⟩
  · rw [hnone]
    exact .inr ⟨rfl, rfl⟩
  · exact congrArg (FrameBuffer.read · i) hfb

/-- A line's 456 dots write its 160 pixels and no byte of another line (R157, R159). -/
theorem runDots_line_shown {s : State} (hon : s.engineOn = true) (hdot : s.lineDot = 0) (hly : s.ly.toNat < 144) :
    ∃ t, runDots 456 s = .ok t ∧
      (∀ x, x < 160 → FrameBuffer.read t.fb (s.ly.toNat * 160 + x) = sampleAt s x) ∧
      (∀ i, i < s.ly.toNat * 160 ∨ s.ly.toNat * 160 + 160 ≤ i → FrameBuffer.read t.fb i = FrameBuffer.read s.fb i) := by
  obtain ⟨u, hu, hlast, hly', hsel, hlatch⟩ := runDots_drawEntry hon hdot hly
  obtain ⟨v, hv, -, hdrawing⟩ := runDots_drawing hon hdot hly
  cases hv.symm.trans hu
  obtain ⟨hwin, hfb⟩ := runDots_scan_frame hon hdot hly le_rfl hu
  obtain ⟨t, ht, ⟨hton, htdot, hmode⟩, hshown, hdone⟩ := runDots_shownTo hdrawing
    (endOamScan_shown (runDots_kept hu) hly' hwin hfb hsel hlatch) (n := 375) (by decide)
  have hlen := lineLength_le s
  rw [if_neg (by omega)] at hmode
  have hend : dotStep t = .ok (endOfLine { t with lineDot := 0 }) := by
    rw [dotStep_blank hton (.inl hmode) (by omega), endOfDot_last (by rw [hmode]; nofun) (by omega)]
  obtain ⟨ly, w, hframe⟩ := endOfLine_frame { t with lineDot := 0 }
  rw [hframe] at hend
  exact ⟨_, runDots_snoc (n := 455) (runDots_append (m := 80) (n := 375) hv ht) hend,
    fun x hx => hshown.written x (by rw [hdone hmode]; exact hx), hshown.other⟩

/-- Settles O55: the dots of the line, run by a Tick. -/
theorem lineShowsComposition : Obligations.LineShowsComposition := by
  intro s hon hdot hly
  obtain ⟨t, ht, hpixels, hother⟩ := runDots_line_shown (s := returnNothing s) hon hdot hly
  have htick : exec (.tick 114) s = .next t := by
    show outcomeOf (runDots (4 * 114) (returnNothing s)) = .next t
    rw [show 4 * 114 = 456 from rfl, ht]
    rfl
  exact ⟨t, htick, hpixels, hother⟩

/-- With window and objects disabled the line's sample is the background's, or blank (R154, R157). -/
theorem sampleAt_background {s : State} (hwin : s.lcdc.getLsbD 5 = false) (hobj : s.lcdc.getLsbD 1 = false) (x : Nat) :
    sampleAt s x = if s.lcdc.getLsbD 0 then sample s (some (bgColourAt s x, .bg)) else 0xFF := by
  have hlayer : layerColourAt s x = bgColourAt s x := if_neg fun h => by cases hwin.symm.trans h.1
  have hsprite : spriteLayerAt s x = .blank x := if_neg fun h => by cases hobj.symm.trans h
  rw [sampleAt, hlayer, hsprite, State.bgWinEnable]
  cases s.lcdc.getLsbD 0 <;> rfl

/-- Settles O54: a line of the composition with neither window nor sprites. -/
theorem lineShowsBackground : Obligations.LineShowsBackground := by
  intro s hon hdot hly hwin hobj
  obtain ⟨t, ht, hpixels, hother⟩ := lineShowsComposition s hon hdot hly
  exact ⟨t, ht, fun x hx => (hpixels x hx).trans (sampleAt_background hwin hobj x), hother⟩

end Sys2Proof.Machine
end
